-- ==== Sys2Proof/Word.lean ====
section
/-!
DEFINITION. The word types of MDE (00_scope.md R6, R7): a byte is 8 bits and a word is 32 bits.
-/

namespace Sys2Proof

/-- A byte (R7). -/
abbrev Byte := BitVec 8

/-- A word, "a 32-bit unit" (R6, R7). -/
abbrev Word := BitVec 32

end Sys2Proof
end

