-- ==== Sys2Proof/Config.lean ====
section
/-!
DEFINITION. What the spec leaves to the platform or to one implementation: the three open parameters `BASE`,
`IRQ_ROUTE` and `LAT` (92_eei_decisions.md D2, D8, D24), and the free values: what a host read returns while `rst` is
asserted (70_reset_and_hazards.md R311, 93_implementation_defined.md U14), and everything from power-up to the first
reset (R310, U13; the registers are in Machine/Ops.lean, since their type is State). None has a body, so no proof can
see what it is.
-/

namespace Sys2Proof

/-- The parameter `BASE` (R6, R61): the byte address of the register window. It is 4 KiB aligned, so only its upper
20 bits are open. DEDUCED, safe, log entry 4. -/
opaque Config.basePage : BitVec 20

/-- The parameter `IRQ_ROUTE` (R290): the line of the platform's interrupt controller that `irq` is wired to. -/
opaque Config.irqRoute : Nat

/-- The parameter `LAT(cmd, n)` (R321): clock cycles from acceptance to completion of the command with opcode `cmd`
and `n` micro-steps of work. -/
opaque Config.lat : Byte → Nat → Nat

/-- Free value (R310, R311, U13, U14): what a host read made before or during reset returns, after `n` free values. -/
opaque Config.rstReadData : Nat → Word

/-- Free value (R310, U13): the level of `irq` between power-up and the first reset, after `n` free values. -/
opaque Config.powerUpIrq : Nat → Bool

/-- Free value (R310, U13): the alphabet symbols between power-up and the first reset, after `n` free values. -/
opaque Config.powerUpSymbol : Nat → Nat → Byte

end Sys2Proof
end

