-- ==== Sys2Proof/Syntax.lean ====
section
/-!
DEFINITION. The instructions of MDE: the thirteen commands a host writes to CMD (30_encoding.md R93) and the four step
kinds the sequencer decodes from STEP (R101). One constructor per row of spec/opcode_table.json.
-/

namespace Sys2Proof

/-- One row of the opcode table each. -/
inductive Instr where
  | nop
  | md5Init
  /-- PUSH with `n` = ARG. Every 8-bit ARG is well formed (R95); only 1..4 is accepted. -/
  | push (n : Byte)
  | md5Final
  | hmacKeyInit
  | hmacStart
  | hmacFinal
  | encHex
  | encB64
  | encRadix
  | selftest
  | ack
  | softReset
  /-- A step of round 1. `n` is the whole step number STEP[5:0] (R101). -/
  | stepFf (n : BitVec 6)
  /-- A step of round 2. -/
  | stepGg (n : BitVec 6)
  /-- A step of round 3. -/
  | stepHh (n : BitVec 6)
  /-- A step of round 4. -/
  | stepIi (n : BitVec 6)
deriving DecidableEq, Repr

/-- The two encoded objects that name an instruction: a command word (format CMD, R90) and a step number (format SEQ,
R101). -/
inductive Encoded where
  | cmd (w : Word)
  | seq (n : BitVec 6)
deriving DecidableEq, Repr

/-- The "engine" commands of R93: those that set BUSY and complete later. ACK and SOFT_RESET are "immediate". -/
def Instr.isEngine : Instr → Bool
  | .nop | .md5Init | .push _ | .md5Final | .hmacKeyInit | .hmacStart | .hmacFinal => true
  | .encHex | .encB64 | .encRadix | .selftest => true
  | .ack | .softReset => false
  | .stepFf _ | .stepGg _ | .stepHh _ | .stepIi _ => false

/-- The instructions a host can write to CMD: the rows of format CMD. -/
def Instr.isCommand : Instr → Bool
  | .ack | .softReset => true
  | i => i.isEngine

end Sys2Proof
end

