-- ==== Sys2Proof/WellFormed.lean ====
section
/-!
DEFINITION. Which instruction terms stand for an encoding. A step's number must lie in the step's own round
(30_encoding.md R101). A command term has no check: PUSH with any 8-bit ARG is a well-formed word (R95).
-/

namespace Sys2Proof

/-- The round field STEP[5:4] of a step number (R101). -/
def roundOf (n : BitVec 6) : BitVec 2 := n.extractLsb' 4 2

/-- Whether the term is one an encoding of R90 to R101 stands for. -/
def Instr.wellFormed : Instr → Bool
  | .nop | .md5Init | .push _ | .md5Final | .hmacKeyInit | .hmacStart | .hmacFinal => true
  | .encHex | .encB64 | .encRadix | .selftest | .ack | .softReset => true
  | .stepFf n => roundOf n == 0
  | .stepGg n => roundOf n == 1
  | .stepHh n => roundOf n == 2
  | .stepIi n => roundOf n == 3

end Sys2Proof
end

