-- ==== Sys2Proof/Decode.lean ====
section
/-!
DEFINITION. The decoder of both encodings (30_encoding.md R90 to R101) and, after it, the encoder written from the same
tables. The decoder is total: what is no instruction is rejected by name.
-/

namespace Sys2Proof

/-- Why an encoding is no instruction. Every rejected command word is BAD_OP to the host (R94, R95, R96). -/
inductive DecodeError where
  /-- RSV, bits 31:16, is not 0 (R95). -/
  | reservedField
  /-- ARG, bits 15:8, is not 0 and OP is not PUSH (R95, R96). -/
  | argNotZero
  /-- OP is 0x0B, 0x0C, 0x0D or 0x10..0xFF (R94). -/
  | reservedOpcode (op : Byte)
  /-- A step number has 6 bits: a byte above 63 is none (R101). -/
  | stepOutOfRange (b : Byte)
  /-- A command is 4 bytes and a step number 1 byte, and there is no other length (R90, R98). -/
  | badLength (n : Nat)
deriving DecidableEq, Repr

/-- OP, bits 7:0 of a command word (R90). -/
def opField (w : Word) : Byte := w.extractLsb' 0 8

/-- ARG, bits 15:8 of a command word (R90). -/
def argField (w : Word) : Byte := w.extractLsb' 8 8

/-- RSV, bits 31:16 of a command word (R90). -/
def rsvField (w : Word) : BitVec 16 := w.extractLsb' 16 16

/-- The command an opcode without operand stands for, the opcode map of R93. PUSH (0x02) is not here: it has an
operand. -/
def opcodeNoArg (op : Byte) : Option Instr :=
  if op = 0x00 then some .nop
  else if op = 0x01 then some .md5Init
  else if op = 0x03 then some .md5Final
  else if op = 0x04 then some .hmacKeyInit
  else if op = 0x05 then some .hmacStart
  else if op = 0x06 then some .hmacFinal
  else if op = 0x07 then some .encHex
  else if op = 0x08 then some .encB64
  else if op = 0x09 then some .encRadix
  else if op = 0x0A then some .selftest
  else if op = 0x0E then some .ack
  else if op = 0x0F then some .softReset
  else none

/-- Decode a command word (R90 to R98). -/
def decodeCmd (w : Word) : Except DecodeError Instr :=
  if rsvField w ≠ 0 then .error .reservedField
  else if opField w = 0x02 then .ok (.push (argField w))
  else
    match opcodeNoArg (opField w) with
    | none => .error (.reservedOpcode (opField w))
    | some i => if argField w ≠ 0 then .error .argNotZero else .ok i

/-- Decode a step number: STEP[5:4] selects the round (R101). Every 6-bit value is legal. -/
def decodeSeq (n : BitVec 6) : Instr :=
  if roundOf n = 0 then .stepFf n
  else if roundOf n = 1 then .stepGg n
  else if roundOf n = 2 then .stepHh n
  else .stepIi n

/-- Decode either encoded object. -/
def decode : Encoded → Except DecodeError Instr
  | .cmd w => decodeCmd w
  | .seq n => .ok (decodeSeq n)

/-- Decode an encoding laid out in bytes, the lowest byte first (R70): four bytes are a command word, one byte holds a
step number. -/
def decodeBytes : List Byte → Except DecodeError Instr
  | [b] => if b.toNat < 64 then decode (.seq (b.setWidth 6)) else .error (.stepOutOfRange b)
  | [b0, b1, b2, b3] => decode (.cmd (b3 ++ b2 ++ b1 ++ b0))
  | bs => .error (.badLength bs.length)

/-- The `n` lowest bytes of a number, lowest first. -/
def natBytesLe (n w : Nat) : List Byte := (List.range n).map fun i => BitVec.ofNat 8 (w / 256 ^ i)

/-- What the decoder reads from an instruction whose bits are `w`, numbered as spec/opcode_table.json numbers them. A
row of at most 8 bits is a step number (format SEQ), a longer one a command word (format CMD). -/
def decodeTableWord (nbits w : Nat) : Option Instr :=
  if nbits ≤ 8 then (decodeBytes (natBytesLe 1 w)).toOption.filter fun _ => w < 256
  else (decodeBytes (natBytesLe 4 w)).toOption.filter fun _ => nbits ≤ 32 && w < 2 ^ 32

/-! ## The encoder -/

/-- The opcode of a command (R93). A step has none. -/
def opcodeOf : Instr → Option Byte
  | .nop => some 0x00
  | .md5Init => some 0x01
  | .push _ => some 0x02
  | .md5Final => some 0x03
  | .hmacKeyInit => some 0x04
  | .hmacStart => some 0x05
  | .hmacFinal => some 0x06
  | .encHex => some 0x07
  | .encB64 => some 0x08
  | .encRadix => some 0x09
  | .selftest => some 0x0A
  | .ack => some 0x0E
  | .softReset => some 0x0F
  | .stepFf _ | .stepGg _ | .stepHh _ | .stepIi _ => none

/-- ARG of a command: the count of PUSH, 0 for every other (R92). -/
def argOf : Instr → Byte
  | .push n => n
  | .nop | .md5Init | .md5Final | .hmacKeyInit | .hmacStart | .hmacFinal => 0
  | .encHex | .encB64 | .encRadix | .selftest | .ack | .softReset => 0
  | .stepFf _ | .stepGg _ | .stepHh _ | .stepIi _ => 0

/-- Assemble a command word from OP and ARG, with RSV 0 (R90, R92). -/
def cmdFields (op arg : Byte) : Word := (0 : BitVec 16) ++ arg ++ op

/-- The encoding of an instruction. -/
def encode : Instr → Encoded
  | .stepFf n | .stepGg n | .stepHh n | .stepIi n => .seq n
  | i => .cmd (cmdFields ((opcodeOf i).getD 0) (argOf i))

/-- The command word a host writes to CMD for a command: "Full command words" of R93. A step has no command word, and
the value given here for one is never used. -/
def cmdWord (i : Instr) : Word :=
  match encode i with
  | .cmd w => w
  | .seq _ => 0

end Sys2Proof
end

