-- ==== Sys2Proof/Machine/State.lean ====
section
/-!
DEFINITION. Everything the spec gives MDE, as plain data (10_state.md R20 to R44), and the machine right after reset
(R43). The last group of fields is the model's own: the inputs still to come and what the bus answered.
-/

namespace Sys2Proof.Machine

/-- Memory: (window offset, byte) cells, offsets strictly rising, no cell equal to what an unlisted offset reads as. -/
abbrev Memory := List Host.Cell

/-- The session mode STATUS.MODE (R27). The codes 4..7 are "never taken". -/
inductive Mode where
  | none
  | md5
  | key
  | hmsg
deriving DecidableEq, Repr, Inhabited

/-- The error codes of R281. `none` is code 0, "no error recorded". The codes 8..15 are never written. -/
inductive ErrCode where
  | none
  | busy
  | badOp
  | badSeq
  | badArg
  | badRadix
  | lenOvf
  | badAddr
deriving DecidableEq, Repr, Inhabited

/-- The fields of STATUS (R23). STATUS is read-only to the host; its 32-bit view is `statusWord`. -/
structure Status where
  busy : Bool
  done : Bool
  err : Bool
  errOvf : Bool
  errCode : ErrCode
  mode : Mode
  khash : Bool
  dvalid : Bool
  ovalid : Bool
  stDone : Bool
  stPass : Bool
deriving DecidableEq, Repr, Inhabited

/-- The fields of CONFIG (R30). The reserved bits are not stored: they ignore writes and read 0 (R42). -/
structure Cfg where
  hexUpper : Bool
  padEn : Bool
  irqEn : Bool
  padChar : Byte
deriving DecidableEq, Repr, Inhabited

/-- Four 32-bit registers: the HashState A, B, C, D (R36), or its saved copies AA, BB, CC, DD (R37). -/
structure Hash where
  a : Word
  b : Word
  c : Word
  d : Word
deriving DecidableEq, Repr, Inhabited

/-- PHASE of the sequencer (R40). -/
inductive Phase where
  | idle
  | run
deriving DecidableEq, Repr, Inhabited

/-- Where the sequencer stands inside a block compression (R172): in none, before one of the 64 steps, or before the
fold. The spec implies this control state ("the block compression in progress", R40); the type is the model's (DESIGN
CHOICE, safe, log entry 3). -/
inductive BlockPhase where
  | idle
  | step
  | fold
deriving DecidableEq, Repr, Inhabited

/-- Which block a compression reads: "the words of W, or of a pad block" (R171). The four are all that the command
rules compress: W (R142, R175), the key's first block (R205), the ipad block (R206) and the opad block (R208). DESIGN
CHOICE, safe, log entry 3. -/
inductive BlockSrc where
  | w
  | key
  | ipad
  | opad
deriving DecidableEq, Repr, Inhabited

/-- The sequencer (R40). -/
structure Seq where
  phase : Phase
  pcmd : Word
  step : BitVec 6
  block : BlockPhase
  src : BlockSrc
deriving DecidableEq, Repr, Inhabited

/-- The encoder's work state (R41). -/
structure EncWork where
  limb : Vector (BitVec 16) 8
  acc : BitVec 24
  rem : Vector Byte 128
  iter : Byte
deriving DecidableEq, Repr, Inhabited

/-- One input event, in the single order of R75: a host bus access already routed to the window (R61, R91), a turn of
the engine (R124), or a change of the `rst` input (R311). A loss of power, across which R297 leaves the state
unspecified, is no event: a run is one power-on period, and the next one begins at `State.powerUp` (DESIGN CHOICE,
unsafe, log entry 26). -/
inductive Event where
  | read (off : BitVec 12)
  | write (off : BitVec 12) (v : Word)
  | engine
  | rstAssert
  | rstRelease
deriving DecidableEq, Repr, Inhabited

/-- Whose turn an instruction runs in. A command acts twice: when the host writes it to CMD (R120) and when the engine
completes it (R126). -/
inductive Turn where
  | host
  | engine
deriving DecidableEq, Repr, Inhabited

/-- The `rst` input since power-up: not asserted yet (R310), asserted, or released after that (R311). -/
inductive RstInput where
  | powerUp
  | asserted
  | released
deriving DecidableEq, Repr, Inhabited

/-- The whole machine. -/
@[ext]
structure State where
  /-- STATUS (R23 to R28). -/
  status : Status
  /-- CONFIG (R30). -/
  cfg : Cfg
  /-- DATA_IN (R31). -/
  dataIn : Word
  /-- ALPHA_LEN bits 8:0 (R32). -/
  alphaLen : BitVec 9
  /-- MLEN_HI:MLEN_LO (R33). -/
  mlen : BitVec 64
  /-- OUT_LEN bits 7:0 (R34). -/
  outLen : Byte
  /-- OUT[0..127] (R34). -/
  out : Vector Byte 128
  /-- DIGEST[0..15] (R29). -/
  digest : Vector Byte 16
  /-- The alphabet RAM ALPHA[0..255] (R35), the only RAM of the window: symbol `s` is the byte at offset 0x200 + s. -/
  alpha : Memory
  /-- A, B, C, D (R36). -/
  hash : Hash
  /-- AA, BB, CC, DD (R37). -/
  saved : Hash
  /-- W[0..15] (R38). -/
  w : Vector Word 16
  /-- BCNT (R38). -/
  bcnt : BitVec 7
  /-- KBUF[0..63] (R39). -/
  kbuf : Vector Byte 64
  /-- PHASE, PCMD, STEP (R40). -/
  seq : Seq
  /-- LIMB, ACC, REM, ITER (R41). -/
  enc : EncWork
  /-- The `rst` input (R310, R311): a pin and whether it has been asserted since power-up, not a register. -/
  rst : RstInput
  /-- The model's own: the events still to come, in order (R75). DESIGN CHOICE, safe, log entry 2. -/
  inbox : List Event
  /-- The model's own: whose turn the last executed instruction ran in. The step sets it before it calls `exec`. DESIGN
  CHOICE, safe, log entry 1. -/
  turn : Turn
  /-- The model's own: what the last host read returned (R63). -/
  rdata : Word
  /-- The model's own: how many free values have been used (`Config.rstReadData`,
  `Config.powerUp`). DESIGN CHOICE, safe, log entries 5 and 6. -/
  freeCount : Nat
deriving DecidableEq, Repr, Inhabited

/-- Why a step stops. -/
inductive Fault where
  /-- Raised by an engine turn when PHASE is RUN and PCMD holds no engine command. Safe: acceptance latches only
  accepted engine commands (R123), so no run from reset reaches it, and the spec gives such a state no behaviour (DESIGN
  CHOICE, log entry 13). -/
  | pcmdNotACommand
deriving DecidableEq, Repr

/-- Why an instruction has no meaning. -/
inductive Refusal where
  /-- Raised by `exec` for an instruction with no meaning in the model. Safe: nothing runs. -/
  | notModelled (mnemonic : String)
deriving DecidableEq, Repr

/-- What one step answers. -/
abbrev Result := Host.Outcome State Fault Refusal

/-- The initial constants of the HashState (R161). -/
def Hash.iv : Hash := ⟨0x67452301, 0xEFCDAB89, 0x98BADCFE, 0x10325476⟩

/-- Four zero registers. -/
def Hash.zero : Hash := ⟨0, 0, 0, 0⟩

/-- STATUS = 0x00000000 (R43). -/
def Status.reset : Status where
  busy := false
  done := false
  err := false
  errOvf := false
  errCode := .none
  mode := .none
  khash := false
  dvalid := false
  ovalid := false
  stDone := false
  stPass := false

/-- CONFIG = 0x00003D00 (R43). -/
def Cfg.reset : Cfg where
  hexUpper := false
  padEn := false
  irqEn := false
  padChar := 0x3D

/-- PHASE = IDLE, PCMD = 0, STEP = 0 (R43), with no block compression in progress. -/
def Seq.reset : Seq where
  phase := .idle
  pcmd := 0
  step := 0
  block := .idle
  src := .w

/-- LIMB, ACC, REM and ITER all 0 (R43). -/
def EncWork.reset : EncWork where
  limb := Vector.replicate 8 0
  acc := 0
  rem := Vector.replicate 128 0
  iter := 0

/-- The machine right after reset (R43), with `rst` released, no event to come and nothing read yet (DESIGN CHOICE for
these, log entry 18). -/
def State.reset : State where
  status := Status.reset
  cfg := Cfg.reset
  dataIn := 0
  alphaLen := 0
  mlen := 0
  outLen := 0
  out := Vector.replicate 128 0
  digest := Vector.replicate 16 0
  alpha := []
  hash := Hash.iv
  saved := Hash.zero
  w := Vector.replicate 16 0
  bcnt := 0
  kbuf := Vector.replicate 64 0
  seq := Seq.reset
  enc := EncWork.reset
  rst := .released
  inbox := []
  turn := .host
  rdata := 0
  freeCount := 0

end Sys2Proof.Machine
end

