-- ==== Sys2Proof/Machine/Flags.lean ====
section
/-!
DEFINITION. The words a host reads as STATUS and CONFIG, the CONFIG a host writes, and the `irq` output (10_state.md
R23, R30, R42, 60_exceptions.md R289).
-/

namespace Sys2Proof.Machine

/-- ERRCODE of an error (R281). -/
def ErrCode.code : ErrCode → BitVec 4
  | .none => 0
  | .busy => 1
  | .badOp => 2
  | .badSeq => 3
  | .badArg => 4
  | .badRadix => 5
  | .lenOvf => 6
  | .badAddr => 7

/-- The value of STATUS.MODE (R27). -/
def Mode.code : Mode → BitVec 3
  | .none => 0
  | .md5 => 1
  | .key => 2
  | .hmsg => 3

/-- A flag at bit `k` of a word. -/
def flagAt (b : Bool) (k : Nat) : Word := (BitVec.ofBool b).setWidth 32 <<< k

/-- STATUS as a host reads it (R23). Bits 31:16 are reserved and read 0. -/
def statusWord (t : Status) : Word :=
  flagAt t.busy 0 ||| flagAt t.done 1 ||| flagAt t.err 2 ||| flagAt t.errOvf 3 |||
  (t.errCode.code.setWidth 32 <<< 4) ||| (t.mode.code.setWidth 32 <<< 8) ||| flagAt t.khash 11 |||
  flagAt t.dvalid 12 ||| flagAt t.ovalid 13 ||| flagAt t.stDone 14 ||| flagAt t.stPass 15

/-- CONFIG as a host reads it (R30). Bits 7:3 and 31:16 are reserved and read 0. -/
def cfgWord (c : Cfg) : Word :=
  flagAt c.hexUpper 0 ||| flagAt c.padEn 1 ||| flagAt c.irqEn 2 ||| (c.padChar.setWidth 32 <<< 8)

/-- CONFIG after a host writes `v` (R30, R42): the reserved bits of `v` are ignored. -/
def cfgOfWord (v : Word) : Cfg where
  hexUpper := v.getLsbD 0
  padEn := v.getLsbD 1
  irqEn := v.getLsbD 2
  padChar := v.extractLsb' 8 8

/-- The `irq` output, a level (R289). DEDUCED, safe, log entry 20. Before the first reset it may be anything (R310). -/
def State.irq (s : State) : Bool :=
  match s.rst with
  | .powerUp => Config.powerUpIrq s.freeCount
  | .asserted | .released => s.cfg.irqEn && (s.status.done || s.status.err)

end Sys2Proof.Machine
end

