-- ==== Sys2Proof/Machine/Operands.lean ====
section
/-!
DEFINITION. How bytes, words and limbs are cut from one another (00_scope.md R7 to R9, 20_memory.md R68 to R71), and
which register each offset of the window names (10_state.md R20).
-/

namespace Sys2Proof.Machine

/-- Byte lane `i` of a word, bits 8i+7 : 8i (R70). -/
def lane (w : Word) (i : Nat) : Byte := (w >>> (8 * i)).setWidth 8

/-- `bytes_le(w)` (R9). -/
def bytesLe (w : Word) : List Byte := [lane w 0, lane w 1, lane w 2, lane w 3]

/-- `word_le(b0, b1, b2, b3)` (R9). -/
def wordLe (b0 b1 b2 b3 : Byte) : Word :=
  b0.setWidth 32 ||| (b1.setWidth 32 <<< 8) ||| (b2.setWidth 32 <<< 16) ||| (b3.setWidth 32 <<< 24)

/-- `rotl32(v, s)` for 1 ≤ s ≤ 31 (R8). -/
def rotl32 (v : Word) (s : Nat) : Word := (v <<< s) ||| (v >>> (32 - s))

/-- Element `i` of a byte array. Every use is in range. -/
def byteAt {n : Nat} (v : Vector Byte n) (i : Nat) : Byte := v[i]?.getD 0

/-- Element `i` of a word array. Every use is in range. -/
def wordAt {n : Nat} (v : Vector Word n) (i : Nat) : Word := v[i]?.getD 0

/-- A byte array of `n` elements from a sequence: its first `n` bytes, zeros beyond its end. -/
def toBytes (n : Nat) (o : List Byte) : Vector Byte n := Vector.ofFn fun i => o.getD i.val 0

/-- The 32-bit register view of elements 4j..4j+3 of a byte array: the lower index in the lower lane (R70). -/
def wordView {n : Nat} (v : Vector Byte n) (j : Nat) : Word :=
  wordLe (byteAt v (4 * j)) (byteAt v (4 * j + 1)) (byteAt v (4 * j + 2)) (byteAt v (4 * j + 3))

/-- The sixteen words of a 64-byte block (R68). -/
def packBlock (m : Vector Byte 64) : Vector Word 16 := Vector.ofFn fun i => wordView m i.val

/-- `xor_each(K, c)` (R200). -/
def xorEach (k : Vector Byte 64) (c : Byte) : Vector Byte 64 := k.map (· ^^^ c)

/-- Limb `i` of the digest, big-endian (R71, R238). -/
def limbOf (d : Vector Byte 16) (i : Nat) : BitVec 16 := byteAt d (2 * i) ++ byteAt d (2 * i + 1)

/-- The registers of the window (R20). -/
inductive Reg where
  | id
  | cmd
  | status
  | config
  | dataIn
  | alphaLen
  | mlenLo
  | mlenHi
  | outLen
  | digest (j : Fin 4)
  | out (j : Fin 32)
  | alpha (j : Fin 64)
deriving DecidableEq, Repr

/-- How a host may access a register (R20). -/
inductive Access where
  | ro
  | wo
  | rw
deriving DecidableEq, Repr

/-- The access column of R20. -/
def Reg.access : Reg → Access
  | .cmd => .wo
  | .config | .dataIn | .alphaLen | .alpha _ => .rw
  | .id | .status | .mlenLo | .mlenHi | .outLen | .digest _ | .out _ => .ro

/-- The offset column of R20. -/
def Reg.offset : Reg → Nat
  | .id => 0x000
  | .cmd => 0x004
  | .status => 0x008
  | .config => 0x00C
  | .dataIn => 0x010
  | .alphaLen => 0x014
  | .mlenLo => 0x018
  | .mlenHi => 0x01C
  | .outLen => 0x020
  | .digest j => 0x030 + 4 * j.val
  | .out j => 0x100 + 4 * j.val
  | .alpha j => 0x200 + 4 * j.val

/-- The nine single registers, which lie at the words 0x000 to 0x020 without a gap (R20). -/
def singleRegs : List Reg :=
  [.id, .cmd, .status, .config, .dataIn, .alphaLen, .mlenLo, .mlenHi, .outLen]

/-- The register at an offset of the window (R20), `none` for a misaligned or unmapped offset (R62, R63). -/
def regAt (off : BitVec 12) : Option Reg :=
  let o := off.toNat
  if o % 4 ≠ 0 then none
  else if o < 0x024 then singleRegs[o / 4]?
  else if 0x030 ≤ o ∧ o < 0x040 then some (.digest (Fin.ofNat 4 ((o - 0x030) / 4)))
  else if 0x100 ≤ o ∧ o < 0x180 then some (.out (Fin.ofNat 32 ((o - 0x100) / 4)))
  else if 0x200 ≤ o ∧ o < 0x300 then some (.alpha (Fin.ofNat 64 ((o - 0x200) / 4)))
  else none

end Sys2Proof.Machine
end

