-- ==== Sys2Proof/Machine/Tables.lean ====
section
/-!
DEFINITION. The read-only constants of MDE (20_memory.md R78): the per-step tables (42_md5_engine.md R167 to R169), the
hex digits and the base-64 alphabet (44_encoder.md R232, R234), the iteration counts of the radix converter (R241), the
identifier (10_state.md R21) and the self-test digest (42_md5_engine.md R179). The spec marks the tables and codes as
general knowledge (DEDUCED, unsafe, log entry 15).
-/

namespace Sys2Proof.Machine

/-- The ID register (R21). -/
def idWord : Word := 0x4D443501

/-- The message-word index k of each step (R167). -/
def kTable : List Nat :=
  [0, 1, 2, 3, 4, 5, 6, 7, 8, 9, 10, 11, 12, 13, 14, 15] ++
   [1, 6, 11, 0, 5, 10, 15, 4, 9, 14, 3, 8, 13, 2, 7, 12] ++
   [5, 8, 11, 14, 1, 4, 7, 10, 13, 0, 3, 6, 9, 12, 15, 2] ++
   [0, 7, 14, 5, 12, 3, 10, 1, 8, 15, 6, 13, 4, 11, 2, 9]

/-- The rotation amounts of each round, each pattern repeated four times (R168). -/
def rotPattern : List (List Nat) := [[7, 12, 17, 22], [5, 9, 14, 20], [4, 11, 16, 23], [6, 10, 15, 21]]

/-- The additive constant T of each step (R169). -/
def tTable : List Word :=
  [0xD76AA478, 0xE8C7B756, 0x242070DB, 0xC1BDCEEE,
    0xF57C0FAF, 0x4787C62A, 0xA8304613, 0xFD469501,
    0x698098D8, 0x8B44F7AF, 0xFFFF5BB1, 0x895CD7BE,
    0x6B901122, 0xFD987193, 0xA679438E, 0x49B40821] ++
   [0xF61E2562, 0xC040B340, 0x265E5A51, 0xE9B6C7AA,
    0xD62F105D, 0x02441453, 0xD8A1E681, 0xE7D3FBC8,
    0x21E1CDE6, 0xC33707D6, 0xF4D50D87, 0x455A14ED,
    0xA9E3E905, 0xFCEFA3F8, 0x676F02D9, 0x8D2A4C8A] ++
   [0xFFFA3942, 0x8771F681, 0x6D9D6122, 0xFDE5380C,
    0xA4BEEA44, 0x4BDECFA9, 0xF6BB4B60, 0xBEBFBC70,
    0x289B7EC6, 0xEAA127FA, 0xD4EF3085, 0x04881D05,
    0xD9D4D039, 0xE6DB99E5, 0x1FA27CF8, 0xC4AC5665] ++
   [0xF4292244, 0x432AFF97, 0xAB9423A7, 0xFC93A039,
    0x655B59C3, 0x8F0CCC92, 0xFFEFF47D, 0x85845DD1,
    0x6FA87E4F, 0xFE2CE6E0, 0xA3014314, 0x4E0811A1,
    0xF7537E82, 0xBD3AF235, 0x2AD7D2BB, 0xEB86D391]

/-- k[STEP] (R167). -/
def kOf (n : BitVec 6) : Nat := kTable.getD n.toNat 0

/-- s[STEP] = P[STEP div 16][STEP mod 4] (R168). -/
def sOf (n : BitVec 6) : Nat := (rotPattern.getD (n.toNat / 16) []).getD (n.toNat % 4) 0

/-- T[STEP] (R169). -/
def tOf (n : BitVec 6) : Word := tTable.getD n.toNat 0

/-- `hexchar(v, upper)` (R232), the ASCII code of one hex digit. -/
def hexChar (v : Nat) (upper : Bool) : Byte :=
  if v ≤ 9 then BitVec.ofNat 8 (0x30 + v)
  else if upper then BitVec.ofNat 8 (0x41 + (v - 10))
  else BitVec.ofNat 8 (0x61 + (v - 10))

/-- The base-64 alphabet B64[v] (R234), as ASCII codes. -/
def b64Char (v : Nat) : Byte :=
  if v ≤ 25 then BitVec.ofNat 8 (0x41 + v)
  else if v ≤ 51 then BitVec.ofNat 8 (0x61 + (v - 26))
  else if v ≤ 61 then BitVec.ofNat 8 (0x30 + (v - 52))
  else if v = 62 then 0x2B
  else 0x2F

/-- The table of R241 as rows (largest radix of the row, iteration count). -/
def iterationRows : List (Nat × Nat) :=
  [(2, 128), (3, 81), (4, 64), (5, 56), (6, 50), (7, 46), (8, 43), (9, 41), (10, 39), (11, 38), (12, 36)] ++
  [(13, 35), (14, 34), (15, 33), (17, 32), (19, 31), (21, 30), (23, 29), (26, 28), (30, 27), (34, 26)] ++
  [(40, 25), (47, 24), (56, 23), (68, 22), (84, 21), (106, 20), (138, 19), (184, 18), (255, 17), (256, 16)]

/-- The count of the first row whose largest radix is at least `r`. -/
def lookupIterations (r : Nat) : List (Nat × Nat) → Nat
  | [] => 16
  | (top, l) :: rest => if r ≤ top then l else lookupIterations r rest

/-- L(r), the iteration count of the radix converter (R241). -/
def iterations (r : Nat) : Nat := lookupIterations r iterationRows

/-- The known digest of "abc" that SELFTEST compares with (R179). -/
def selftestDigest : List Byte :=
  [0x90, 0x01, 0x50, 0x98, 0x3c, 0xd2, 0x4f, 0xb0, 0xd6, 0x96, 0x3f, 0x7d, 0x28, 0xe1, 0x7f, 0x72]

end Sys2Proof.Machine
end

