-- ==== Sys2Proof/Machine/Ops.lean ====
section
/-!
DEFINITION. The operations the commands share: the alphabet RAM, reset, recording an error and clearing it
(60_exceptions.md R282, R286), the acceptance and completion of a command (40_command_control.md R122 to R126, R130),
and host reads and writes of a register (20_memory.md R62 to R64).
-/

/-- Free value (R310, 93_implementation_defined.md U13): every register of MDE between power-up and the first reset, after
`n` free values. Only the fields that are MDE's are used, but for the alphabet RAM (`Config.powerUpSymbol`). -/
opaque Sys2Proof.Config.powerUp : Nat → Sys2Proof.Machine.State

namespace Sys2Proof.Machine

/-! ## Memory -/

/-- What an unlisted byte reads as: the reset contents of the alphabet RAM (R43). DEDUCED, safe, log entry 7. -/
def Memory.unlisted : Byte := 0

/-- Read one byte. -/
def Memory.read : Memory → Nat → Byte
  | [], _ => Memory.unlisted
  | (k, x) :: rest, a => if k = a then x else Memory.read rest a

/-- Write one byte and keep the canonical form: a byte equal to what an unlisted one reads as is not listed. -/
def Memory.write : Memory → Nat → Byte → Memory
  | [], a, b => if b = Memory.unlisted then [] else [(a, b)]
  | (k, x) :: rest, a, b =>
    if a < k then (if b = Memory.unlisted then (k, x) :: rest else (a, b) :: (k, x) :: rest)
    else if a = k then (if b = Memory.unlisted then rest else (a, b) :: rest)
    else (k, x) :: Memory.write rest a b

/-- Offsets strictly rising from `lo` on, and no cell that reads as an unlisted one. -/
def Memory.wfFrom : Nat → Memory → Bool
  | _, [] => true
  | lo, (k, x) :: rest => decide (lo ≤ k) && x != Memory.unlisted && Memory.wfFrom (k + 1) rest

/-- The canonical form of memory. -/
def Memory.wf (m : Memory) : Bool := Memory.wfFrom 0 m

/-- Every listed offset lies in `lo .. hi - 1`. -/
def Memory.within (lo hi : Nat) (m : Memory) : Bool := m.all fun c => decide (lo ≤ c.1) && decide (c.1 < hi)

/-- Read the four bytes at `a` as a word, lower offset in the lower lane (R70). -/
def Memory.readWord (m : Memory) (a : Nat) : Word :=
  wordLe (Memory.read m a) (Memory.read m (a + 1)) (Memory.read m (a + 2)) (Memory.read m (a + 3))

/-- Write the four bytes of a word at `a` (R70). -/
def Memory.writeWord (m : Memory) (a : Nat) (v : Word) : Memory :=
  Memory.write (Memory.write (Memory.write (Memory.write m a (lane v 0)) (a + 1) (lane v 1)) (a + 2) (lane v 2))
    (a + 3) (lane v 3)

/-- The offset of ALPHA0 (R20). -/
def alphaBase : Nat := 0x200

/-- The offset after ALPHA63 (R20). -/
def alphaTop : Nat := 0x300

/-- The alphabet symbol ALPHA[v] (R35). -/
def State.symbol (s : State) (v : Nat) : Byte := Memory.read s.alpha (alphaBase + v)

/-! ## Reset and errors -/

/-- Every piece of MDE's state takes its reset value (R43, R311). What is no state of MDE stays: the `rst` pin, the
inputs to come, and what the bus answered (DESIGN CHOICE, safe, log entry 19). -/
def hwReset (s : State) : State :=
  { State.reset with
    rst := s.rst, inbox := s.inbox, turn := s.turn, rdata := s.rdata, freeCount := s.freeCount }

/-- The alphabet RAM between power-up and the first reset (R310): any symbols. It is irreducible so that no proof unfolds 256
writes by accident. -/
@[irreducible] def powerUpAlpha (n : Nat) : Memory :=
  (List.range 256).foldl (fun m v => Memory.write m (alphaBase + v) (Config.powerUpSymbol n v)) []

/-- Between power-up and the first reset every piece of MDE's state is unspecified (R310, U13): it takes a free value. What
is no state of MDE stays. DESIGN CHOICE, safe, log entry 6. -/
def unspecified (s : State) : State :=
  { Config.powerUp s.freeCount with
    alpha := powerUpAlpha s.freeCount
    rst := s.rst, inbox := s.inbox, turn := s.turn, rdata := s.rdata, freeCount := s.freeCount + 1 }

/-- MDE at power-up (R310), with the events to come. -/
def State.powerUp (events : List Event) : State :=
  unspecified { State.reset with rst := .powerUp, inbox := events }

/-- What recording an error does to STATUS (R282). -/
def Status.record (t : Status) (e : ErrCode) : Status :=
  if t.err then { t with errOvf := true } else { t with err := true, errCode := e }

/-- `raise Error(code)`: record an error (R10, R282). This takes the place of trap entry (R285): nothing is saved and no
control is transferred. -/
def recordError (e : ErrCode) (s : State) : State := { s with status := s.status.record e }

/-- What ACK does to STATUS (R128). -/
def Status.clear (t : Status) : Status :=
  { t with done := false, err := false, errOvf := false, errCode := .none }

/-- The effect of ACK, which takes the place of the return from a trap (R128, R286). -/
def clearStatus (s : State) : State := { s with status := s.status.clear }

/-! ## Acceptance and completion -/

/-- `valid_in_mode(op)` (R130). The immediate commands never reach this check (R122). A step is no command. -/
def validInMode : Instr → Status → Bool
  | .nop, _ => true
  | .md5Init, _ => true
  | .push _, t => t.mode == .md5 || t.mode == .key || t.mode == .hmsg
  | .md5Final, t => t.mode == .md5
  | .hmacKeyInit, _ => true
  | .hmacStart, t => t.mode == .key
  | .hmacFinal, t => t.mode == .hmsg
  | .encHex, t => t.dvalid
  | .encB64, t => t.dvalid
  | .encRadix, t => t.dvalid
  | .selftest, t => t.mode == .none
  | .ack, _ => true
  | .softReset, _ => true
  | .stepFf _, _ | .stepGg _, _ | .stepHh _, _ | .stepIi _, _ => false

/-- The checks of a PUSH count and of the length bound (R122, R148). -/
def pushRejection (n : Byte) (s : State) : Option ErrCode :=
  if ¬ (1 ≤ n.toNat ∧ n.toNat ≤ 4) then some .badArg
  else if s.mlen.toNat + 8 * n.toNat > 2 ^ 64 - 8 then some .lenOvf
  else none

/-- The check of the radix (R122, R245). -/
def radixRejection (s : State) : Option ErrCode :=
  if ¬ (2 ≤ s.alphaLen.toNat ∧ s.alphaLen.toNat ≤ 256) then some .badRadix else none

/-- The checks that are about one command's operands (R122). -/
def operandRejection : Instr → State → Option ErrCode
  | .push n, s => pushRejection n s
  | .encRadix, s => radixRejection s
  | .nop, _ | .md5Init, _ | .md5Final, _ | .hmacKeyInit, _ | .hmacStart, _ | .hmacFinal, _ => none
  | .encHex, _ | .encB64, _ | .selftest, _ | .ack, _ | .softReset, _ => none
  | .stepFf _, _ | .stepGg _, _ | .stepHh _, _ | .stepIi _, _ => none

/-- The first check of R122 after BUSY and BAD_OP that an engine command fails. -/
def rejection (i : Instr) (s : State) : Option ErrCode :=
  if validInMode i s.status then operandRejection i s else some .badSeq

/-- Reject a command (R122). A BAD_RADIX rejection also clears OUT_LEN and OVALID (R245), and OUT keeps its bytes
(DEDUCED, unsafe, log entry 9). -/
def reject (e : ErrCode) (s : State) : State :=
  match e with
  | .badRadix => recordError e { s with outLen := 0, status := { s.status with ovalid := false } }
  | .none | .busy | .badOp | .badSeq | .badArg | .lenOvf | .badAddr => recordError e s

/-- `accept(v)` (R123). -/
def accept (v : Word) (s : State) : State :=
  { s with
    seq := { s.seq with phase := .run, pcmd := v }
    status := { s.status with busy := true, done := false } }

/-- The write of an engine command to CMD while it decodes to `i` (R122): reject or accept. -/
def present (i : Instr) (s : State) : State :=
  if s.status.busy then reject .busy s
  else
    match rejection i s with
    | some e => reject e s
    | none => accept (cmdWord i) s

/-- What `complete()` does after the command's own effect (R126). -/
def complete (s : State) : State :=
  { s with
    status := { s.status with busy := false, done := true }
    seq := { s.seq with phase := .idle, pcmd := 0 } }

/-- An engine command with the given effect. At the host's turn the command is written to CMD (R122); at the engine's
turn it completes, its whole effect in one event (R125, R126). DESIGN CHOICE, safe, log entry 1. -/
def engineCommand (i : Instr) (effect : State → State) (s : State) : Result :=
  match s.turn with
  | .host => .next (present i s)
  | .engine => .next (complete (effect s))

/-! ## The symbols an encoder writes -/

/-- Write OUT and OUT_LEN, and set OVALID. -/
def putOut (o : Vector Byte 128) (n : Byte) (s : State) : State :=
  { s with out := o, outLen := n, status := { s.status with ovalid := true } }

/-- `set_out(o)` (R231). -/
def setOut (o : List Byte) (s : State) : State := putOut (toBytes 128 o) (BitVec.ofNat 8 o.length) s

/-! ## Host reads and writes of a register -/

/-- The current value of a register (R63). CMD is write-only and reads 0 (R22). -/
def readReg (r : Reg) (s : State) : Word :=
  match r with
  | .id => idWord
  | .cmd => 0
  | .status => statusWord s.status
  | .config => cfgWord s.cfg
  | .dataIn => s.dataIn
  | .alphaLen => s.alphaLen.setWidth 32
  | .mlenLo => s.mlen.setWidth 32
  | .mlenHi => (s.mlen >>> 32).setWidth 32
  | .outLen => s.outLen.setWidth 32
  | .digest j => wordView s.digest j.val
  | .out j => wordView s.out j.val
  | .alpha j => Memory.readWord s.alpha (alphaBase + 4 * j.val)

/-- A host read at an offset of the window (R62, R63). -/
def busRead (off : BitVec 12) (s : State) : State :=
  match regAt off with
  | none => { recordError .badAddr s with rdata := 0 }
  | some r => { s with rdata := readReg r s }

/-- Store to a writable register, its reserved fields ignored (R42, R64). The other registers are not written here. -/
def storeReg (r : Reg) (v : Word) (s : State) : State :=
  match r with
  | .config => { s with cfg := cfgOfWord v }
  | .dataIn => { s with dataIn := v }
  | .alphaLen => { s with alphaLen := v.setWidth 9 }
  | .alpha j => { s with alpha := Memory.writeWord s.alpha (alphaBase + 4 * j.val) v }
  | .id | .cmd | .status | .mlenLo | .mlenHi | .outLen | .digest _ | .out _ => s

/-- A host write to a register other than CMD (R64). -/
def writeReg (r : Reg) (v : Word) (s : State) : State :=
  match r.access with
  | .ro | .wo => recordError .badAddr s
  | .rw => if s.status.busy then recordError .busy s else storeReg r v s

/-! ## The bus outside the window -/

/-- The offset of a byte address in the window, `none` for an access that is not MDE's (R61). -/
def route (addr : Word) : Option (BitVec 12) :=
  if addr.extractLsb' 12 20 = Config.basePage then some (addr.extractLsb' 0 12) else none

/-- Host access (format BUS): kind, 32-bit byte address and, for a write, 32-bit data (R91). -/
inductive BusAccess where
  | read (addr : Word)
  | write (addr : Word) (v : Word)
deriving DecidableEq, Repr

/-- The event MDE sees of a host access (R61): none when the access is routed elsewhere. -/
def BusAccess.event : BusAccess → Option Event
  | .read addr => (route addr).map Event.read
  | .write addr v => (route addr).map fun off => Event.write off v

/-- The level of `irq` and the line the platform wires it to (R289, R290). -/
def State.irqLine (s : State) : Nat × Bool := (Config.irqRoute, s.irq)

end Sys2Proof.Machine
end

