-- ==== Sys2Proof/Machine/Control.lean ====
section
/-!
DEFINITION. The control commands NOP, ACK and SOFT_RESET (40_command_control.md R127 to R129).
-/

namespace Sys2Proof.Machine

/-- NOP (R127): no effect at completion. -/
def execNop (s : State) : Result := engineCommand .nop (fun t => t) s

/-- ACK (R128): immediate, dropped with error BUSY while a command runs. -/
def execAck (s : State) : Result := .next (if s.status.busy then reject .busy s else clearStatus s)

/-- SOFT_RESET (R129): immediate, also while a command runs, whose effects are then not applied. -/
def execSoftReset (s : State) : Result := .next (hwReset s)

end Sys2Proof.Machine
end

