-- ==== Sys2Proof/Machine/Encoder.lean ====
section
/-!
DEFINITION. The Digest Encoder: ENC_HEX, ENC_B64 and the base-radix converter ENC_RADIX (44_encoder.md R230 to R247).
-/

namespace Sys2Proof.Machine

/-! ## Hex -/

/-- The two symbols of one byte, high nibble first (R233). -/
def hexByte (upper : Bool) (b : Byte) : List Byte :=
  [hexChar (b.toNat / 16) upper, hexChar (b.toNat % 16) upper]

/-- The hex rendering of a byte sequence (R233). -/
def hexOf (upper : Bool) (d : List Byte) : List Byte := d.flatMap (hexByte upper)

/-- The effect of ENC_HEX (R233). -/
def encHex (s : State) : State := setOut (hexOf s.cfg.hexUpper s.digest.toList) s

/-- ENC_HEX (R233). -/
def execEncHex (s : State) : Result := engineCommand .encHex encHex s

/-! ## Base-64 -/

/-- The 24-bit group of the three bytes at `i`, zero beyond the end (R235). -/
def b64Group (d : List Byte) (i : Nat) : Nat :=
  (d.getD i 0).toNat * 2 ^ 16 + (d.getD (i + 1) 0).toNat * 2 ^ 8 + (d.getD (i + 2) 0).toNat

/-- The symbol at position `j` of the group at byte `i`: past the data the pad symbol, or nothing (R235). -/
def b64Symbol (d : List Byte) (padEn : Bool) (padChar : Byte) (i j : Nat) : List Byte :=
  if 8 * i + 6 * j > 8 * d.length then (if padEn then [padChar] else [])
  else [b64Char (b64Group d i / 2 ^ (6 * (3 - j)) % 64)]

/-- `b64(d, pad_en, pad_char)` (R235). -/
def b64 (d : List Byte) (padEn : Bool) (padChar : Byte) : List Byte :=
  (List.range ((d.length + 2) / 3)).flatMap fun g => (List.range 4).flatMap fun j => b64Symbol d padEn padChar (3 * g) j

/-- The effect of ENC_B64 (R236). -/
def encB64 (s : State) : State := setOut (b64 s.digest.toList s.cfg.padEn s.cfg.padChar) s

/-- ENC_B64 (R236). -/
def execEncB64 (s : State) : Result := engineCommand .encB64 encB64 s

/-! ## Arbitrary radix -/

/-- The limbs of the digest, most significant first (R238). -/
def limbsOf (d : Vector Byte 16) : Vector (BitVec 16) 8 := Vector.ofFn fun i => limbOf d i.val

/-- Write the encoder's work state. -/
def setEnc (e : EncWork) (s : State) : State := { s with enc := e }

/-- One limb of a division iteration (R239): ACC takes the limb in, the quotient goes back to the limb, the remainder
stays in ACC. -/
def divideLimb (r i : Nat) (e : EncWork) : EncWork :=
  let a : BitVec 24 := (e.acc <<< 16) + (e.limb[i]?.getD 0).setWidth 24
  { e with
    limb := e.limb.setIfInBounds i (BitVec.ofNat 16 (a.toNat / r))
    acc := BitVec.ofNat 24 (a.toNat % r) }

/-- One division iteration (R239): from the most significant limb on, then the remainder to REM[ITER]. -/
def divideOnce (r : Nat) (e : EncWork) : EncWork :=
  let f := (List.range 8).foldl (fun x i => divideLimb r i x) { e with acc := 0 }
  { f with rem := f.rem.setIfInBounds f.iter.toNat (f.acc.setWidth 8), iter := f.iter + 1 }

/-- `l` division iterations (R242). -/
def divideTimes (r : Nat) : Nat → EncWork → EncWork
  | 0, e => e
  | l + 1, e => divideTimes r l (divideOnce r e)

/-- The output symbols, most significant remainder first (R240). -/
def radixSymbols (l : Nat) (s : State) : List Byte :=
  (List.range l).map fun p => s.symbol (byteAt s.enc.rem (l - 1 - p)).toNat

/-- The division part of ENC_RADIX (R242). What LIMB, ACC, REM and ITER hold afterwards is open (U20; DESIGN CHOICE,
unsafe, log entry 8). -/
def convert (s : State) : State :=
  let r := s.alphaLen.toNat
  setEnc (divideTimes r (iterations r) { s.enc with limb := limbsOf s.digest, iter := 0 }) s

/-- The effect of ENC_RADIX (R242). -/
def encRadix (s : State) : State :=
  let t := convert s
  setOut (radixSymbols (iterations s.alphaLen.toNat) t) t

/-- ENC_RADIX (R242). -/
def execEncRadix (s : State) : Result := engineCommand .encRadix encRadix s

end Sys2Proof.Machine
end

