-- ==== Sys2Proof/Machine/Engine.lean ====
section
/-!
DEFINITION. The MD5 compression engine as operations: the round functions, the step, the block compression, and the
path of bytes through the block buffer (42_md5_engine.md R160 to R176, 41_word_packer.md R142).
-/

namespace Sys2Proof.Machine

/-! ## Rounds and steps -/

/-- `FF(B, C, D)` (R163). -/
def ff (b c d : Word) : Word := (b &&& c) ||| (~~~b &&& d)

/-- `GG(B, C, D)` (R164). -/
def gg (b c d : Word) : Word := (b &&& d) ||| (c &&& ~~~d)

/-- `HH(B, C, D)` (R165). -/
def hh (b c d : Word) : Word := b ^^^ c ^^^ d

/-- `II(B, C, D)` (R166). -/
def ii (b c d : Word) : Word := c ^^^ (b ||| ~~~d)

/-- `step(i, X)` with its round function given (R170). All four registers are written together. -/
def stepWith (f : Word → Word → Word → Word) (n : BitVec 6) (x : Vector Word 16) (h : Hash) : Hash :=
  let tmp := h.a + f h.b h.c h.d + wordAt x (kOf n) + tOf n
  ⟨h.d, h.b + rotl32 tmp (sOf n), h.b, h.c⟩

/-- The function of the round a step belongs to (R101, R162). -/
def roundFn (n : BitVec 6) : Word → Word → Word → Word :=
  match decodeSeq n with
  | .stepFf _ => ff
  | .stepGg _ => gg
  | .stepHh _ => hh
  | _ => ii

/-- `step(i, X)` (R170). -/
def stepHash (n : BitVec 6) (x : Vector Word 16) (h : Hash) : Hash := stepWith (roundFn n) n x h

/-- The fold: add the saved registers back (R171). -/
def addHash (h saved : Hash) : Hash := ⟨h.a + saved.a, h.b + saved.b, h.c + saved.c, h.d + saved.d⟩

/-- The first `n` steps of a block, in order. -/
def stepsFrom0 : Nat → Vector Word 16 → Hash → Hash
  | 0, _, h => h
  | n + 1, x, h => stepHash (BitVec.ofNat 6 n) x (stepsFrom0 n x h)

/-- The chaining value after one block (R171). It is irreducible so that no proof unfolds 64 steps by accident. -/
@[irreducible] def compressHash (x : Vector Word 16) (h : Hash) : Hash := addHash (stepsFrom0 64 x h) h

/-- Write A..D and AA..DD. -/
def setHash (h saved : Hash) (s : State) : State := { s with hash := h, saved := saved }

/-- The sixteen words a compression reads (R171): W or one of the pad blocks made from KBUF (R202, R205). -/
def blockWords (src : BlockSrc) (s : State) : Vector Word 16 :=
  match src with
  | .w => s.w
  | .key => packBlock s.kbuf
  | .ipad => packBlock (xorEach s.kbuf 0x36)
  | .opad => packBlock (xorEach s.kbuf 0x5C)

/-- `compress(X)` in one event (R171, R172): AA..DD hold the copies, A..D the new chaining value. What AA..DD hold
between commands is open (U20; DESIGN CHOICE, unsafe, log entry 8). -/
def compress (src : BlockSrc) (s : State) : State := setHash (compressHash (blockWords src s) s.hash) s.hash s

/-! ## The micro-steps of the sequencer -/

/-- Write the sequencer. -/
def setSeq (q : Seq) (s : State) : State := { s with seq := q }

/-- Micro-step `n` of a compression in progress (R172) with the round's function given: the save happens with
micro-step 0, STEP advances and wraps from 63 to 0 (R40), and after step 63 only the fold is left. -/
def microStep (f : Word → Word → Word → Word) (n : BitVec 6) (s : State) : State :=
  setSeq { s.seq with step := n + 1, block := if n = 63 then .fold else .step }
    (setHash (stepWith f n (blockWords s.seq.src s) s.hash) (if n = 0 then s.hash else s.saved) s)

/-- Micro-step 64, the fold (R172): it leaves STEP at 0 and ends the compression. -/
def microFold (s : State) : State :=
  setSeq { s.seq with step := 0, block := .idle } (setHash (addHash s.hash s.saved) s.saved s)

/-! ## The block buffer -/

/-- `(A, B, C, D) <- IV` (R161). -/
def loadIv (s : State) : State := { s with hash := Hash.iv }

/-- Write W and BCNT. -/
def setBlock (w : Vector Word 16) (n : BitVec 7) (s : State) : State := { s with w := w, bcnt := n }

/-- `W[0..15] <- 0; BCNT <- 0` (R143). -/
def clearBlock (s : State) : State := setBlock (Vector.replicate 16 0) 0 s

/-- `MLEN <- v`. -/
def setMlen (v : BitVec 64) (s : State) : State := { s with mlen := v }

/-- OR a byte into W at byte position BCNT and count it: the common part of R142 and R175. -/
def putByte (b : Byte) (s : State) : State :=
  let i := s.bcnt.toNat / 4
  let q := s.bcnt.toNat % 4
  setBlock (s.w.setIfInBounds i (wordAt s.w i ||| (b.setWidth 32 <<< (8 * q)))) (s.bcnt + 1) s

/-- `md5_append(b)` (R142). -/
def md5Append (b : Byte) (s : State) : State :=
  let t := setMlen (s.mlen + 8) (putByte b s)
  if t.bcnt = 64 then clearBlock (compress .w t) else t

/-- Append bytes in order. -/
def md5AppendAll (bs : List Byte) (s : State) : State := bs.foldl (fun t b => md5Append b t) s

/-- The digest in A..D, `bytes_le(A) ‖ bytes_le(B) ‖ bytes_le(C) ‖ bytes_le(D)` (R176). -/
def Hash.bytes (h : Hash) : List Byte := bytesLe h.a ++ bytesLe h.b ++ bytesLe h.c ++ bytesLe h.d

/-- Write the 64-bit length field to words 14 and 15, low word first (R69, R175). -/
def putLength (l : BitVec 64) (s : State) : State :=
  setBlock ((s.w.setIfInBounds 14 (l.setWidth 32)).setIfInBounds 15 ((l >>> 32).setWidth 32)) s.bcnt s

/-- The part of `finalize(L)` before the last block: the 1 bit, and one more block when the length field does not fit
(R175). -/
def padBlock (s : State) : State :=
  let t := putByte 0x80 s
  if t.bcnt.toNat > 56 then clearBlock (compress .w t) else t

/-- The part of `finalize(L)` up to the last compression (R175). A..D then hold the digest. -/
def lastBlock (l : BitVec 64) (s : State) : State := compress .w (putLength l (padBlock s))

/-- `finalize(L)` (R175): the digest and the state it leaves. -/
def finalize (l : BitVec 64) (s : State) : List Byte × State :=
  let t := lastBlock l s
  (t.hash.bytes, clearBlock t)

/-- `DIGEST[0..15] <- d; STATUS.DVALID <- 1`. -/
def setDigest (d : Vector Byte 16) (s : State) : State :=
  { s with digest := d, status := { s.status with dvalid := true } }

/-- `STATUS.MODE <- m`. -/
def setMode (m : Mode) (s : State) : State := { s with status := { s.status with mode := m } }

/-- Write KBUF. -/
def setKbuf (k : Vector Byte 64) (s : State) : State := { s with kbuf := k }

/-- `KBUF[0..63] <- 0`. -/
def clearKbuf (s : State) : State := setKbuf (Vector.replicate 64 0) s

/-- `STATUS.KHASH <- b`. -/
def setKhash (b : Bool) (s : State) : State := { s with status := { s.status with khash := b } }

/-- What a session starts from: the initial constants, an empty block, MLEN 0, an empty key buffer, KHASH 0 (R177, R179,
R203). -/
def startSession (s : State) : State :=
  setKhash false (clearKbuf (setMlen 0 (clearBlock (loadIv s))))

end Sys2Proof.Machine
end

