-- ==== Sys2Proof/Machine/Md5.lean ====
section
/-!
DEFINITION. The commands of the MD5 engine: MD5_INIT, MD5_FINAL and SELFTEST (42_md5_engine.md R177 to R179).
-/

namespace Sys2Proof.Machine

/-- The effect of MD5_INIT (R177). -/
def md5Init (s : State) : State := setMode .md5 (startSession s)

/-- MD5_INIT (R177). -/
def execMd5Init (s : State) : Result := engineCommand .md5Init md5Init s

/-- The effect of MD5_FINAL (R178). -/
def md5Final (s : State) : State :=
  let (d, t) := finalize s.mlen s
  setMode .none (setDigest (toBytes 16 d) t)

/-- MD5_FINAL (R178). -/
def execMd5Final (s : State) : Result := engineCommand .md5Final md5Final s

/-- The bytes of "abc" that SELFTEST appends (R179). -/
def selftestMessage : List Byte := [0x61, 0x62, 0x63]

/-- `STATUS.ST_DONE <- 1; STATUS.ST_PASS <- b` (R179). -/
def setSelftest (b : Bool) (s : State) : State :=
  { s with status := { s.status with stDone := true, stPass := b } }

/-- The effect of SELFTEST (R179). MODE stays NONE. -/
def selftest (s : State) : State :=
  let u := md5AppendAll selftestMessage (startSession s)
  let (d, t) := finalize u.mlen u
  let v := setDigest (toBytes 16 d) t
  setSelftest (d == selftestDigest) v

/-- SELFTEST (R179). -/
def execSelftest (s : State) : Result := engineCommand .selftest selftest s

end Sys2Proof.Machine
end

