-- ==== Sys2Proof/Machine/Hmac.lean ====
section
/-!
DEFINITION. The HMAC sequencer: the key path of PUSH, and HMAC_KEY_INIT, HMAC_START and HMAC_FINAL (43_hmac.md R203 to
R208).
-/

namespace Sys2Proof.Machine

/-- `key_hash_start()` (R205). -/
def keyHashStart (s : State) : State := clearBlock (compress .key (loadIv (setKhash true s)))

/-- `KBUF[MLEN div 8] <- b; MLEN <- MLEN + 8` (R204). -/
def keyStore (b : Byte) (s : State) : State :=
  setMlen (s.mlen + 8) (setKbuf (s.kbuf.setIfInBounds (s.mlen.toNat / 8) b) s)

/-- `key_append(b)` (R204). -/
def keyAppend (b : Byte) (s : State) : State :=
  if s.status.khash = false ∧ s.mlen.toNat < 512 then keyStore b s
  else if s.status.khash = false then md5Append b (keyHashStart s)
  else md5Append b s

/-- The effect of HMAC_KEY_INIT (R203). -/
def hmacKeyInit (s : State) : State := setMode .key (startSession s)

/-- HMAC_KEY_INIT (R203). -/
def execHmacKeyInit (s : State) : Result := engineCommand .hmacKeyInit hmacKeyInit s

/-- The first part of HMAC_START: a key longer than 64 bytes is replaced by its digest, `KBUF[0..15] <- d;
KBUF[16..63] <- 0`, and then KBUF is the padded key (R206). -/
def normaliseKey (s : State) : State :=
  if s.status.khash then
    let (d, t) := finalize s.mlen s
    setKbuf (toBytes 64 d) t
  else s

/-- The effect of HMAC_START (R206). -/
def hmacStart (s : State) : State :=
  setMode .hmsg (setKhash false (setMlen 512 (clearBlock (compress .ipad (loadIv (normaliseKey s))))))

/-- HMAC_START (R206). -/
def execHmacStart (s : State) : Result := engineCommand .hmacStart hmacStart s

/-- The effect of HMAC_FINAL (R208). -/
def hmacFinal (s : State) : State :=
  let (inner, t) := finalize s.mlen s
  let u := md5AppendAll inner (setMlen 512 (clearBlock (compress .opad (loadIv t))))
  let (d, v) := finalize u.mlen u
  setMode .none (clearKbuf (setDigest (toBytes 16 d) v))

/-- HMAC_FINAL (R208). -/
def execHmacFinal (s : State) : Result := engineCommand .hmacFinal hmacFinal s

end Sys2Proof.Machine
end

