-- ==== Sys2Proof/Machine/Packer.lean ====
section
/-!
DEFINITION. The Word Packer's command PUSH (41_word_packer.md R144 to R147).
-/

namespace Sys2Proof.Machine

/-- Where one pushed byte goes (R144): to the key in MODE KEY, else to the message block buffer. -/
def pushByte (b : Byte) (s : State) : State :=
  match s.status.mode with
  | .key => keyAppend b s
  | .none | .md5 | .hmsg => md5Append b s

/-- Push bytes in order. -/
def pushAll (bs : List Byte) (s : State) : State := bs.foldl (fun t b => pushByte b t) s

/-- The effect of PUSH n (R144): the first `n` bytes of DATA_IN in lane order. DATA_IN has four lanes, and acceptance
admits 1 to 4 only (DESIGN CHOICE for other counts, safe, log entry 17). -/
def push (n : Byte) (s : State) : State := pushAll ((bytesLe s.dataIn).take n.toNat) s

/-- PUSH (R144). -/
def execPush (n : Byte) (s : State) : Result := engineCommand (.push n) (push n) s

end Sys2Proof.Machine
end

