-- ==== Sys2Proof/Machine/Sequencer.lean ====
section
/-!
DEFINITION. The four kinds of step the sequencer decodes from STEP (30_encoding.md R101, 42_md5_engine.md R163 to R172).
-/

namespace Sys2Proof.Machine

/-- A step of round 1 (R163, R170). -/
def execStepFf (n : BitVec 6) (s : State) : Result := .next (microStep ff n s)

/-- A step of round 2 (R164, R170). -/
def execStepGg (n : BitVec 6) (s : State) : Result := .next (microStep gg n s)

/-- A step of round 3 (R165, R170). -/
def execStepHh (n : BitVec 6) (s : State) : Result := .next (microStep hh n s)

/-- A step of round 4 (R166, R170). -/
def execStepIi (n : BitVec 6) (s : State) : Result := .next (microStep ii n s)

end Sys2Proof.Machine
end

