-- ==== Sys2Proof/Machine/Dispatch.lean ====
section
/-! DEFINITION. Which meaning each instruction has, one arm for each constructor of Instr. -/

namespace Sys2Proof.Machine

def exec (i : Instr) (s : State) : Host.Outcome State Fault Refusal :=
  match i with
  | .nop => Sys2Proof.Machine.execNop s
  | .md5Init => Sys2Proof.Machine.execMd5Init s
  | .push n => Sys2Proof.Machine.execPush n s
  | .md5Final => Sys2Proof.Machine.execMd5Final s
  | .hmacKeyInit => Sys2Proof.Machine.execHmacKeyInit s
  | .hmacStart => Sys2Proof.Machine.execHmacStart s
  | .hmacFinal => Sys2Proof.Machine.execHmacFinal s
  | .encHex => Sys2Proof.Machine.execEncHex s
  | .encB64 => Sys2Proof.Machine.execEncB64 s
  | .encRadix => Sys2Proof.Machine.execEncRadix s
  | .selftest => Sys2Proof.Machine.execSelftest s
  | .ack => Sys2Proof.Machine.execAck s
  | .softReset => Sys2Proof.Machine.execSoftReset s
  | .stepFf n => Sys2Proof.Machine.execStepFf n s
  | .stepGg n => Sys2Proof.Machine.execStepGg n s
  | .stepHh n => Sys2Proof.Machine.execStepHh n s
  | .stepIi n => Sys2Proof.Machine.execStepIi n s

end Sys2Proof.Machine
end

