-- ==== Sys2Proof/Machine/Turns.lean ====
section
/-!
DEFINITION. What one event does: a host access (20_memory.md R63, R64, 40_command_control.md R120), a turn of the engine
(R124 to R126), or a change of `rst` (70_reset_and_hazards.md R310, R311).
-/

namespace Sys2Proof.Machine

/-- A host write to CMD (R120, R122). A word that is no command is BAD_OP, or BUSY while a command runs. -/
def writeCmd (v : Word) (s : State) : Result :=
  match decode (.cmd v) with
  | .ok i => exec i { s with turn := .host }
  | .error _ => .next (reject (if s.status.busy then .busy else .badOp) s)

/-- A host write at an offset of the window (R62, R64). -/
def busWrite (off : BitVec 12) (v : Word) (s : State) : Result :=
  match regAt off with
  | none => .next (recordError .badAddr s)
  | some .cmd => writeCmd v s
  | some r => .next (writeReg r v s)

/-- The completion of the command latched in PCMD (R126). -/
def completeCmd (s : State) : Result :=
  match decode (.cmd s.seq.pcmd) with
  | .ok i => if i.isEngine then exec i { s with turn := .engine } else .fault .pcmdNotACommand
  | .error _ => .fault .pcmdNotACommand

/-- A turn of the engine. It does nothing while IDLE (R297, R323). Inside a block compression it takes one micro-step
(R172), the step that STEP decodes to (R101) or the fold. Else it completes the running command (R125). -/
def engineTurn (s : State) : Result :=
  match s.seq.phase with
  | .idle => .next s
  | .run =>
    match s.seq.block with
    | .step => exec (decodeSeq s.seq.step) { s with turn := .engine }
    | .fold => .next (microFold s)
    | .idle => completeCmd s

/-- A host read while `rst` is asserted, or before, returns an unspecified value (R310, R311). DESIGN CHOICE, safe, log
entry 5. -/
def readInReset (s : State) : State :=
  { s with rdata := Config.rstReadData s.freeCount, freeCount := s.freeCount + 1 }

/-- An event between power-up and the first assertion of `rst` (R310): "no rule of this spec applies", so whatever happens
leaves MDE in any state. The first assertion ends this. DESIGN CHOICE, safe, log entry 6. -/
def eventAtPowerUp (e : Event) (s : State) : Result :=
  match e with
  | .read _ => .next (readInReset (unspecified s))
  | .write _ _ => .next (unspecified s)
  | .engine => .next (unspecified s)
  | .rstAssert => .next (hwReset { s with rst := .asserted })
  | .rstRelease => .next (unspecified s)

/-- An event while `rst` is asserted (R311): accesses are ignored and the engine does nothing. -/
def eventInReset (e : Event) (s : State) : Result :=
  match e with
  | .read _ => .next (readInReset s)
  | .write _ _ => .next s
  | .engine => .next s
  | .rstAssert => .next (hwReset s)
  | .rstRelease => .next { s with rst := .released }

/-- An event after `rst` has been asserted and released. -/
def eventLive (e : Event) (s : State) : Result :=
  match e with
  | .read off => .next (busRead off s)
  | .write off v => busWrite off v s
  | .engine => engineTurn s
  | .rstAssert => .next (hwReset { s with rst := .asserted })
  | .rstRelease => .next s

/-- One event. -/
def event (e : Event) (s : State) : Result :=
  match s.rst with
  | .powerUp => eventAtPowerUp e s
  | .asserted => eventInReset e s
  | .released => eventLive e s

/-- The next event in the single order of R75. With no input left it is the engine's turn: every accepted command
completes (R124) and an idle engine does nothing (R323). DESIGN CHOICE, safe, log entry 2. -/
def nextEvent (s : State) : Result :=
  match s.inbox with
  | [] => event .engine s
  | e :: rest => event e { s with inbox := rest }

/-- `s` with an encoded instruction placed where the next step finds it: a command word as the next host write to CMD, a
step number as the STEP of a compression in progress (log entries 2 and 3). -/
def place (e : Encoded) (s : State) : State :=
  match e with
  | .cmd w => { s with rst := .released, inbox := .write 0x004 w :: s.inbox }
  | .seq n =>
    { s with
      rst := .released
      inbox := .engine :: s.inbox
      status := { s.status with busy := true }
      seq := { s.seq with phase := .run, step := n, block := .step } }

end Sys2Proof.Machine
end

