-- ==== Sys2Proof/Machine/Step.lean ====
section
/-! DEFINITION. One step of the machine: its next event (20_memory.md R75). -/

namespace Sys2Proof.Machine

/-- One step. -/
def step (s : State) : Host.Outcome State Fault Refusal := nextEvent s

/-- `s` with the instruction whose bits are `w` placed where the next step finds it. A row of at most 8 bits is a step
number, a longer one a command word. -/
def State.withFetchWord (s : State) (nbits w : Nat) : State :=
  if nbits ≤ 8 then place (.seq (BitVec.ofNat 6 w)) s else place (.cmd (BitVec.ofNat 32 w)) s

end Sys2Proof.Machine
end

