-- ==== Sys2Proof/Machine/Reference.lean ====
section
/-!
DEFINITION. The pure functions the spec gives beside the hardware path: packing (41_word_packer.md R140, R141), padding
and MD5 of a byte sequence (42_md5_engine.md R173, R174), HMAC (43_hmac.md R200, R201), and the value of a digest and
its base-r digits (44_encoder.md R243). No command calls them: statements compare the hardware path with them.
-/

namespace Sys2Proof.Machine

/-- `pack(m)` (R140). -/
def pack (m : List Byte) : List Word :=
  (List.range ((m.length + 3) / 4)).map fun i =>
    wordLe (m.getD (4 * i) 0) (m.getD (4 * i + 1) 0) (m.getD (4 * i + 2) 0) (m.getD (4 * i + 3) 0)

/-- `unpack(P)` (R141). -/
def unpack (p : List Word) : List Byte := p.flatMap bytesLe

/-- The sixteen words of a word sequence, zero words beyond its end. -/
def toBlock (p : List Word) : Vector Word 16 := Vector.ofFn fun i => p.getD i.val 0

/-- `bytes_le(L[31:0]) ‖ bytes_le(L[63:32])`, the length field (R173). -/
def lengthBytes (l : BitVec 64) : List Byte := bytesLe (l.setWidth 32) ++ bytesLe ((l >>> 32).setWidth 32)

/-- The least z with (n + 1 + z) mod 64 = 56 (R173). -/
def padZeros (n : Nat) : Nat := (119 - n % 64) % 64

/-- `Pad(m, L)` (R173). -/
def pad (m : List Byte) (l : BitVec 64) : List Byte :=
  m ++ [0x80] ++ List.replicate (padZeros m.length) 0 ++ lengthBytes l

/-- Compress the first `n` blocks of a byte sequence, in order. -/
def chainBlocks : Nat → List Byte → Hash → Hash
  | 0, _, h => h
  | n + 1, p, h => chainBlocks n (p.drop 64) (compressHash (toBlock (pack (p.take 64))) h)

/-- The registers after `Chain(H0, p)` (R174). -/
def chain (h : Hash) (p : List Byte) : Hash := chainBlocks (p.length / 64) p h

/-- The bit length of a byte sequence as the 64-bit length field. -/
def bitLength (m : List Byte) : BitVec 64 := BitVec.ofNat 64 (8 * m.length)

/-- `MD5(m)` (R174). -/
def md5 (m : List Byte) : List Byte := (chain Hash.iv (pad m (bitLength m))).bytes

/-- `Kpad(key)` (R201). -/
def kpad (key : List Byte) : List Byte :=
  let k := if key.length > 64 then md5 key else key
  k ++ List.replicate (64 - k.length) 0

/-- `HMAC(key, msg)` (R200). -/
def hmac (key msg : List Byte) : List Byte :=
  let k := kpad key
  md5 (k.map (· ^^^ 0x5C) ++ md5 (k.map (· ^^^ 0x36) ++ msg))

/-- The big-endian number a byte sequence stands for (R243). -/
def bigEndian (d : List Byte) : Nat := d.foldl (fun v b => 256 * v + b.toNat) 0

/-- Digit `p` of the `l`-digit base-`r` representation of `n`, most significant digit first (R243). -/
def radixDigit (r l n p : Nat) : Nat := n / r ^ (l - 1 - p) % r

end Sys2Proof.Machine
end

