-- ==== Sys2Proof/Machine/HostSide.lean ====
section
/-!
DEFINITION. The host's side, which is not hardware (49_host_side.md; DESIGN CHOICE, safe, log entry 12): the Text
Normalizer (R260 to R265), the events of a session (the digest parts of R266 and R267), and the hex decoder (R270). The
entry points themselves are in Machine/EntryPoints.lean.
-/

namespace Sys2Proof.Machine

/-! ## Text Normalizer -/

/-- The last 6-bit group of a code point shifted right by `k`, as a continuation byte (R262). -/
def utf8Tail (x k : Nat) : Byte := BitVec.ofNat 8 (0x80 + x / 2 ^ k % 64)

/-- `utf8(x)` (R262). -/
def utf8 (x : Nat) : List Byte :=
  if x ≤ 0x7F then [BitVec.ofNat 8 x]
  else if x ≤ 0x7FF then [BitVec.ofNat 8 (0xC0 + x / 2 ^ 6), utf8Tail x 0]
  else if x ≤ 0xFFFF then [BitVec.ofNat 8 (0xE0 + x / 2 ^ 12), utf8Tail x 6, utf8Tail x 0]
  else [BitVec.ofNat 8 (0xF0 + x / 2 ^ 18), utf8Tail x 12, utf8Tail x 6, utf8Tail x 0]

/-- A unit of the high-surrogate range (R261). -/
def isHighSurrogate (x : Nat) : Bool := 0xD800 ≤ x && x ≤ 0xDBFF

/-- A unit of the low-surrogate range (R261). -/
def isLowSurrogate (x : Nat) : Bool := 0xDC00 ≤ x && x ≤ 0xDFFF

/-- The code point of a surrogate pair (R261). -/
def pairPoint (hi lo : Nat) : Nat := 0x10000 + (hi - 0xD800) * 2 ^ 10 + (lo - 0xDC00)

/-- `normalize(u)` (R260, R261). An unpaired surrogate is its own code point (R263). -/
def normalize : List (BitVec 16) → List Byte
  | [] => []
  | [x] => utf8 x.toNat
  | x :: y :: rest =>
    if isHighSurrogate x.toNat && isLowSurrogate y.toNat then utf8 (pairPoint x.toNat y.toNat) ++ normalize rest
    else utf8 x.toNat ++ normalize (y :: rest)

/-! ## Sessions as event sequences -/

/-- A host write to a register. -/
def writeTo (r : Reg) (v : Word) : Event := .write (BitVec.ofNat 12 r.offset) v

/-- A host read of a register. -/
def readFrom (r : Reg) : Event := .read (BitVec.ofNat 12 r.offset)

/-- A command and the `WAIT` after it (R100): the poll sees BUSY = 0 once the engine has had its turn. -/
def command (i : Instr) : List Event := [writeTo .cmd (cmdWord i), .engine]

/-- DATA_IN for a group of up to four bytes: absent bytes are 0 (R100, R266). -/
def dataWord (g : List Byte) : Word := wordLe (g.getD 0 0) (g.getD 1 0) (g.getD 2 0) (g.getD 3 0)

/-- Push one group of bytes (R266). -/
def pushGroup (g : List Byte) : List Event :=
  writeTo .dataIn (dataWord g) :: command (.push (BitVec.ofNat 8 g.length))

/-- Push groups of bytes in order. "The split of m into groups is free" (R266). -/
def pushGroups (gs : List (List Byte)) : List Event := gs.flatMap pushGroup

/-- Cut a byte sequence into groups of four bytes, the rest last. R266 leaves the split free; this one is the choice of the
model's host (DESIGN CHOICE, safe, log entry 24). -/
def groupsOf4 (m : List Byte) : List (List Byte) :=
  (List.range ((m.length + 3) / 4)).map fun i => (m.drop (4 * i)).take 4

/-- The digest part of R266: MD5_INIT, the pushes, MD5_FINAL. -/
def md5Session (gs : List (List Byte)) : List Event :=
  command .md5Init ++ pushGroups gs ++ command .md5Final

/-- The digest part of R267: the key pushes, HMAC_START, the message pushes, HMAC_FINAL. -/
def hmacSession (ks ms : List (List Byte)) : List Event :=
  command .hmacKeyInit ++ pushGroups ks ++ command .hmacStart ++ pushGroups ms ++ command .hmacFinal

/-! ## Hex decode -/

/-- The value of a hex digit, either case: the inverse of `hexChar` (R270). Another symbol has none. -/
def hexValue (c : Byte) : Option Nat :=
  let v := c.toNat
  if 0x30 ≤ v ∧ v ≤ 0x39 then some (v - 0x30)
  else if 0x61 ≤ v ∧ v ≤ 0x66 then some (v - 0x61 + 10)
  else if 0x41 ≤ v ∧ v ≤ 0x46 then some (v - 0x41 + 10)
  else none

/-- Decode pairs of hex symbols to bytes (R270): `none` for another symbol or an odd count. -/
def hexDecode : List Byte → Option (List Byte)
  | [] => some []
  | [_] => none
  | x :: y :: rest =>
    match hexValue x, hexValue y, hexDecode rest with
    | some hi, some lo, some tail => some (BitVec.ofNat 8 (16 * hi + lo) :: tail)
    | _, _, _ => none

end Sys2Proof.Machine
end

