-- ==== Sys2Proof/Machine/HostProgram.lean ====
section
/-!
DEFINITION. Host programs (30_encoding.md R99, R100): their statements, the expansions of the pseudo-instructions, and
how a host running one drives MDE. "Host variables and branches are host state, not MDE state."
-/

namespace Sys2Proof.Machine

/-- A statement of R99. A label is the index of the statement it names. -/
inductive HostStmt where
  | wr (r : Reg) (v : Word)
  | rd (r : Reg) (t : Nat)
  | bbs (t bit label : Nat)
  | bbc (t bit label : Nat)
  | halt
deriving DecidableEq, Repr

/-- A program line: a statement or a pseudo-instruction of R100. -/
inductive HostLine where
  | stmt (x : HostStmt)
  /-- `NOP`, `MD5_INIT`, ..., `PUSH n`: `WR CMD, <word>`. -/
  | cmd (i : Instr)
  | wait
  | pushb (g : List Byte)
  | check (fail : Nat)
  | cmdw (i : Instr)
deriving DecidableEq, Repr

/-- The host variable that the expansions of R100 call `t`. -/
def pollVar : Nat := 0

/-- `WAIT` at statement index `at_`: poll until BUSY = 0 (R100). -/
def expandWait (at_ : Nat) : List HostStmt := [.rd .status pollVar, .bbs pollVar 0 at_]

/-- The expansion of one line that starts at statement index `at_` (R100). -/
def HostLine.expand (at_ : Nat) : HostLine → List HostStmt
  | .stmt x => [x]
  | .cmd i => [.wr .cmd (cmdWord i)]
  | .wait => expandWait at_
  | .pushb g =>
    expandWait at_ ++ [.wr .dataIn (dataWord g), .wr .cmd (cmdWord (.push (BitVec.ofNat 8 g.length)))]
  | .check fail => [.rd .status pollVar, .bbs pollVar 2 fail]
  | .cmdw i => expandWait at_ ++ [.wr .cmd (cmdWord i)]

/-- Expand a program that starts at statement index `at_`. -/
def assemble (at_ : Nat) : List HostLine → List HostStmt
  | [] => []
  | x :: rest => x.expand at_ ++ assemble (at_ + (x.expand at_).length) rest

/-- The host's own state: the next statement, its variables (unset ones read 0), and whether it has ended. -/
structure HostState where
  pc : Nat
  vars : List (Nat × Word)
  halted : Bool
deriving DecidableEq, Repr

/-- A host at the start of a program. -/
def HostState.start : HostState := ⟨0, [], false⟩

/-- A host variable. -/
def HostState.var (h : HostState) (t : Nat) : Word := (h.vars.lookup t).getD 0

/-- A host branch (R99). -/
def HostState.branch (h : HostState) (taken : Bool) (label : Nat) : HostState :=
  { h with pc := if taken then label else h.pc + 1 }

/-- MDE takes the given event as its next one. -/
def stepOn (e : Event) (s : State) : Result := step { s with inbox := e :: s.inbox }

/-- The host after a read has answered `s`. -/
def HostState.gotRead (h : HostState) (t : Nat) (s : State) : HostState :=
  { h with pc := h.pc + 1, vars := (t, s.rdata) :: h.vars }

/-- One statement of the host (R99). A program that runs off its end has ended. -/
def hostTurn (prog : List HostStmt) (h : HostState) (s : State) : Host.Outcome (HostState × State) Fault Refusal :=
  if h.halted then .next (h, s)
  else
    match prog[h.pc]? with
    | none => .next ({ h with halted := true }, s)
    | some .halt => .next ({ h with halted := true }, s)
    | some (.bbs t bit label) => .next (h.branch ((h.var t).getLsbD bit) label, s)
    | some (.bbc t bit label) => .next (h.branch (!(h.var t).getLsbD bit) label, s)
    | some (.wr r v) =>
      match stepOn (writeTo r v) s with
      | .next s' => .next ({ h with pc := h.pc + 1 }, s')
      | .fault f => .fault f
      | .refused x => .refused x
    | some (.rd r t) =>
      match stepOn (readFrom r) s with
      | .next s' => .next (h.gotRead t s', s')
      | .fault f => .fault f
      | .refused x => .refused x

/-- Host and engine interleaved in one order (R75): the schedule says whose turn each event is. -/
def runHost (prog : List HostStmt) : List Turn → HostState → State → Host.Outcome (HostState × State) Fault Refusal
  | [], h, s => .next (h, s)
  | .host :: rest, h, s =>
    match hostTurn prog h s with
    | .next (h', s') => runHost prog rest h' s'
    | .fault f => .fault f
    | .refused x => .refused x
  | .engine :: rest, h, s =>
    match stepOn .engine s with
    | .next s' => runHost prog rest h s'
    | .fault f => .fault f
    | .refused x => .refused x

end Sys2Proof.Machine
end

