-- ==== Sys2Proof/Machine/EntryPoints.lean ====
section
/-!
DEFINITION. The entry points of the host side (49_host_side.md R266 to R268) as the host runs them: every access, poll,
check and read, and the value each returns. Not hardware (DESIGN CHOICE, safe, log entry 12).
-/

namespace Sys2Proof.Machine

/-! ## The host at work -/

/-- Why an entry point returns no value. -/
inductive HostFailure where
  /-- A step of MDE gave no next state. Safe: out of reset no state of the invariant does this. -/
  | stopped
  /-- A WAIT still reads BUSY = 1 after the engine has had every turn it can need. Safe: out of reset no state of the
  invariant does this. -/
  | stillBusy
  /-- CHECK read STATUS.ERR = 1: the host goes to its label `fail`, where it acknowledges the error (R100, R269). `mde`
  is MDE after that ACK. -/
  | errorFlag (mde : State)
deriving DecidableEq, Repr

/-- MDE, and the interleaving that is left open (R124): for each WAIT to come, how many polls the host makes before the
engine's next turn. A WAIT beyond the list makes none. -/
structure HostEnv where
  mde : State
  polls : List Nat
deriving DecidableEq, Repr

/-- What a host procedure gives. -/
abbrev HostResult (α : Type) := Except HostFailure α

/-- MDE takes one event. -/
def HostEnv.access (e : Event) (h : HostEnv) : HostResult HostEnv :=
  match stepOn e h.mde with
  | .next t => .ok { h with mde := t }
  | .fault _ => .error .stopped
  | .refused _ => .error .stopped

/-- `WR r, v` (R99). -/
def HostEnv.write (r : Reg) (v : Word) (h : HostEnv) : HostResult HostEnv := h.access (writeTo r v)

/-- `RD r` (R99) and the value read. -/
def HostEnv.read (r : Reg) (h : HostEnv) : HostResult (Word × HostEnv) := do
  let g ← h.access (readFrom r)
  pure (g.mde.rdata, g)

/-! ## WAIT and CHECK -/

/-- Up to `n` polls with no turn of the engine between, and whether one read BUSY = 0. -/
def HostEnv.poll : Nat → HostEnv → HostResult (Bool × HostEnv)
  | 0, h => .ok (false, h)
  | n + 1, h => do
    let (t, g) ← h.read .status
    if t.getLsbD 0 then g.poll n else pure (true, g)

/-- A turn of the engine and a poll, until a poll reads BUSY = 0. -/
def HostEnv.waitTurns : Nat → HostEnv → HostResult HostEnv
  | 0, _ => .error .stillBusy
  | n + 1, h => do
    let g ← h.access .engine
    let (t, k) ← g.read .status
    if t.getLsbD 0 then k.waitTurns n else pure k

/-- The most turns an engine needs to come to rest: 64 steps and the fold of a compression in progress, and the
completion (R172, R126). -/
def turnsToRest : Nat := 66

/-- `WAIT` (R100): poll until BUSY = 0. -/
def HostEnv.wait (h : HostEnv) : HostResult HostEnv := do
  let (idle, g) ← HostEnv.poll (h.polls.headD 0) { h with polls := h.polls.tail }
  if idle then pure g else g.waitTurns turnsToRest

/-- The host has read `t` from STATUS: with ERR = 1 the sequence has failed, and the host acknowledges (R269). -/
def HostEnv.failIfErr (t : Word) (h : HostEnv) : HostResult HostEnv :=
  if t.getLsbD 2 then do
    let g ← h.write .cmd (cmdWord .ack)
    .error (.errorFlag g.mde)
  else pure h

/-- `CHECK` (R100), and at the label `fail` the ACK of R269. -/
def HostEnv.check (h : HostEnv) : HostResult HostEnv := do
  let (t, g) ← h.read .status
  g.failIfErr t

/-- A command and the WAIT after it. -/
def HostEnv.command (i : Instr) (h : HostEnv) : HostResult HostEnv := do
  let g ← h.write .cmd (cmdWord i)
  g.wait

/-! ## The parts of R266 -/

/-- Push one group of up to four bytes: `WR DATA_IN, word_le(g, zero-filled); PUSH |g|; WAIT`. -/
def HostEnv.pushGroup (g : List Byte) (h : HostEnv) : HostResult HostEnv := do
  let k ← h.write .dataIn (dataWord g)
  k.command (.push (BitVec.ofNat 8 g.length))

/-- Push a byte sequence in groups (R266). The groups of `groupsOf4` are the choice of the model's host (DESIGN CHOICE, safe,
log entry 24). -/
def HostEnv.pushBytes (m : List Byte) (h : HostEnv) : HostResult HostEnv :=
  (groupsOf4 m).foldlM (fun k g => k.pushGroup g) h

/-- The digest part of R266: WAIT, MD5_INIT, the pushes, MD5_FINAL. -/
def HostEnv.md5Digest (text : List (BitVec 16)) (h : HostEnv) : HostResult HostEnv := do
  let a ← h.wait
  let b ← a.command .md5Init
  let c ← b.pushBytes (normalize text)
  c.command .md5Final

/-- `WR CONFIG, (CONFIG & ~mask) | v`: the fields under `mask` take `v` and the others stay. -/
def HostEnv.mergeConfig (mask v : Word) (h : HostEnv) : HostResult HostEnv := do
  let (c, g) ← h.read .config
  g.write .config ((c &&& ~~~mask) ||| v)

/-- The words of an alphabet: symbol `v` in lane `v mod 4` of ALPHA`(v div 4)` (R266). The lanes beyond the end of the
last word are 0, which R266 leaves open (DESIGN CHOICE, unsafe, log entry 22). Only the 64 words of the RAM are
written. -/
def alphabetWords (alphabet : List Byte) : List Word := ((groupsOf4 alphabet).take 64).map dataWord

/-- Write ALPHA_LEN and the alphabet (R266). -/
def HostEnv.writeAlphabet (alphabet : List Byte) (h : HostEnv) : HostResult HostEnv := do
  let g ← h.write .alphaLen (BitVec.ofNat 32 alphabet.length)
  (alphabetWords alphabet).zipIdx.foldlM (fun k w => k.write (.alpha (Fin.ofNat 64 w.2)) w.1) g

/-- Read the first `n` symbols of OUT, four a word in lane order. -/
def HostEnv.readOut (n : Nat) (h : HostEnv) : HostResult (List Byte × HostEnv) := do
  let (bs, g) ← (List.range ((n + 3) / 4)).foldlM
    (fun (x : List Byte × HostEnv) j => do
      let (w, k) ← x.2.read (.out (Fin.ofNat 32 j))
      pure (x.1 ++ bytesLe w, k)) ([], h)
  pure (bs.take n, g)

/-- Read OUT_LEN and that many symbols. -/
def HostEnv.readSymbols (h : HostEnv) : HostResult (List Byte × HostEnv) := do
  let (n, g) ← h.read .outLen
  g.readOut n.toNat

/-- ENC_HEX, WAIT, CHECK, and the reads of OUT0..OUT7. -/
def HostEnv.hexSymbols (h : HostEnv) : HostResult (List Byte × HostEnv) := do
  let a ← h.command .encHex
  let b ← a.check
  b.readOut 32

/-- ENC_B64 or ENC_RADIX, WAIT, CHECK, and the read of OUT_LEN symbols. -/
def HostEnv.encodedSymbols (i : Instr) (h : HostEnv) : HostResult (List Byte × HostEnv) := do
  let a ← h.command i
  let b ← a.check
  b.readSymbols

/-! ## The entry points -/

/-- `md5Hex(text)` (R266) with the hex case wanted. -/
def HostEnv.md5Hex (upper : Bool) (text : List (BitVec 16)) (h : HostEnv) : HostResult (List Byte × HostEnv) := do
  let a ← h.md5Digest text
  let b ← a.mergeConfig 0x00000001 (flagAt upper 0)
  b.hexSymbols

/-- `md5Base64(text)` (R266) with the pad wanted. CONFIG keeps its other fields, as in md5Hex (DEDUCED, safe, log entry
23). -/
def HostEnv.md5Base64 (padEn : Bool) (padChar : Byte) (text : List (BitVec 16)) (h : HostEnv) :
    HostResult (List Byte × HostEnv) := do
  let a ← h.md5Digest text
  let b ← a.mergeConfig 0x0000FF02 (flagAt padEn 1 ||| (padChar.setWidth 32 <<< 8))
  b.encodedSymbols .encB64

/-- `md5ArbitraryBase(text, alphabet)` (R266). -/
def HostEnv.md5ArbitraryBase (alphabet : List Byte) (text : List (BitVec 16)) (h : HostEnv) :
    HostResult (List Byte × HostEnv) := do
  let a ← h.md5Digest text
  let b ← a.writeAlphabet alphabet
  b.encodedSymbols .encRadix

/-- The digest part of R267: the key, HMAC_START, the message, HMAC_FINAL. R267 writes no WAIT before HMAC_KEY_INIT, and the
model's host makes none (DESIGN CHOICE, unsafe, log entry 27). -/
def HostEnv.hmacDigest (key data : List (BitVec 16)) (h : HostEnv) : HostResult HostEnv := do
  let a ← h.command .hmacKeyInit
  let b ← a.pushBytes (normalize key)
  let c ← b.command .hmacStart
  let d ← c.pushBytes (normalize data)
  d.command .hmacFinal

/-- `hmacMd5Hex(key, data)` (R267). The sequence of R267 writes no CONFIG, so the hex case is the one CONFIG holds, and
the symbols are read as in R266 (DEDUCED, safe, log entry 23). -/
def HostEnv.hmacMd5Hex (key data : List (BitVec 16)) (h : HostEnv) : HostResult (List Byte × HostEnv) := do
  let a ← h.hmacDigest key data
  a.hexSymbols

/-- The base-64 variant of R267, with the pad that CONFIG holds. -/
def HostEnv.hmacMd5Base64 (key data : List (BitVec 16)) (h : HostEnv) : HostResult (List Byte × HostEnv) := do
  let a ← h.hmacDigest key data
  a.encodedSymbols .encB64

/-- The arbitrary-base variant of R267. The alphabet is written where md5ArbitraryBase writes it (DEDUCED, safe, log
entry 23). -/
def HostEnv.hmacMd5ArbitraryBase (alphabet : List Byte) (key data : List (BitVec 16)) (h : HostEnv) :
    HostResult (List Byte × HostEnv) := do
  let a ← h.hmacDigest key data
  let b ← a.writeAlphabet alphabet
  b.encodedSymbols .encRadix

/-- The self-test entry point (R268): SELFTEST, WAIT, and STATUS.ST_PASS as a boolean. R268 writes no CHECK; the read that
shows ST_PASS shows ERR too, and ERR = 1 is a failed sequence as R269 wants it, so a rejected SELFTEST returns no old
ST_PASS (DEDUCED, unsafe, log entry 25). R268 writes no WAIT before SELFTEST, and the model's host makes none (DESIGN CHOICE,
unsafe, log entry 27). -/
def HostEnv.selftestPasses (h : HostEnv) : HostResult (Bool × HostEnv) := do
  let g ← h.command .selftest
  let (t, k) ← g.read .status
  let e ← k.failIfErr t
  pure (t.getLsbD 15, e)

/-- The other way R268 allows: R266 on "abc", the 32 symbols compared without regard to case. -/
def HostEnv.selftestByHex (upper : Bool) (h : HostEnv) : HostResult (Bool × HostEnv) := do
  let (o, g) ← h.md5Hex upper [0x0061, 0x0062, 0x0063]
  pure (decide (hexDecode o = some selftestDigest), g)

end Sys2Proof.Machine
end

