-- ==== Sys2Proof/Machine/Timing.lean ====
section
/-!
DEFINITION. The micro-step counts of the reference sequencer (70_reset_and_hazards.md R322) and the latency parameter
that takes them (R321). No rule depends on them, and the step does not use them (DESIGN CHOICE, safe, log entry 14).
-/

namespace Sys2Proof.Machine

/-- The micro-steps of one compression: 64 steps and one fold (R172). -/
def blockMicroSteps : Nat := 65

/-- The compressions of `finalize` (R175): two when BCNT is at least 56 before the padding. -/
def finalBlocks (bcnt : Nat) : Nat := if 56 ≤ bcnt then 2 else 1

/-- Whether PUSH n starts a compression (R147, R205, R322): the block buffer fills, or the 65th key byte arrives. -/
def pushFills (n : Nat) (s : State) : Bool :=
  if s.status.mode = .key ∧ s.status.khash = false then decide (64 < s.mlen.toNat / 8 + n)
  else decide (64 ≤ s.bcnt.toNat + n)

/-- The amount of work of a command accepted in `s`, in micro-steps (R322). -/
def microSteps (i : Instr) (s : State) : Nat :=
  match i with
  | .nop | .md5Init | .hmacKeyInit => 1
  | .push n => n.toNat + (if pushFills n.toNat s then blockMicroSteps else 0)
  | .md5Final => 1 + blockMicroSteps * finalBlocks s.bcnt.toNat
  | .hmacStart => blockMicroSteps + (if s.status.khash then blockMicroSteps * finalBlocks s.bcnt.toNat else 0)
  | .hmacFinal => blockMicroSteps * finalBlocks s.bcnt.toNat + blockMicroSteps + 16 + blockMicroSteps
  | .selftest => 3 + blockMicroSteps
  | .encHex => 32
  | .encB64 => 24
  | .encRadix => 8 + 8 * iterations s.alphaLen.toNat + iterations s.alphaLen.toNat
  | .ack | .softReset => 0
  | .stepFf _ | .stepGg _ | .stepHh _ | .stepIi _ => 1

/-- Clock cycles from acceptance to completion (R321). -/
def latency (i : Instr) (s : State) : Nat := Config.lat ((opcodeOf i).getD 0) (microSteps i s)

end Sys2Proof.Machine
end

