-- ==== Sys2Proof/Safety.lean ====
section
/-!
DEFINITION. The invariant of MDE: what the rules say of every state between two events (10_state.md R23 to R41,
41_word_packer.md R143, 70_reset_and_hazards.md R311), from the first reset on (R44). A state outside it is one no run
from reset reaches.
-/

namespace Sys2Proof.Machine

/-- Byte position `p` of the block buffer (R143). -/
def blockByte (w : Vector Word 16) (p : Nat) : Byte := lane (wordAt w (p / 4)) (p % 4)

/-- The sequencer between two events (R40, R123, R126). -/
structure SeqInv (s : State) : Prop where
  /-- "PHASE = RUN exactly when STATUS.BUSY = 1" (R40). -/
  busy_iff_run : s.status.busy = true ↔ s.seq.phase = .run
  /-- Completion leaves PCMD 0 (R126). -/
  idle_pcmd : s.seq.phase = .idle → s.seq.pcmd = 0
  /-- No compression is in progress while IDLE (R40). -/
  idle_block : s.seq.phase = .idle → s.seq.block = .idle
  /-- Outside a compression STEP is 0 (R40). -/
  no_block_step : s.seq.block ≠ .step → s.seq.step = 0
  /-- A running command passed every check, and the checks still pass (R121, R123). -/
  run_accepted : s.seq.phase = .run → ∃ i : Instr, decodeCmd s.seq.pcmd = .ok i ∧ i.isEngine = true ∧ rejection i s = none

/-- The fields of STATUS (R25 to R28). -/
structure StatusInv (s : State) : Prop where
  /-- Acceptance clears DONE and only completion sets it (R25). -/
  busy_not_done : s.status.busy = true → s.status.done = false
  /-- "While ERR is 0, ERRCODE reads 0 and ERR_OVF reads 0" (R26). -/
  err_clear : s.status.err = false → s.status.errCode = .none ∧ s.status.errOvf = false
  /-- A recorded error has a code (R282). -/
  err_code : s.status.err = true → s.status.errCode ≠ .none
  /-- KHASH "is 1 exactly when MODE = KEY and more than 64 key bytes have been pushed" (R27). -/
  khash_iff : s.status.khash = true ↔ s.status.mode = .key ∧ 512 < s.mlen.toNat
  /-- ST_PASS is written with ST_DONE (R28, R179). -/
  pass_done : s.status.stPass = true → s.status.stDone = true
  /-- SELFTEST leaves a digest, and only reset clears DVALID (R28, R179). -/
  done_dvalid : s.status.stDone = true → s.status.dvalid = true

/-- The stream and its buffers (R33, R38, R39, R143). -/
structure StreamInv (s : State) : Prop where
  /-- "MLEN is always a multiple of 8" (R33). -/
  mlen_bytes : s.mlen.toNat % 8 = 0
  /-- BCNT is in 0..63 between commands (R143). -/
  bcnt_lt : s.bcnt.toNat < 64
  /-- "every byte of W at byte position BCNT or above is 0" (R143). -/
  block_tail : ∀ p : Fin 64, s.bcnt.toNat ≤ p.val → blockByte s.w p.val = 0
  /-- Where the stream goes through the block buffer, BCNT counts its bytes after the last full block (R149). -/
  bcnt_mlen : s.status.mode = .md5 ∨ s.status.mode = .hmsg ∨ s.status.khash = true →
    8 * s.bcnt.toNat = s.mlen.toNat % 512
  /-- Where it does not, the block buffer is empty (R175, R177, R203). -/
  bcnt_zero : s.status.mode = .none ∨ (s.status.mode = .key ∧ s.status.khash = false) → s.bcnt.toNat = 0
  /-- In MODE HMSG the stream begins with the ipad block (R207). -/
  hmsg_mlen : s.status.mode = .hmsg → 512 ≤ s.mlen.toNat
  /-- KBUF is "zero beyond" the key bytes pushed so far (R39). -/
  key_tail : s.status.mode = .key → s.status.khash = false →
    ∀ i : Fin 64, s.mlen.toNat / 8 ≤ i.val → byteAt s.kbuf i.val = 0
  /-- No key is kept outside an HMAC session (R39, R177, R208). -/
  kbuf_zero : s.status.mode = .none ∨ s.status.mode = .md5 → s.kbuf = Vector.replicate 64 0

/-- The digest, the output buffer and the alphabet RAM (R29, R34, R35). -/
structure DataInv (s : State) : Prop where
  /-- DIGEST is 0 until a digest completes (R28, R29). -/
  digest_zero : s.status.dvalid = false → s.digest = Vector.replicate 16 0
  /-- OUT_LEN is 0 while OUT holds no completed encoding (R34, R245). -/
  out_len_zero : s.status.ovalid = false → s.outLen = 0
  /-- OUT_LEN is at most 128 (R34). -/
  out_len_le : s.outLen.toNat ≤ 128
  /-- "symbols OUT[OUT_LEN..127] are 0" while OUT holds a completed encoding (R34). -/
  out_tail : s.status.ovalid = true → ∀ p : Fin 128, s.outLen.toNat ≤ p.val → byteAt s.out p.val = 0
  /-- The alphabet RAM keeps its canonical form. -/
  alpha_wf : Memory.wf s.alpha = true
  /-- It lists offsets of ALPHA0..ALPHA63 only (R20). -/
  alpha_within : Memory.within alphaBase alphaTop s.alpha = true

/-- The invariant. -/
structure Inv (s : State) : Prop where
  seq : SeqInv s
  status : StatusInv s
  stream : StreamInv s
  data : DataInv s
  /-- The first reset after power-up has begun (R44, R310). -/
  since_reset : s.rst ≠ .powerUp
  /-- While `rst` is asserted every piece of state has its reset value (R311). -/
  in_reset : s.rst = .asserted → hwReset s = s

end Sys2Proof.Machine
end

