-- ==== Sys2Proof/Certificates/Slice0/Obligations.lean ====
section
/-!
DEFINITION. The statements for the provers. Sys2Proof.Claims holds what they are written with: the spec's own tables and
pseudocode on numbers, written again here and not taken from the meanings.
-/

namespace Sys2Proof.Claims

open Sys2Proof.Machine

/-! ## Outcomes the rules share -/

/-- `record_error(e)` (R282). -/
def errored (e : ErrCode) (s : State) : State :=
  { s with
    status :=
      { s.status with
        err := true
        errOvf := s.status.err || s.status.errOvf
        errCode := if s.status.err then s.status.errCode else e } }

/-- `accept(v)` (R123). -/
def accepted (v : Word) (s : State) : State :=
  { s with
    seq := { s.seq with phase := .run, pcmd := v }
    status := { s.status with busy := true, done := false } }

/-- `complete()` after the command's own effect (R126). -/
def finished (s : State) : State :=
  { s with
    status := { s.status with busy := false, done := true }
    seq := { s.seq with phase := .idle, pcmd := 0 } }

/-- The effect of ACK (R128). -/
def cleared (s : State) : State :=
  { s with status := { s.status with done := false, err := false, errOvf := false, errCode := .none } }

/-- The rows of R43. -/
structure AtReset (s : State) : Prop where
  id : readReg .id s = 0x4D443501
  status : s.status =
    { busy := false, done := false, err := false, errOvf := false, errCode := .none, mode := .none, khash := false,
      dvalid := false, ovalid := false, stDone := false, stPass := false }
  status_word : readReg .status s = 0x00000000
  config : s.cfg = { hexUpper := false, padEn := false, irqEn := false, padChar := 0x3D }
  config_word : readReg .config s = 0x00003D00
  data_in : s.dataIn = 0
  alpha_len : s.alphaLen = 0
  mlen : s.mlen = 0
  out_len : s.outLen = 0
  out : ∀ p : Fin 128, s.out[p] = 0
  digest : ∀ i : Fin 16, s.digest[i] = 0
  alpha : ∀ v : Fin 256, s.symbol v.val = 0
  hash : s.hash = { a := 0x67452301, b := 0xEFCDAB89, c := 0x98BADCFE, d := 0x10325476 }
  saved : s.saved = { a := 0, b := 0, c := 0, d := 0 }
  w : ∀ i : Fin 16, s.w[i] = 0
  bcnt : s.bcnt = 0
  kbuf : ∀ i : Fin 64, s.kbuf[i] = 0
  phase : s.seq.phase = .idle
  pcmd : s.seq.pcmd = 0
  step : s.seq.step = 0
  limb : ∀ i : Fin 8, s.enc.limb[i] = 0
  acc : s.enc.acc = 0
  rem : ∀ i : Fin 128, s.enc.rem[i] = 0
  iter : s.enc.iter = 0
  irq : s.irq = false

/-! ## The checks of a CMD write -/

/-- What R122 decides about a command word. -/
inductive Verdict where
  | softReset
  | ack
  | accept
  | reject (e : ErrCode)
deriving DecidableEq, Repr

/-- `valid_in_mode(op)`, the table of R130. -/
def opValid (op : Nat) (t : Status) : Bool :=
  match op with
  | 0x00 | 0x01 | 0x04 => true
  | 0x02 => t.mode == .md5 || t.mode == .key || t.mode == .hmsg
  | 0x03 => t.mode == .md5
  | 0x05 => t.mode == .key
  | 0x06 => t.mode == .hmsg
  | 0x07 | 0x08 | 0x09 => t.dvalid
  | 0x0A => t.mode == .none
  | _ => false

/-- The pseudocode of R122 on the bits of the word. -/
def verdict (v : Word) (s : State) : Verdict :=
  let op := v.toNat % 2 ^ 8
  let n := v.toNat / 2 ^ 8 % 2 ^ 8
  if v = 0x0000000F then .softReset
  else if s.status.busy then .reject .busy
  else if (0x0B ≤ op ∧ op ≤ 0x0D) ∨ 0x10 ≤ op ∨ v.toNat / 2 ^ 16 ≠ 0 ∨ (op ≠ 0x02 ∧ n ≠ 0) then .reject .badOp
  else if op = 0x0E then .ack
  else if opValid op s.status = false then .reject .badSeq
  else if op = 0x02 ∧ ¬ (1 ≤ n ∧ n ≤ 4) then .reject .badArg
  else if op = 0x09 ∧ ¬ (2 ≤ s.alphaLen.toNat ∧ s.alphaLen.toNat ≤ 256) then .reject .badRadix
  else if op = 0x02 ∧ s.mlen.toNat + 8 * n > 2 ^ 64 - 8 then .reject .lenOvf
  else .accept

/-- What a CMD write does (R122). -/
def cmdOutcome (v : Word) (s : State) : State :=
  match verdict v s with
  | .softReset => hwReset s
  | .ack => cleared s
  | .accept => accepted v s
  | .reject .badRadix => errored .badRadix { s with outLen := 0, status := { s.status with ovalid := false } }
  | .reject e => errored e s

/-- The handling of every command word with opcode `op`, for a command that has no operand and that is accepted exactly
when `ok` holds: its encoding, acceptance and errors. -/
def CmdLaw (op : Nat) (ok : State → Bool) : Prop :=
  ∀ (s : State) (v : Word) (rest : List Event),
    s.rst = .released → s.inbox = .write 0x004 v :: rest → v.toNat % 2 ^ 8 = op →
    ∃ tn : Turn,
      let u := { s with inbox := rest, turn := tn }
      step s = .next
        (if u.status.busy then errored .busy u
         else if v.toNat ≠ op then errored .badOp u
         else if ok u then accepted v u
         else errored .badSeq u)

/-! ## The register window -/

/-- Four bytes as a word, the first in the low lane (R70). -/
def fourBytes (f : Nat → Byte) : Word :=
  BitVec.ofNat 32 ((f 0).toNat + 2 ^ 8 * (f 1).toNat + 2 ^ 16 * (f 2).toNat + 2 ^ 24 * (f 3).toNat)

/-- What the register at an offset reads as (R20, R22, R29 to R35), `none` for a misaligned or unmapped offset. -/
def regValue (o : Nat) (s : State) : Option Word :=
  if o % 4 ≠ 0 then none
  else if o = 0x000 then some 0x4D443501
  else if o = 0x004 then some 0
  else if o = 0x008 then some (statusWord s.status)
  else if o = 0x00C then some (cfgWord s.cfg)
  else if o = 0x010 then some s.dataIn
  else if o = 0x014 then some (BitVec.ofNat 32 s.alphaLen.toNat)
  else if o = 0x018 then some (BitVec.ofNat 32 (s.mlen.toNat % 2 ^ 32))
  else if o = 0x01C then some (BitVec.ofNat 32 (s.mlen.toNat / 2 ^ 32))
  else if o = 0x020 then some (BitVec.ofNat 32 s.outLen.toNat)
  else if 0x030 ≤ o ∧ o < 0x040 then some (fourBytes fun i => byteAt s.digest (o - 0x030 + i))
  else if 0x100 ≤ o ∧ o < 0x180 then some (fourBytes fun i => byteAt s.out (o - 0x100 + i))
  else if 0x200 ≤ o ∧ o < 0x300 then some (fourBytes fun i => Memory.read s.alpha (o + i))
  else none

/-- The offsets a host may write besides CMD: CONFIG, DATA_IN, ALPHA_LEN, ALPHA0..ALPHA63 (R64). -/
def writable (o : Nat) : Bool :=
  o % 4 == 0 && (o == 0x00C || o == 0x010 || o == 0x014 || (0x200 ≤ o && o < 0x300))

/-- `t` is `u` after an idle engine's writable register at `o` has taken `v`, its reserved fields ignored (R42, R64). -/
def Stored (o : Nat) (v : Word) (u t : State) : Prop :=
  (o = 0x00C → t =
    { u with
      cfg :=
        { hexUpper := v.toNat % 2 == 1, padEn := v.toNat / 2 % 2 == 1, irqEn := v.toNat / 4 % 2 == 1
          padChar := BitVec.ofNat 8 (v.toNat / 2 ^ 8) } }) ∧
  (o = 0x010 → t = { u with dataIn := v }) ∧
  (o = 0x014 → t = { u with alphaLen := BitVec.ofNat 9 v.toNat }) ∧
  (0x200 ≤ o → t = { u with alpha := t.alpha } ∧ Memory.wf t.alpha = true ∧
    ∀ a : Nat, Memory.read t.alpha a =
      if o ≤ a ∧ a < o + 4 then BitVec.ofNat 8 (v.toNat / 2 ^ (8 * (a - o))) else Memory.read u.alpha a)

/-! ## Events -/

/-- The event the next step takes. -/
def nextIn (s : State) : Event := s.inbox.headD .engine

/-- The next step resets MDE: `rst` is asserted, or the exact SOFT_RESET word is written (R311). -/
def resets (s : State) : Prop :=
  nextIn s = .rstAssert ∨ (s.rst = .released ∧ nextIn s = .write 0x004 0x0000000F)

/-- The next step completes the command `i` (R126). -/
def completes (i : Instr) (s : State) : Prop :=
  s.rst = .released ∧ nextIn s = .engine ∧ s.seq.phase = .run ∧ s.seq.block = .idle ∧
    decode (.cmd s.seq.pcmd) = .ok i ∧ i.isEngine = true

/-- The next step writes `v` to CMD. -/
def writesCmd (v : Word) (s : State) : Prop := s.rst = .released ∧ nextIn s = .write 0x004 v

/-- The next step writes the register at offset `o` while the engine is idle. -/
def writesReg (o : Nat) (s : State) : Prop :=
  s.rst = .released ∧ s.status.busy = false ∧ ∃ v : Word, nextIn s = .write (BitVec.ofNat 12 o) v

/-- Feed MDE events in order. -/
def run : List Event → State → Option State
  | [], s => some s
  | e :: es, s =>
    match stepOn e s with
    | .next t => run es t
    | .fault _ => none
    | .refused _ => none

/-- A host access that is not the exact SOFT_RESET write. -/
def plainAccess : Event → Bool
  | .read _ => true
  | .write off v => !(off == 0x004 && v == 0x0000000F)
  | .engine | .rstAssert | .rstRelease => false

/-- `n` steps. -/
def steps : Nat → State → Option State
  | 0, s => some s
  | n + 1, s =>
    match step s with
    | .next t => steps n t
    | .fault _ => none
    | .refused _ => none

/-- MDE is out of reset and idle. -/
structure Ready (s : State) : Prop where
  rst : s.rst = .released
  busy : s.status.busy = false
  block : s.seq.block = .idle

/-- The four error-related fields agree. -/
def sameErrors (s t : State) : Prop :=
  t.status.err = s.status.err ∧ t.status.errOvf = s.status.errOvf ∧ t.status.errCode = s.status.errCode

/-- `s` with the error fields and the last read of `t`. -/
def withErrors (t s : State) : State :=
  { s with
    rdata := t.rdata
    status := { s.status with err := t.status.err, errOvf := t.status.errOvf, errCode := t.status.errCode } }

/-! ## Blocks, digits and symbols -/

/-- The bytes in the current block: the first BCNT byte positions of W (R143). -/
def blockBytes (s : State) : List Byte := (List.range s.bcnt.toNat).map (blockByte s.w)

/-- The bytes PUSH n appends (R144). -/
def pushed (n : Byte) (s : State) : List Byte :=
  (List.range n.toNat).map fun i => BitVec.ofNat 8 (s.dataIn.toNat / 2 ^ (8 * i))

/-- A block of words from at most 64 bytes, zero beyond them (R68, R140). -/
def blockOf (m : List Byte) : Vector Word 16 := toBlock (pack m)

/-- An empty block buffer. -/
def noWords : Vector Word 16 := Vector.replicate 16 0

/-- An empty key buffer. -/
def noKey : Vector Byte 64 := Vector.replicate 64 0

/-- The initial constants as R161 writes them. -/
def iv : Hash := { a := 0x67452301, b := 0xEFCDAB89, c := 0x98BADCFE, d := 0x10325476 }

/-- The words a step number's compression reads. -/
def sourceWords (s : State) : Vector Word 16 :=
  match s.seq.src with
  | .w => s.w
  | .key => blockOf s.kbuf.toList
  | .ipad => blockOf (s.kbuf.toList.map (· ^^^ 0x36))
  | .opad => blockOf (s.kbuf.toList.map (· ^^^ 0x5C))

/-- What one step of a compression in progress leaves, `f` the value of its round function (R170): the registers, the
save that goes with step 0 (R172), STEP advanced and wrapping (R40), and after step 63 only the fold to come. -/
def afterStep (n : BitVec 6) (f : Word) (s : State) : State :=
  { s with
    hash :=
      { a := s.hash.d
        b := s.hash.b + (s.hash.a + f + wordAt (sourceWords s) (kOf n) + tOf n).rotateLeft (sOf n)
        c := s.hash.b
        d := s.hash.c }
    saved := if n.toNat = 0 then s.hash else s.saved
    seq :=
      { s.seq with
        step := BitVec.ofNat 6 (n.toNat + 1)
        block := if n.toNat = 63 then .fold else .step } }

/-- The column T of the table of R169, a row here for four steps. -/
def tColumn : List Word :=
  [0xD76AA478, 0xE8C7B756, 0x242070DB, 0xC1BDCEEE,
    0xF57C0FAF, 0x4787C62A, 0xA8304613, 0xFD469501,
    0x698098D8, 0x8B44F7AF, 0xFFFF5BB1, 0x895CD7BE,
    0x6B901122, 0xFD987193, 0xA679438E, 0x49B40821] ++
  [0xF61E2562, 0xC040B340, 0x265E5A51, 0xE9B6C7AA,
    0xD62F105D, 0x02441453, 0xD8A1E681, 0xE7D3FBC8,
    0x21E1CDE6, 0xC33707D6, 0xF4D50D87, 0x455A14ED,
    0xA9E3E905, 0xFCEFA3F8, 0x676F02D9, 0x8D2A4C8A] ++
  [0xFFFA3942, 0x8771F681, 0x6D9D6122, 0xFDE5380C,
    0xA4BEEA44, 0x4BDECFA9, 0xF6BB4B60, 0xBEBFBC70,
    0x289B7EC6, 0xEAA127FA, 0xD4EF3085, 0x04881D05,
    0xD9D4D039, 0xE6DB99E5, 0x1FA27CF8, 0xC4AC5665] ++
  [0xF4292244, 0x432AFF97, 0xAB9423A7, 0xFC93A039,
    0x655B59C3, 0x8F0CCC92, 0xFFEFF47D, 0x85845DD1,
    0x6FA87E4F, 0xFE2CE6E0, 0xA3014314, 0x4E0811A1,
    0xF7537E82, 0xBD3AF235, 0x2AD7D2BB, 0xEB86D391]

/-- The hex digits of R232 as ASCII codes. -/
def hexDigits (upper : Bool) : List Byte :=
  (List.range 10).map (fun v => BitVec.ofNat 8 (0x30 + v)) ++
    (List.range 6).map (fun v => BitVec.ofNat 8 ((if upper then 0x41 else 0x61) + v))

/-- The base-64 alphabet of R234 as ASCII codes. -/
def b64Alphabet : List Byte :=
  (List.range 26).map (fun v => BitVec.ofNat 8 (0x41 + v)) ++
    (List.range 26).map (fun v => BitVec.ofNat 8 (0x61 + v)) ++
    (List.range 10).map (fun v => BitVec.ofNat 8 (0x30 + v)) ++ [0x2B, 0x2F]

/-- The digest as a big-endian 128-bit number (R238, R243). -/
def digestValue (s : State) : Nat := bigEndian s.digest.toList

/-- The value of the limbs, limb 0 most significant (R238). -/
def limbsValue (e : EncWork) : Nat :=
  ((List.finRange 8).map fun i => e.limb[i].toNat * 2 ^ (16 * (7 - i.val))).sum

/-- The least number of base-`r` digits that hold every 128-bit value (R241). -/
def leastDigits (r l : Nat) : Prop := 2 ^ 128 ≤ r ^ l ∧ ∀ k, k < l → r ^ k < 2 ^ 128

/-- The digits of a digest in the base of an alphabet, most significant first, as its symbols (R241, R243). -/
def radixDigits (alphabet d o : List Byte) : Prop :=
  ∃ l : Nat, leastDigits alphabet.length l ∧
    o = (List.range l).map fun p => alphabet.getD (bigEndian d / alphabet.length ^ (l - 1 - p) % alphabet.length) 0

/-- A host procedure run from `h` returns `x`, leaves MDE idle and records no error. -/
def Answers {α : Type} (r : HostResult (α × HostEnv)) (h : HostEnv) (x : α) : Prop :=
  ∃ g : HostEnv, r = .ok (x, g) ∧ Ready g.mde ∧ sameErrors h.mde g.mde

/-- A host procedure ends at its failure label, and its ACK leaves MDE idle with no error recorded. -/
def FailsWithAck {α : Type} (r : HostResult α) : Prop :=
  ∃ t : State, r = .error (.errorFlag t) ∧ Ready t ∧ t.status.err = false

/-- OUT and OUT_LEN written and OVALID set (R231), and the command completed (R126): nothing else changes. -/
def outWritten (o : Vector Byte 128) (n : Nat) (s : State) : State :=
  finished { s with out := o, outLen := BitVec.ofNat 8 n, status := { s.status with ovalid := true } }

end Sys2Proof.Claims

open Sys2Proof Sys2Proof.Machine Sys2Proof.Claims

/-! ## Reset -/

/-- R43: every row of the reset table holds in the state after reset, and SOFT_RESET and the `rst` input lead to it from
every state, SOFT_RESET once the first reset after power-up has begun (R310: before it no rule applies). -/
def Obligations.ResetTableHoldsAfterReset : Prop :=
  AtReset State.reset ∧
  (∀ s : State, s.rst ≠ .powerUp → ∃ t, exec .softReset s = .next t ∧ AtReset t) ∧
  (∀ s : State, ∃ t, event .rstAssert s = .next t ∧ AtReset t)

/-- R129, R96: SOFT_RESET is the exact word, is taken in every state of MDE also while a command runs, and abandons the
command. Every other word with OP 0x0F is BUSY or BAD_OP and does not reset. That a reset leaves the rst pin, the inputs
to come and the last read value alone is the model's choice (log entry 19), and so is the position inside a compression,
which it ends (log entry 3). -/
def Obligations.SoftResetExactWordResets : Prop :=
  (∀ s : State, s.rst ≠ .powerUp → ∃ t, exec .softReset s = .next t ∧ AtReset t ∧ t.seq.block = .idle ∧ t.rst = s.rst ∧
    t.inbox = s.inbox ∧ t.rdata = s.rdata) ∧
  (∀ (s : State) (v : Word) (rest : List Event),
    s.rst = .released → s.inbox = .write 0x004 v :: rest → v.toNat % 2 ^ 8 = 0x0F →
    ∃ t, step s = .next t ∧
      (v = 0x0000000F → AtReset t ∧ t.inbox = rest) ∧
      (v ≠ 0x0000000F → ∃ tn : Turn, t =
        errored (if s.status.busy then .busy else .badOp) { s with inbox := rest, turn := tn }))

/-- R311: what `rst` does. At its assertion every piece of state has its reset value in one event. While it is asserted
a read returns some value and changes no state of MDE, a write and the engine have no effect. That the inputs to come
stay is the model's choice (log entry 19), and so are the events of the rst input and the free value and its counter for
a read at any offset (log entry 5). R310, R313: before the first assertion MDE takes any event and stays unspecified (the
free values are log entry 6), and asserting and releasing `rst` leads from there, as from every state, to the reset values
and into the invariant. -/
def Obligations.RstInputResetsAndIgnoresAccesses : Prop :=
  (∀ s : State, ∃ t, event .rstAssert s = .next t ∧ AtReset t ∧ t.rst = .asserted ∧ t.inbox = s.inbox) ∧
  (∀ s : State, s.rst = .asserted →
    (∀ off : BitVec 12, ∃ (x : Word) (n : Nat), event (.read off) s = .next { s with rdata := x, freeCount := n }) ∧
    (∀ (off : BitVec 12) (v : Word), event (.write off v) s = .next s) ∧
    event .engine s = .next s ∧
    event .rstRelease s = .next { s with rst := .released }) ∧
  (∀ s : State, s.rst ≠ .powerUp → ∃ t, exec .softReset s = .next t ∧ AtReset t) ∧
  (∀ (s : State) (e : Event), s.rst = .powerUp → e ≠ .rstAssert →
    ∃ t, event e s = .next t ∧ t.rst = .powerUp ∧ t.inbox = s.inbox ∧ Memory.wf t.alpha = true) ∧
  (∀ s : State, ∃ t, run [.rstAssert, .rstRelease] s = some t ∧ AtReset t ∧ Inv t ∧ t.rst = .released)

/-! ## A step runs the decoded instruction, and the encodings -/

/-- A step runs the decoded instruction: a CMD write (R120), the completion of the latched command (R126), a micro-step
of a compression in progress (R101, R172), and what `withFetchWord` places. The two turns of a command and the control
state of a compression are the model's (log entries 1, 2 and 3). -/
def Obligations.StepRunsDecodedInstruction : Prop :=
  (∀ (s : State) (v : Word) (rest : List Event) (i : Instr),
    s.rst = .released → s.inbox = .write 0x004 v :: rest → decode (.cmd v) = .ok i →
    step s = exec i { s with inbox := rest, turn := .host }) ∧
  (∀ (s : State) (i : Instr), completes i s →
    step s = exec i { s with inbox := s.inbox.tail, turn := .engine }) ∧
  (∀ (s : State) (i : Instr),
    s.rst = .released → nextIn s = .engine → s.seq.phase = .run → s.seq.block = .step →
    decode (.seq s.seq.step) = .ok i →
    step s = exec i { s with inbox := s.inbox.tail, turn := .engine }) ∧
  (∀ (s : State) (nbits w : Nat) (i : Instr), decodeTableWord nbits w = some i →
    (8 < nbits → step (s.withFetchWord nbits w) = exec i { s with rst := .released, turn := .host }) ∧
    (nbits ≤ 8 → step (s.withFetchWord nbits w) = exec i
      { s with
        rst := .released, turn := .engine
        status := { s.status with busy := true }
        seq := { s.seq with phase := .run, step := BitVec.ofNat 6 w, block := .step } }))

/-- Decoding an encoded well-formed instruction gives it back, as an encoding and as the bytes it is stored in (R90,
R92, R93, R101). -/
def Obligations.DecodeOfEncodeIsIdentity : Prop :=
  ∀ i : Instr, i.wellFormed = true →
    decode (encode i) = .ok i ∧
    (∀ v : Word, encode i = .cmd v → decodeBytes [lane v 0, lane v 1, lane v 2, lane v 3] = .ok i) ∧
    (∀ n : BitVec 6, encode i = .seq n → decodeBytes [n.setWidth 8] = .ok i)

/-- Every encoding that decodes is the encoding of the one well-formed instruction it decodes to: no two words mean the
same instruction, and no reserved word falls through to a neighbour (R94, R95, R98). -/
def Obligations.EncodeOfDecodeIsIdentity : Prop :=
  ∀ (e : Encoded) (i : Instr), decode e = .ok i → i.wellFormed = true ∧ encode i = e

/-- The full command words of R93, and some words of R94 and R95 that are no command. -/
def Obligations.CommandWordsDecode : Prop :=
  [(0x00000000, Instr.nop), (0x00000001, .md5Init), (0x00000102, .push 1), (0x00000202, .push 2),
    (0x00000302, .push 3), (0x00000402, .push 4),
    (0x00000003, .md5Final), (0x00000004, .hmacKeyInit), (0x00000005, .hmacStart), (0x00000006, .hmacFinal),
    (0x00000007, .encHex), (0x00000008, .encB64), (0x00000009, .encRadix), (0x0000000A, .selftest),
    (0x0000000E, .ack), (0x0000000F, .softReset)].all
    (fun c => decide (decode (.cmd c.1) = .ok c.2)) = true ∧
  ([0x0000000B, 0x0000000D, 0x00000010, 0x000000FF, 0x00000100, 0x0000010F, 0x00010002] : List Word).all
    (fun v => (decode (.cmd v)).toOption.isNone) = true

/-- R101: how a step number is decoded. Every one is legal. -/
def Obligations.StepNumberSelectsRound : Prop :=
  ∀ n : BitVec 6, decode (.seq n) = .ok
    (if n.toNat ≤ 15 then .stepFf n else if n.toNat ≤ 31 then .stepGg n
     else if n.toNat ≤ 47 then .stepHh n else .stepIi n)

/-- R122, R123, R130: the whole handling of a CMD write, in the order of its checks. The turn is the model's own
field (log entry 1). -/
def Obligations.CmdWriteFollowsCheckOrder : Prop :=
  ∀ (s : State) (v : Word) (rest : List Event), s.rst = .released → s.inbox = .write 0x004 v :: rest →
    ∃ tn : Turn, step s = .next (cmdOutcome v { s with inbox := rest, turn := tn })

/-! ## Host accesses -/

/-- R65, R63: a read of a mapped, aligned offset returns the register's value and changes nothing else; any other read
returns 0 and records BAD_ADDR. It is answered in every state, busy or not. -/
def Obligations.HostReadAnswersRegister : Prop :=
  ∀ (s : State) (off : BitVec 12) (rest : List Event), s.rst = .released → s.inbox = .read off :: rest →
    let u := { s with inbox := rest }
    step s = .next
      (match regValue off.toNat s with
       | some v => { u with rdata := v }
       | none => { errored .badAddr u with rdata := 0 })

/-- R64: a host write at every offset of the window. -/
def Obligations.HostWriteOutcome : Prop :=
  ∀ (s : State) (off : BitVec 12) (v : Word) (rest : List Event),
    s.rst = .released → s.inbox = .write off v :: rest → Memory.wf s.alpha = true →
    let u := { s with inbox := rest }
    (off.toNat = 0x004 → ∃ tn : Turn, step s = .next (cmdOutcome v { u with turn := tn })) ∧
    (off.toNat ≠ 0x004 → ∃ t, step s = .next t ∧
      (writable off.toNat = false → t = errored .badAddr u) ∧
      (writable off.toNat = true → s.status.busy = true → t = errored .busy u) ∧
      (writable off.toNat = true → s.status.busy = false → Stored off.toNat v u t))

/-- R42: reserved fields read 0 in every state, and ignore writes, without an error. -/
def Obligations.ReservedFieldsReadZero : Prop :=
  (∀ s : State,
    (readReg .status s).toNat < 2 ^ 16 ∧ (readReg .outLen s).toNat < 2 ^ 8 ∧
    (readReg .alphaLen s).toNat < 2 ^ 9 ∧ readReg .config s &&& 0xFFFF00F8 = 0) ∧
  (∀ (s : State) (v : Word), s.rst = .released → s.status.busy = false →
    ∃ t, stepOn (writeTo .config v) s = .next t ∧ readReg .config t = v &&& 0x0000FF07 ∧ t.status = s.status) ∧
  (∀ (s : State) (v : Word), s.rst = .released → s.status.busy = false →
    ∃ t, stepOn (writeTo .alphaLen v) s = .next t ∧ readReg .alphaLen t = v &&& 0x000001FF ∧ t.status = s.status)

/-- R67, its first sentence: writing a data register twice equals writing it once. -/
def Obligations.DataWritesAreIdempotent : Prop :=
  ∀ (s t : State) (r : Reg) (v : Word),
    r = .config ∨ r = .dataIn ∨ r = .alphaLen ∨ (∃ j, r = .alpha j) →
    s.rst = .released → s.status.busy = false → Memory.wf s.alpha = true →
    stepOn (writeTo r v) s = .next t → stepOn (writeTo r v) t = .next t

/-- R23, R27, R30, R281: where each field of STATUS and CONFIG lies, and the numbers of the modes and error codes. -/
def Obligations.StatusAndConfigBitLayout : Prop :=
  (∀ (t : Status) (k : Nat), (statusWord t).getLsbD k =
    (match k with
     | 0 => t.busy
     | 1 => t.done
     | 2 => t.err
     | 3 => t.errOvf
     | 11 => t.khash
     | 12 => t.dvalid
     | 13 => t.ovalid
     | 14 => t.stDone
     | 15 => t.stPass
     | 4 | 5 | 6 | 7 => t.errCode.code.getLsbD (k - 4)
     | 8 | 9 | 10 => t.mode.code.getLsbD (k - 8)
     | _ => false)) ∧
  (∀ (c : Cfg) (k : Nat), (cfgWord c).getLsbD k =
    (if k = 0 then c.hexUpper else if k = 1 then c.padEn else if k = 2 then c.irqEn
     else if 8 ≤ k ∧ k ≤ 15 then c.padChar.getLsbD (k - 8) else false)) ∧
  [ErrCode.none, .busy, .badOp, .badSeq, .badArg, .badRadix, .lenOvf, .badAddr].map (fun e => e.code.toNat) =
    [0, 1, 2, 3, 4, 5, 6, 7] ∧
  [Mode.none, .md5, .key, .hmsg].map (fun m => m.code.toNat) = [0, 1, 2, 3]

/-- R61: an access is MDE's exactly when it lies in the window at BASE, and the offset is its distance from BASE. -/
def Obligations.WindowRoutingFromBase : Prop :=
  ∀ (addr : Word) (v : Word),
    let base := Config.basePage.toNat * 0x1000
    let inside := base ≤ addr.toNat ∧ addr.toNat < base + 0x1000
    (inside → BusAccess.event (.read addr) = some (.read (BitVec.ofNat 12 (addr.toNat - base))) ∧
      BusAccess.event (.write addr v) = some (.write (BitVec.ofNat 12 (addr.toNat - base)) v)) ∧
    (¬ inside → BusAccess.event (.read addr) = none ∧ BusAccess.event (.write addr v) = none)

/-! ## Control commands -/

/-- R127: NOP. -/
def Obligations.NopCompletesUnchanged : Prop :=
  CmdLaw 0x00 (fun _ => true) ∧
  ∀ s : State, s.turn = .engine → exec .nop s = .next (finished s)

/-- R128: ACK acts at the write, on the four named fields of STATUS only, and `irq` falls (before the first reset
it is unspecified, R310). While a command runs it is dropped with BUSY. -/
def Obligations.AckClearsErrorsAndDone : Prop :=
  (∀ s : State, exec .ack s = .next (if s.status.busy then errored .busy s else cleared s)) ∧
  (∀ s : State, s.rst ≠ .powerUp → (cleared s).irq = false) ∧
  (∀ (s : State) (v : Word) (rest : List Event),
    s.rst = .released → s.inbox = .write 0x004 v :: rest → v.toNat % 2 ^ 8 = 0x0E →
    ∃ tn : Turn,
      let u := { s with inbox := rest, turn := tn }
      step s = .next
        (if u.status.busy then errored .busy u else if v.toNat ≠ 0x0E then errored .badOp u else cleared u))

/-! ## The MD5 engine -/

/-- R177: MD5_INIT. -/
def Obligations.Md5InitOpensSession : Prop :=
  CmdLaw 0x01 (fun _ => true) ∧
  ∀ s : State, s.turn = .engine → exec .md5Init s = .next (finished
    { s with
      hash := iv, w := noWords, bcnt := 0, mlen := 0, kbuf := noKey
      status := { s.status with khash := false, mode := .md5 } })

/-- R148 and the acceptance conditions and errors of R144: which PUSH words are accepted. A stream that keeps the
invariant never exceeds the bound. A rejection keeps DONE (R25, R282), against the STATUS that V7 prints (log entry
21). -/
def Obligations.PushAcceptanceAndLengthBound : Prop :=
  (∀ (s : State) (v : Word) (rest : List Event),
    s.rst = .released → s.inbox = .write 0x004 v :: rest → v.toNat % 2 ^ 8 = 0x02 →
    ∃ tn : Turn,
      let u := { s with inbox := rest, turn := tn }
      let n := v.toNat / 2 ^ 8
      step s = .next
        (if u.status.busy then errored .busy u
         else if 2 ^ 8 ≤ n then errored .badOp u
         else if u.status.mode = .none then errored .badSeq u
         else if n = 0 ∨ 5 ≤ n then errored .badArg u
         else if u.mlen.toNat + 8 * n > 2 ^ 64 - 8 then errored .lenOvf u
         else accepted v u)) ∧
  (∀ s : State, Inv s → s.mlen.toNat ≤ 2 ^ 64 - 8)

/-- R142, R144, R145, R204, R147: PUSH where bytes go through the block buffer, that is in MODE MD5 and HMSG, and in
MODE KEY once the key is being hashed. The bytes join the block; a block that fills is compressed once and the rest
begins the next one. -/
def Obligations.PushJoinsBlockAndCompresses : Prop :=
  ∀ (s : State) (n : Byte),
    s.turn = .engine → 1 ≤ n.toNat → n.toNat ≤ 4 → StreamInv s →
    s.status.mode = .md5 ∨ s.status.mode = .hmsg ∨ (s.status.mode = .key ∧ s.status.khash = true) →
    let m := blockBytes s ++ pushed n s
    (m.length < 64 → exec (.push n) s = .next (finished
      { s with
        w := blockOf m, bcnt := BitVec.ofNat 7 m.length, mlen := s.mlen + BitVec.ofNat 64 (8 * n.toNat) })) ∧
    (64 ≤ m.length → ∃ aa : Hash, exec (.push n) s = .next (finished
      { s with
        hash := compressHash (blockOf (m.take 64)) s.hash, saved := aa
        w := blockOf (m.drop 64), bcnt := BitVec.ofNat 7 (m.length - 64)
        mlen := s.mlen + BitVec.ofNat 64 (8 * n.toNat) }))

/-- R204: PUSH of key bytes 1 to 64 stores them in KBUF and counts them. -/
def Obligations.PushStoresShortKey : Prop :=
  ∀ (s : State) (n : Byte),
    s.turn = .engine → 1 ≤ n.toNat → n.toNat ≤ 4 → s.status.mode = .key → s.status.khash = false →
    s.mlen.toNat % 8 = 0 → s.mlen.toNat / 8 + n.toNat ≤ 64 →
    exec (.push n) s = .next (finished
      { s with
        kbuf := Vector.ofFn fun i : Fin 64 =>
          if s.mlen.toNat / 8 ≤ i.val ∧ i.val < s.mlen.toNat / 8 + n.toNat
          then (pushed n s).getD (i.val - s.mlen.toNat / 8) 0 else s.kbuf[i]
        mlen := s.mlen + BitVec.ofNat 64 (8 * n.toNat) })

/-- R204, R205: the PUSH that brings key byte 65. The bytes up to 64 go to KBUF, KBUF is compressed from the initial
constants, KHASH is set, and the bytes from 65 on begin the block buffer. -/
def Obligations.PushOfKeyByte65StartsHash : Prop :=
  ∀ (s : State) (n : Byte),
    s.turn = .engine → 1 ≤ n.toNat → n.toNat ≤ 4 → s.status.mode = .key → s.status.khash = false →
    s.mlen.toNat % 8 = 0 → s.mlen.toNat / 8 ≤ 64 → 64 < s.mlen.toNat / 8 + n.toNat →
    let c := s.mlen.toNat / 8
    let key := s.kbuf.toList.take c ++ (pushed n s).take (64 - c)
    let more := (pushed n s).drop (64 - c)
    ∃ aa : Hash, exec (.push n) s = .next (finished
      { s with
        kbuf := toBytes 64 key
        hash := compressHash (blockOf key) iv, saved := aa
        w := blockOf more, bcnt := BitVec.ofNat 7 more.length
        mlen := s.mlen + BitVec.ofNat 64 (8 * n.toNat)
        status := { s.status with khash := true } })

/-- R178, with R173 to R176: MD5_FINAL pads the bytes of the last block with the stream's length, chains the one or two
blocks that gives, and writes the digest. -/
def Obligations.Md5FinalWritesDigest : Prop :=
  CmdLaw 0x03 (fun s => s.status.mode == .md5) ∧
  ∀ s : State, s.turn = .engine → StreamInv s →
    let h := chain s.hash (pad (blockBytes s) s.mlen)
    ∃ aa : Hash, exec .md5Final s = .next (finished
      { s with
        hash := h, saved := aa, w := noWords, bcnt := 0
        digest := toBytes 16 (bytesLe h.a ++ bytesLe h.b ++ bytesLe h.c ++ bytesLe h.d)
        status := { s.status with dvalid := true, mode := .none } })

/-- R179: SELFTEST leaves the digest of "abc" and passes, from every state. -/
def Obligations.SelftestPasses : Prop :=
  CmdLaw 0x0A (fun s => s.status.mode == .none) ∧
  ∀ s : State, s.turn = .engine → ∃ aa : Hash, exec .selftest s = .next (finished
    { s with
      hash := { a := 0x98500190, b := 0xB04FD23C, c := 0x7D3F96D6, d := 0x727FE128 }, saved := aa
      w := noWords, bcnt := 0, mlen := 24, kbuf := noKey
      digest := #v[0x90, 0x01, 0x50, 0x98, 0x3c, 0xd2, 0x4f, 0xb0, 0xd6, 0x96, 0x3f, 0x7d, 0x28, 0xe1, 0x7f, 0x72]
      status := { s.status with khash := false, dvalid := true, stDone := true, stPass := true } })

/-- R176, R70: after MD5_FINAL, HMAC_FINAL and SELFTEST, DIGESTj reads as the j-th of A, B, C, D. -/
def Obligations.DigestRegistersEqualHash : Prop :=
  ∀ (i : Instr) (s : State), s.turn = .engine → i = .md5Final ∨ i = .hmacFinal ∨ i = .selftest →
    ∃ t, exec i s = .next t ∧
      t.digest.toList = unpack [t.hash.a, t.hash.b, t.hash.c, t.hash.d] ∧
      readReg (.digest 0) t = t.hash.a ∧ readReg (.digest 1) t = t.hash.b ∧
      readReg (.digest 2) t = t.hash.c ∧ readReg (.digest 3) t = t.hash.d

/-- R163 to R166: the round functions, bit by bit. -/
def Obligations.RoundFunctionsBitwise : Prop :=
  ∀ (b c d : Word) (k : Nat), k < 32 →
    (ff b c d).getLsbD k = (if b.getLsbD k then c.getLsbD k else d.getLsbD k) ∧
    (gg b c d).getLsbD k = (if d.getLsbD k then b.getLsbD k else c.getLsbD k) ∧
    (hh b c d).getLsbD k = ((b.getLsbD k ^^ c.getLsbD k) ^^ d.getLsbD k) ∧
    (ii b c d).getLsbD k = (c.getLsbD k ^^ (b.getLsbD k || !d.getLsbD k))

/-- R167, R168: the message-word indices and the rotation amounts follow their formulas. The additive constants are the
ones the table of R169 prints. -/
def Obligations.StepTablesFollowFormulas : Prop :=
  ∀ n : BitVec 6,
    kOf n =
      (if n.toNat < 16 then n.toNat
       else if n.toNat < 32 then (1 + 5 * (n.toNat - 16)) % 16
       else if n.toNat < 48 then (5 + 3 * (n.toNat - 32)) % 16
       else 7 * (n.toNat - 48) % 16) ∧
    sOf n =
      (([[7, 12, 17, 22], [5, 9, 14, 20], [4, 11, 16, 23], [6, 10, 15, 21]] : List (List Nat)).getD
        (n.toNat / 16) []).getD (n.toNat % 4) 0 ∧
    4 ≤ sOf n ∧ sOf n ≤ 23 ∧
    tOf n = tColumn.getD n.toNat 0

/-- R162, R170: the step function of every step, with the function of its round and all four registers written
together. -/
def Obligations.StepFunctionOfEveryStep : Prop :=
  ∀ (n : BitVec 6) (x : Vector Word 16) (h : Hash),
    let f :=
      if n.toNat / 16 = 0 then (h.b &&& h.c) ||| (~~~h.b &&& h.d)
      else if n.toNat / 16 = 1 then (h.b &&& h.d) ||| (h.c &&& ~~~h.d)
      else if n.toNat / 16 = 2 then h.b ^^^ h.c ^^^ h.d
      else h.c ^^^ (h.b ||| ~~~h.d)
    stepHash n x h =
      { a := h.d, b := h.b + (h.a + f + wordAt x (kOf n) + tOf n).rotateLeft (sOf n), c := h.b, d := h.c }

/-- R171: a compression is the 64 steps in order and the fold, and it changes A..D and AA..DD only. -/
def Obligations.CompressionIs64StepsAndFold : Prop :=
  (∀ (x : Vector Word 16) (h : Hash),
    let g := (List.finRange 64).foldl (fun y i => stepHash (BitVec.ofNat 6 i.val) x y) h
    compressHash x h = { a := g.a + h.a, b := g.b + h.b, c := g.c + h.c, d := g.d + h.d }) ∧
  (∀ (src : BlockSrc) (s : State),
    compress src s = { s with hash := compressHash (blockWords src s) s.hash, saved := s.hash })

/-- R163 to R166, R170, R172: the four kinds of step complete in every state and change A..D, with step 0 AA..DD, and the
sequencer only. The position kept inside a compression is the model's (log entry 3). -/
def Obligations.SequencerStepsComplete : Prop :=
  ∀ (s : State) (n : BitVec 6),
    exec (.stepFf n) s =
      .next (afterStep n ((s.hash.b &&& s.hash.c) ||| (~~~s.hash.b &&& s.hash.d)) s) ∧
    exec (.stepGg n) s =
      .next (afterStep n ((s.hash.b &&& s.hash.d) ||| (s.hash.c &&& ~~~s.hash.d)) s) ∧
    exec (.stepHh n) s = .next (afterStep n (s.hash.b ^^^ s.hash.c ^^^ s.hash.d) s) ∧
    exec (.stepIi n) s = .next (afterStep n (s.hash.c ^^^ (s.hash.b ||| ~~~s.hash.d)) s)

/-- R172: 65 micro-steps of a compression in progress equal the compression done in one event, and leave STEP at 0. The
position kept inside a compression is the model's (log entry 3). -/
def Obligations.MicroStepsEqualCompression : Prop :=
  ∀ s : State, s.rst = .released → s.seq.phase = .run → s.seq.block = .step → s.seq.step = 0 →
    run (List.replicate 65 .engine) s = some
      { s with
        hash := compressHash (sourceWords s) s.hash, saved := s.hash, turn := .engine
        seq := { s.seq with step := 0, block := .idle } }

/-- R173: the padding of a byte sequence. -/
def Obligations.PaddingShapeAndLength : Prop :=
  ∀ (m : List Byte) (l : BitVec 64),
    ∃ z : Nat,
      pad m l = m ++ [0x80] ++ List.replicate z 0 ++
        (List.range 8).map (fun i => BitVec.ofNat 8 (l.toNat / 2 ^ (8 * i))) ∧
      (m.length + 1 + z) % 64 = 56 ∧ (∀ y, y < z → (m.length + 1 + y) % 64 ≠ 56) ∧
      (pad m l).length = 64 * ((m.length + 8) / 64 + 1) ∧
      (let lastWords := blockOf ((pad m l).drop (64 * ((m.length + 8) / 64)))
       (wordAt lastWords 14).toNat = l.toNat % 2 ^ 32 ∧ (wordAt lastWords 15).toNat = l.toNat / 2 ^ 32)

/-- R140, R141: packing and unpacking. -/
def Obligations.UnpackOfPackIsZeroExtension : Prop :=
  ∀ m : List Byte,
    (pack m).length = (m.length + 3) / 4 ∧
    unpack (pack m) = m ++ List.replicate ((4 - m.length % 4) % 4) 0

/-! ## The HMAC sequencer -/

/-- R203: HMAC_KEY_INIT. -/
def Obligations.HmacKeyInitOpensKeySession : Prop :=
  CmdLaw 0x04 (fun _ => true) ∧
  ∀ s : State, s.turn = .engine → exec .hmacKeyInit s = .next (finished
    { s with
      hash := iv, w := noWords, bcnt := 0, mlen := 0, kbuf := noKey
      status := { s.status with khash := false, mode := .key } })

/-- R206: HMAC_START replaces a hashed key by its digest and compresses the ipad block. DIGEST is not changed. -/
def Obligations.HmacStartCompressesIpad : Prop :=
  CmdLaw 0x05 (fun s => s.status.mode == .key) ∧
  ∀ s : State, s.turn = .engine → StreamInv s →
    let kh := chain s.hash (pad (blockBytes s) s.mlen)
    let key : Vector Byte 64 :=
      if s.status.khash
      then toBytes 64 (bytesLe kh.a ++ bytesLe kh.b ++ bytesLe kh.c ++ bytesLe kh.d)
      else s.kbuf
    ∃ aa : Hash, exec .hmacStart s = .next (finished
      { s with
        kbuf := key
        hash := compressHash (blockOf (key.toList.map (· ^^^ 0x36))) iv, saved := aa
        w := noWords, bcnt := 0, mlen := 512
        status := { s.status with khash := false, mode := .hmsg } })

/-- R208: HMAC_FINAL finishes the inner digest and runs the outer one over the opad block and the inner digest. -/
def Obligations.HmacFinalWritesOuterDigest : Prop :=
  CmdLaw 0x06 (fun s => s.status.mode == .hmsg) ∧
  ∀ s : State, s.turn = .engine → StreamInv s →
    let i := chain s.hash (pad (blockBytes s) s.mlen)
    let inner := bytesLe i.a ++ bytesLe i.b ++ bytesLe i.c ++ bytesLe i.d
    let h := chain iv (s.kbuf.toList.map (· ^^^ 0x5C) ++ pad inner 640)
    ∃ aa : Hash, exec .hmacFinal s = .next (finished
      { s with
        hash := h, saved := aa, w := noWords, bcnt := 0, mlen := 640, kbuf := noKey
        digest := toBytes 16 (bytesLe h.a ++ bytesLe h.b ++ bytesLe h.c ++ bytesLe h.d)
        status := { s.status with dvalid := true, mode := .none } })

/-! ## The Digest Encoder -/

/-- R233, R232: ENC_HEX writes two hex digits of each digest byte, high nibble first, and 32 to OUT_LEN. -/
def Obligations.EncHexWritesHexDigits : Prop :=
  CmdLaw 0x07 (fun s => s.status.dvalid) ∧
  ∀ s : State, s.turn = .engine → ∃ o : Vector Byte 128, exec .encHex s = .next (outWritten o 32 s) ∧
    (∀ i : Fin 16,
      byteAt o (2 * i.val) = (hexDigits s.cfg.hexUpper).getD (s.digest[i].toNat / 16) 0 ∧
      byteAt o (2 * i.val + 1) = (hexDigits s.cfg.hexUpper).getD (s.digest[i].toNat % 16) 0) ∧
    (∀ p : Fin 128, 32 ≤ p.val → o[p] = 0)

/-- R236, R235, R234: ENC_B64 writes 22 base-64 digits of the digest followed by four zero bits, then with PAD_EN two pad
symbols. -/
def Obligations.EncB64WritesBase64Digits : Prop :=
  CmdLaw 0x08 (fun s => s.status.dvalid) ∧
  ∀ s : State, s.turn = .engine →
    let n := if s.cfg.padEn then 24 else 22
    ∃ o : Vector Byte 128, exec .encB64 s = .next (outWritten o n s) ∧
    (∀ p : Fin 128,
      (p.val < 22 → o[p] = b64Alphabet.getD (digestValue s * 2 ^ 4 / 2 ^ (6 * (21 - p.val)) % 64) 0) ∧
      (22 ≤ p.val → p.val < n → o[p] = s.cfg.padChar) ∧
      (n ≤ p.val → o[p] = 0))

/-- R242, R243, R237, R240: ENC_RADIX accepts radices 2 to 256 and writes the digits of the digest's value, most
significant first, through the alphabet. LIMB, ACC, REM and ITER may hold anything afterwards (R41). -/
def Obligations.EncRadixWritesRadixDigits : Prop :=
  (∀ (s : State) (v : Word) (rest : List Event),
    s.rst = .released → s.inbox = .write 0x004 v :: rest → v.toNat % 2 ^ 8 = 0x09 →
    ∃ tn : Turn,
      let u := { s with inbox := rest, turn := tn }
      step s = .next
        (if u.status.busy then errored .busy u
         else if v.toNat ≠ 0x09 then errored .badOp u
         else if u.status.dvalid = false then errored .badSeq u
         else if 2 ≤ u.alphaLen.toNat ∧ u.alphaLen.toNat ≤ 256 then accepted v u
         else errored .badRadix { u with outLen := 0, status := { u.status with ovalid := false } })) ∧
  (∀ s : State, s.turn = .engine → 2 ≤ s.alphaLen.toNat → s.alphaLen.toNat ≤ 256 →
    ∃ (l : Nat) (o : Vector Byte 128) (e : EncWork),
      leastDigits s.alphaLen.toNat l ∧ l ≤ 128 ∧
      exec .encRadix s = .next (outWritten o l { s with enc := e }) ∧
      ∀ p : Fin 128, o[p] =
        if p.val < l
        then Memory.read s.alpha (0x200 + digestValue s / s.alphaLen.toNat ^ (l - 1 - p.val) % s.alphaLen.toNat)
        else 0)

/-- R245: the BAD_RADIX rejection records the error and clears OUT_LEN and OVALID at the write, and nothing else
changes. -/
def Obligations.BadRadixClearsOutput : Prop :=
  ∀ (s : State) (rest : List Event),
    s.rst = .released → s.inbox = .write 0x004 0x00000009 :: rest → s.status.busy = false → s.status.dvalid = true →
    s.alphaLen.toNat < 2 ∨ 256 < s.alphaLen.toNat →
    ∃ tn : Turn, step s = .next
      { s with
        inbox := rest, turn := tn, outLen := 0
        status :=
          { s.status with
            ovalid := false, err := true
            errOvf := s.status.err || s.status.errOvf
            errCode := if s.status.err then s.status.errCode else .badRadix } }

/-- R239: one division iteration divides the value of the limbs by the radix and puts the remainder in REM[ITER]. -/
def Obligations.RadixIterationDividesByRadix : Prop :=
  ∀ (r : Nat) (e : EncWork), 2 ≤ r → r ≤ 256 → e.iter.toNat < 128 →
    let f := divideOnce r e
    limbsValue f = limbsValue e / r ∧
    (byteAt f.rem e.iter.toNat).toNat = limbsValue e % r ∧ f.acc.toNat = limbsValue e % r ∧
    (∀ p : Nat, p ≠ e.iter.toNat → byteAt f.rem p = byteAt e.rem p) ∧
    f.iter = e.iter + 1

/-- R241: the table of iteration counts holds the least count that holds every digest. -/
def Obligations.RadixIterationCountIsLeast : Prop :=
  ∀ r : Nat, 2 ≤ r → r ≤ 256 → leastDigits r (iterations r) ∧ 16 ≤ iterations r ∧ iterations r ≤ 128

/-- R244: base 16 with the hex digits as alphabet writes what ENC_HEX writes. -/
def Obligations.RadixSixteenEqualsHex : Prop :=
  ∀ s : State, s.turn = .engine → s.alphaLen.toNat = 16 →
    (∀ v : Fin 16, s.symbol v.val = (hexDigits s.cfg.hexUpper).getD v.val 0) →
    ∃ t u : State, exec .encRadix s = .next t ∧ exec .encHex s = .next u ∧
      t.out = u.out ∧ t.outLen = 32 ∧ u.outLen = 32

/-! ## Sessions -/

/-- R149: streaming equals packing, for every split of the message into pushes. -/
def Obligations.StreamingEqualsPacking : Prop :=
  ∀ (s : State) (gs : List (List Byte)),
    Ready s → (∀ g ∈ gs, 1 ≤ g.length ∧ g.length ≤ 4) → gs.flatten.length ≤ 2 ^ 61 - 1 →
    let m := gs.flatten
    ∃ t, run (command .md5Init ++ pushGroups gs) s = some t ∧
      t.hash = chain iv (m.take (64 * (m.length / 64))) ∧
      t.w = blockOf (m.drop (64 * (m.length / 64))) ∧ t.bcnt.toNat = m.length % 64 ∧
      t.mlen.toNat = 8 * m.length ∧ t.status.mode = .md5 ∧ Ready t ∧ sameErrors s t

/-- R180, R181: an MD5 session leaves the digest of its message, whatever the state before it and whatever the split, and
raises no error. -/
def Obligations.Md5SessionComputesMd5 : Prop :=
  ∀ (s : State) (gs : List (List Byte)),
    Ready s → (∀ g ∈ gs, 1 ≤ g.length ∧ g.length ≤ 4) → gs.flatten.length ≤ 2 ^ 61 - 1 →
    ∃ t, run (md5Session gs) s = some t ∧
      t.digest.toList = md5 gs.flatten ∧ t.status.dvalid = true ∧ t.status.mode = .none ∧
      t.mlen.toNat = 8 * gs.flatten.length ∧ Ready t ∧ sameErrors s t

/-- R209: an HMAC session leaves the HMAC of its key and message. -/
def Obligations.HmacSessionComputesHmac : Prop :=
  ∀ (s : State) (ks ms : List (List Byte)),
    Ready s → (∀ g ∈ ks, 1 ≤ g.length ∧ g.length ≤ 4) → (∀ g ∈ ms, 1 ≤ g.length ∧ g.length ≤ 4) →
    ks.flatten.length ≤ 2 ^ 61 - 65 → ms.flatten.length ≤ 2 ^ 61 - 65 →
    ∃ t, run (hmacSession ks ms) s = some t ∧
      t.digest.toList = hmac ks.flatten ms.flatten ∧ t.status.dvalid = true ∧ t.status.mode = .none ∧
      Ready t ∧ sameErrors s t

/-- R266, R267, R268: what the entry points return, from every idle MDE of the invariant, however the polls and the engine's
turns interleave. With no error recorded before, each returns the encoding of the digest of the normalised text, and
records none; with one recorded, CHECK sends the host to its failure label, and the ACK there leaves no error. SELFTEST
passes where its mode allows it and fails so where it is rejected. The host's part is the model's (log entries 12, 23, 24,
25 and 27). -/
def Obligations.EntryPointsAnswer : Prop :=
  ∀ (h : HostEnv) (text key : List (BitVec 16)) (alphabet : List Byte) (upper padEn : Bool) (padChar : Byte),
    Inv h.mde → Ready h.mde → (normalize text).length ≤ 2 ^ 61 - 65 → (normalize key).length ≤ 2 ^ 61 - 65 →
    let d := md5 (normalize text)
    let a := hmac (normalize key) (normalize text)
    (h.mde.status.err = false →
      Answers (h.md5Hex upper text) h (hexOf upper d) ∧
      Answers (h.md5Base64 padEn padChar text) h (b64 d padEn padChar) ∧
      Answers (h.hmacMd5Hex key text) h (hexOf h.mde.cfg.hexUpper a) ∧
      Answers (h.hmacMd5Base64 key text) h (b64 a h.mde.cfg.padEn h.mde.cfg.padChar) ∧
      (2 ≤ alphabet.length → alphabet.length ≤ 256 →
        (∃ o, radixDigits alphabet d o ∧ Answers (h.md5ArbitraryBase alphabet text) h o) ∧
        (∃ o, radixDigits alphabet a o ∧ Answers (h.hmacMd5ArbitraryBase alphabet key text) h o)) ∧
      Answers (h.selftestByHex upper) h true ∧
      (h.mde.status.mode = .none → Answers h.selftestPasses h true)) ∧
    (h.mde.status.err = true →
      FailsWithAck (h.md5Hex upper text) ∧ FailsWithAck (h.md5Base64 padEn padChar text) ∧
      FailsWithAck (h.hmacMd5Hex key text) ∧ FailsWithAck (h.hmacMd5Base64 key text) ∧
      FailsWithAck (h.md5ArbitraryBase alphabet text) ∧ FailsWithAck (h.hmacMd5ArbitraryBase alphabet key text) ∧
      FailsWithAck (h.selftestByHex upper)) ∧
    (h.mde.status.err = true ∨ h.mde.status.mode ≠ .none → FailsWithAck h.selftestPasses)

/-- R265: the normaliser gives at most three bytes for each code unit. -/
def Obligations.NormalizeAtMostTriples : Prop :=
  ∀ u : List (BitVec 16), (normalize u).length ≤ 3 * u.length

/-- R270: decoding the hex rendering of bytes gives the bytes back, so that rendering them again gives the same
symbols. -/
def Obligations.HexRoundTripIdentity : Prop :=
  ∀ (upper : Bool) (d : List Byte),
    hexDecode (hexOf upper d) = some d ∧
    (hexDecode (hexOf upper d)).map (hexOf upper) = some (hexOf upper d)

/-! ## Whole-machine rules -/

/-- R24, R25: what changes BUSY and DONE, in every state from the first reset on (R310) and for every event. -/
def Obligations.BusyAndDoneWriters : Prop :=
  (∀ s t : State, s.rst ≠ .powerUp → step s = .next t → t.status.busy ≠ s.status.busy →
    (s.status.busy = false ∧ ∃ v, writesCmd v s ∧ verdict v s = .accept) ∨
    (s.status.busy = true ∧ (resets s ∨ ∃ i, completes i s))) ∧
  (∀ s t : State, s.rst ≠ .powerUp → step s = .next t → t.status.done ≠ s.status.done →
    (s.status.done = true ∧ (resets s ∨ ∃ v, writesCmd v s ∧ (verdict v s = .accept ∨ verdict v s = .ack))) ∨
    (s.status.done = false ∧ ∃ i, completes i s)) ∧
  (∀ (s : State) (v : Word), writesCmd v s → verdict v s = .accept →
    ∃ t, step s = .next t ∧ t.status.busy = true ∧ t.status.done = false) ∧
  (∀ (s : State) (i : Instr), completes i s →
    ∃ t, step s = .next t ∧ t.status.busy = false ∧ t.status.done = true) ∧
  (∀ s : State, resets s → ∃ t, step s = .next t ∧ t.status.busy = false ∧ t.status.done = false) ∧
  (∀ s : State, writesCmd 0x0000000E s → s.status.busy = false →
    ∃ t, step s = .next t ∧ t.status.busy = false ∧ t.status.done = false)

/-- R26: from the first reset on (R310) the error fields are written by the error-recording rule, by ACK and by reset only, and read 0
while ERR is 0. -/
def Obligations.ErrorFieldWriters : Prop :=
  (∀ s t : State, s.rst ≠ .powerUp → step s = .next t →
    sameErrors s t ∨ (∃ e : ErrCode, e ≠ .none ∧ sameErrors (errored e s) t) ∨
    ((resets s ∨ (writesCmd 0x0000000E s ∧ s.status.busy = false)) ∧
      t.status.err = false ∧ t.status.errOvf = false ∧ t.status.errCode = .none)) ∧
  (∀ s : State, Inv s → s.status.err = false →
    (readReg .status s).extractLsb' 4 4 = 0 ∧ (readReg .status s).getLsbD 3 = false) ∧
  (∀ s : State, ((readReg .status s).extractLsb' 4 4).toNat < 8)

/-- R312: reset is the only event that clears DVALID, ST_DONE, ST_PASS, DIGEST and ALPHA, and OVALID changes by ENC_*, a
BAD_RADIX rejection and reset only. DIGEST changes otherwise only at the completion of a final command or SELFTEST, and
ALPHA only by host writes. Before the first reset no rule applies (R310). -/
def Obligations.OnlyResetClearsResults : Prop :=
  ∀ s t : State, s.rst ≠ .powerUp → step s = .next t → ¬ resets s →
    (s.status.dvalid = true → t.status.dvalid = true) ∧
    (s.status.stDone = true → t.status.stDone = true) ∧
    (s.status.stPass = true → t.status.stPass = true) ∧
    (t.digest ≠ s.digest → completes .md5Final s ∨ completes .hmacFinal s ∨ completes .selftest s) ∧
    (t.alpha ≠ s.alpha → ∃ j : Fin 64, writesReg (0x200 + 4 * j.val) s) ∧
    (t.status.ovalid ≠ s.status.ovalid →
      completes .encHex s ∨ completes .encB64 s ∨ completes .encRadix s ∨
      ∃ v, writesCmd v s ∧ verdict v s = .reject .badRadix)

/-- R27, R30 to R35, R39: which events change each piece of session state and each register, from the first
reset on (R310). -/
def Obligations.RegisterWritersByEvent : Prop :=
  ∀ s t : State, s.rst ≠ .powerUp → step s = .next t → ¬ resets s →
    (t.cfg ≠ s.cfg → writesReg 0x00C s) ∧
    (t.dataIn ≠ s.dataIn → writesReg 0x010 s) ∧
    (t.alphaLen ≠ s.alphaLen → writesReg 0x014 s) ∧
    (t.out ≠ s.out → completes .encHex s ∨ completes .encB64 s ∨ completes .encRadix s) ∧
    (t.outLen ≠ s.outLen → completes .encHex s ∨ completes .encB64 s ∨ completes .encRadix s ∨
      ∃ v, writesCmd v s ∧ verdict v s = .reject .badRadix) ∧
    (t.status.mode ≠ s.status.mode →
      (completes .md5Init s ∧ t.status.mode = .md5) ∨ (completes .hmacKeyInit s ∧ t.status.mode = .key) ∨
      (completes .hmacStart s ∧ t.status.mode = .hmsg) ∨
      ((completes .md5Final s ∨ completes .hmacFinal s) ∧ t.status.mode = .none)) ∧
    (t.status.khash ≠ s.status.khash ∨ t.mlen ≠ s.mlen ∨ t.kbuf ≠ s.kbuf ∨ t.w ≠ s.w ∨ t.bcnt ≠ s.bcnt →
      ∃ i, completes i s)

/-- R125, R63, R66: from its acceptance to its completion a command shows nothing. However many host accesses come
between, rejected ones included, every register but STATUS reads as before, STATUS differs in BUSY, DONE and the error
fields only, and the completion leaves what it would have left at once, the error fields and the bus apart. -/
def Obligations.RunningCommandIsInvisible : Prop :=
  ∀ (s : State) (v : Word) (es : List Event),
    s.rst = .released → verdict v s = .accept → (∀ e ∈ es, plainAccess e = true) →
    ∃ (t : State) (i : Instr),
      run (.write 0x004 v :: es) s = some t ∧ decode (.cmd v) = .ok i ∧
      t = withErrors t { accepted v s with turn := t.turn } ∧
      (∀ r : Reg, r ≠ .status → readReg r t = readReg r s) ∧
      (s.seq.block = .idle → stepOn .engine t = exec i { t with turn := .engine }) ∧
      ∃ a b : State,
        exec i { accepted v s with turn := .engine } = .next a ∧
        exec i { t with turn := .engine } = .next b ∧ b = withErrors t a

/-- R289: the level of `irq` is a function of CONFIG and STATUS, and ACK, clearing IRQ_EN and reset lower it. Accepting a
command clears DONE but not ERR. Before the first reset irq is unspecified (R310). -/
def Obligations.IrqLevelAndClearing : Prop :=
  (∀ s : State, s.rst ≠ .powerUp → s.irq =
    ((readReg .config s).getLsbD 2 && ((readReg .status s).getLsbD 1 || (readReg .status s).getLsbD 2))) ∧
  (∀ s : State, s.rst ≠ .powerUp → s.status.busy = false → ∃ t, exec .ack s = .next t ∧ t.irq = false) ∧
  (∀ (s : State) (v : Word), s.rst = .released → s.status.busy = false → v.getLsbD 2 = false →
    ∃ t, stepOn (writeTo .config v) s = .next t ∧ t.irq = false) ∧
  (∀ s : State, s.rst ≠ .powerUp → ∃ t, exec .softReset s = .next t ∧ t.irq = false) ∧
  (∀ s : State, ∃ t, event .rstAssert s = .next t ∧ t.irq = false) ∧
  (∀ (s : State) (v : Word), s.rst = .released → verdict v s = .accept →
    ∃ t, stepOn (.write 0x004 v) s = .next t ∧ t.status.done = false ∧ t.status.err = s.status.err)

/-- The invariant holds after reset (its clauses on the position inside a compression, on OUT and on the form of the
alphabet RAM: log entries 3, 9 and 7). -/
def Obligations.InvariantAtReset : Prop := Inv State.reset

/-- Every step keeps the invariant (R23 to R41, R121, R143, R149, R311): the sequencer agrees with BUSY, a running command
stays acceptable, the error fields are consistent, the block buffer and the key buffer are zero beyond their bytes, MLEN
counts whole bytes and agrees with BCNT, no key outlives its session, and while OVALID is 1 OUT is zero beyond OUT_LEN
(only then: log entry 9). What it says of the position inside a compression is about the model's own field (log entry
3), and so is the canonical form of the alphabet RAM (log entry 7). -/
def Obligations.StepKeepsInvariant : Prop :=
  ∀ s t : State, Inv s → step s = .next t → Inv t

/-- R181, R126, R280: nothing fails once it runs. Every instruction answers a next state in every state, and every step
from a state of the invariant does, and so does every step before the first reset (R310, log entry 6). -/
def Obligations.NothingFailsOnceRunning : Prop :=
  (∀ (i : Instr) (s : State), ∃ t, exec i s = .next t) ∧
  (∀ s : State, Inv s → ∃ t, step s = .next t) ∧
  (∀ s : State, s.rst = .powerUp → ∃ t, step s = .next t)

/-- R323, R124: with no host access to come, MDE reaches BUSY = 0 and then stays as it is. From a state with a
compression in progress, which no run from reset reaches (log entry 3), that takes up to 66 turns of the engine, else
one. -/
def Obligations.IdleWithinBoundedTurns : Prop :=
  ∀ s : State, Inv s → s.rst = .released → s.inbox = [] →
    ∃ (n : Nat) (t : State), n ≤ 66 ∧ (s.seq.block = .idle → n ≤ 1) ∧
      steps n s = some t ∧ t.status.busy = false ∧ step t = .next t

/-- R100: the WAIT loop. A poll comes back to its read while BUSY is 1 and leaves the loop when BUSY is 0, and it changes
nothing of MDE but what the bus answered. -/
def Obligations.WaitLoopPolls : Prop :=
  ∀ (prog : List HostStmt) (h : HostState) (s : State),
    s.rst = .released → h.halted = false →
    prog[h.pc]? = (expandWait h.pc)[0]? → prog[h.pc + 1]? = (expandWait h.pc)[1]? →
    ∃ g : HostState, runHost prog [.host, .host] h s = .next (g, { s with rdata := readReg .status s }) ∧
      g.pc = (if s.status.busy then h.pc else h.pc + 2) ∧ g.halted = false
end

