-- ==== Sys2Proof/Laws/State.lean ====
section
/-!
SUPPORT. What each update of State does to each field: one lemma per field per update, true by rfl or by the lemma of
the update it calls, so that no proof unfolds a record update.
-/

namespace Sys2Proof.Machine

/-! ### recordError -/

@[simp] theorem recordError_status (e : ErrCode) (s : State) : (recordError e s).status = s.status.record e := rfl
@[simp] theorem recordError_cfg (e : ErrCode) (s : State) : (recordError e s).cfg = s.cfg := rfl
@[simp] theorem recordError_dataIn (e : ErrCode) (s : State) : (recordError e s).dataIn = s.dataIn := rfl
@[simp] theorem recordError_alphaLen (e : ErrCode) (s : State) : (recordError e s).alphaLen = s.alphaLen := rfl
@[simp] theorem recordError_mlen (e : ErrCode) (s : State) : (recordError e s).mlen = s.mlen := rfl
@[simp] theorem recordError_outLen (e : ErrCode) (s : State) : (recordError e s).outLen = s.outLen := rfl
@[simp] theorem recordError_out (e : ErrCode) (s : State) : (recordError e s).out = s.out := rfl
@[simp] theorem recordError_digest (e : ErrCode) (s : State) : (recordError e s).digest = s.digest := rfl
@[simp] theorem recordError_alpha (e : ErrCode) (s : State) : (recordError e s).alpha = s.alpha := rfl
@[simp] theorem recordError_hash (e : ErrCode) (s : State) : (recordError e s).hash = s.hash := rfl
@[simp] theorem recordError_saved (e : ErrCode) (s : State) : (recordError e s).saved = s.saved := rfl
@[simp] theorem recordError_w (e : ErrCode) (s : State) : (recordError e s).w = s.w := rfl
@[simp] theorem recordError_bcnt (e : ErrCode) (s : State) : (recordError e s).bcnt = s.bcnt := rfl
@[simp] theorem recordError_kbuf (e : ErrCode) (s : State) : (recordError e s).kbuf = s.kbuf := rfl
@[simp] theorem recordError_seq (e : ErrCode) (s : State) : (recordError e s).seq = s.seq := rfl
@[simp] theorem recordError_enc (e : ErrCode) (s : State) : (recordError e s).enc = s.enc := rfl
@[simp] theorem recordError_rst (e : ErrCode) (s : State) : (recordError e s).rst = s.rst := rfl
@[simp] theorem recordError_inbox (e : ErrCode) (s : State) : (recordError e s).inbox = s.inbox := rfl
@[simp] theorem recordError_turn (e : ErrCode) (s : State) : (recordError e s).turn = s.turn := rfl
@[simp] theorem recordError_rdata (e : ErrCode) (s : State) : (recordError e s).rdata = s.rdata := rfl
@[simp] theorem recordError_freeCount (e : ErrCode) (s : State) : (recordError e s).freeCount = s.freeCount := rfl

/-! ### clearStatus -/

@[simp] theorem clearStatus_status (s : State) : (clearStatus s).status = s.status.clear := rfl
@[simp] theorem clearStatus_cfg (s : State) : (clearStatus s).cfg = s.cfg := rfl
@[simp] theorem clearStatus_dataIn (s : State) : (clearStatus s).dataIn = s.dataIn := rfl
@[simp] theorem clearStatus_alphaLen (s : State) : (clearStatus s).alphaLen = s.alphaLen := rfl
@[simp] theorem clearStatus_mlen (s : State) : (clearStatus s).mlen = s.mlen := rfl
@[simp] theorem clearStatus_outLen (s : State) : (clearStatus s).outLen = s.outLen := rfl
@[simp] theorem clearStatus_out (s : State) : (clearStatus s).out = s.out := rfl
@[simp] theorem clearStatus_digest (s : State) : (clearStatus s).digest = s.digest := rfl
@[simp] theorem clearStatus_alpha (s : State) : (clearStatus s).alpha = s.alpha := rfl
@[simp] theorem clearStatus_hash (s : State) : (clearStatus s).hash = s.hash := rfl
@[simp] theorem clearStatus_saved (s : State) : (clearStatus s).saved = s.saved := rfl
@[simp] theorem clearStatus_w (s : State) : (clearStatus s).w = s.w := rfl
@[simp] theorem clearStatus_bcnt (s : State) : (clearStatus s).bcnt = s.bcnt := rfl
@[simp] theorem clearStatus_kbuf (s : State) : (clearStatus s).kbuf = s.kbuf := rfl
@[simp] theorem clearStatus_seq (s : State) : (clearStatus s).seq = s.seq := rfl
@[simp] theorem clearStatus_enc (s : State) : (clearStatus s).enc = s.enc := rfl
@[simp] theorem clearStatus_rst (s : State) : (clearStatus s).rst = s.rst := rfl
@[simp] theorem clearStatus_inbox (s : State) : (clearStatus s).inbox = s.inbox := rfl
@[simp] theorem clearStatus_turn (s : State) : (clearStatus s).turn = s.turn := rfl
@[simp] theorem clearStatus_rdata (s : State) : (clearStatus s).rdata = s.rdata := rfl
@[simp] theorem clearStatus_freeCount (s : State) : (clearStatus s).freeCount = s.freeCount := rfl

/-! ### accept -/

@[simp] theorem accept_status (v : Word) (s : State) :
    (accept v s).status = { s.status with busy := true, done := false } := rfl
@[simp] theorem accept_cfg (v : Word) (s : State) : (accept v s).cfg = s.cfg := rfl
@[simp] theorem accept_dataIn (v : Word) (s : State) : (accept v s).dataIn = s.dataIn := rfl
@[simp] theorem accept_alphaLen (v : Word) (s : State) : (accept v s).alphaLen = s.alphaLen := rfl
@[simp] theorem accept_mlen (v : Word) (s : State) : (accept v s).mlen = s.mlen := rfl
@[simp] theorem accept_outLen (v : Word) (s : State) : (accept v s).outLen = s.outLen := rfl
@[simp] theorem accept_out (v : Word) (s : State) : (accept v s).out = s.out := rfl
@[simp] theorem accept_digest (v : Word) (s : State) : (accept v s).digest = s.digest := rfl
@[simp] theorem accept_alpha (v : Word) (s : State) : (accept v s).alpha = s.alpha := rfl
@[simp] theorem accept_hash (v : Word) (s : State) : (accept v s).hash = s.hash := rfl
@[simp] theorem accept_saved (v : Word) (s : State) : (accept v s).saved = s.saved := rfl
@[simp] theorem accept_w (v : Word) (s : State) : (accept v s).w = s.w := rfl
@[simp] theorem accept_bcnt (v : Word) (s : State) : (accept v s).bcnt = s.bcnt := rfl
@[simp] theorem accept_kbuf (v : Word) (s : State) : (accept v s).kbuf = s.kbuf := rfl
@[simp] theorem accept_seq (v : Word) (s : State) : (accept v s).seq = { s.seq with phase := .run, pcmd := v } := rfl
@[simp] theorem accept_enc (v : Word) (s : State) : (accept v s).enc = s.enc := rfl
@[simp] theorem accept_rst (v : Word) (s : State) : (accept v s).rst = s.rst := rfl
@[simp] theorem accept_inbox (v : Word) (s : State) : (accept v s).inbox = s.inbox := rfl
@[simp] theorem accept_turn (v : Word) (s : State) : (accept v s).turn = s.turn := rfl
@[simp] theorem accept_rdata (v : Word) (s : State) : (accept v s).rdata = s.rdata := rfl
@[simp] theorem accept_freeCount (v : Word) (s : State) : (accept v s).freeCount = s.freeCount := rfl

/-! ### complete -/

@[simp] theorem complete_status (s : State) :
    (complete s).status = { s.status with busy := false, done := true } := rfl
@[simp] theorem complete_cfg (s : State) : (complete s).cfg = s.cfg := rfl
@[simp] theorem complete_dataIn (s : State) : (complete s).dataIn = s.dataIn := rfl
@[simp] theorem complete_alphaLen (s : State) : (complete s).alphaLen = s.alphaLen := rfl
@[simp] theorem complete_mlen (s : State) : (complete s).mlen = s.mlen := rfl
@[simp] theorem complete_outLen (s : State) : (complete s).outLen = s.outLen := rfl
@[simp] theorem complete_out (s : State) : (complete s).out = s.out := rfl
@[simp] theorem complete_digest (s : State) : (complete s).digest = s.digest := rfl
@[simp] theorem complete_alpha (s : State) : (complete s).alpha = s.alpha := rfl
@[simp] theorem complete_hash (s : State) : (complete s).hash = s.hash := rfl
@[simp] theorem complete_saved (s : State) : (complete s).saved = s.saved := rfl
@[simp] theorem complete_w (s : State) : (complete s).w = s.w := rfl
@[simp] theorem complete_bcnt (s : State) : (complete s).bcnt = s.bcnt := rfl
@[simp] theorem complete_kbuf (s : State) : (complete s).kbuf = s.kbuf := rfl
@[simp] theorem complete_seq (s : State) : (complete s).seq = { s.seq with phase := .idle, pcmd := 0 } := rfl
@[simp] theorem complete_enc (s : State) : (complete s).enc = s.enc := rfl
@[simp] theorem complete_rst (s : State) : (complete s).rst = s.rst := rfl
@[simp] theorem complete_inbox (s : State) : (complete s).inbox = s.inbox := rfl
@[simp] theorem complete_turn (s : State) : (complete s).turn = s.turn := rfl
@[simp] theorem complete_rdata (s : State) : (complete s).rdata = s.rdata := rfl
@[simp] theorem complete_freeCount (s : State) : (complete s).freeCount = s.freeCount := rfl

/-! ### putOut -/

@[simp] theorem putOut_status (o : Vector Byte 128) (n : Byte) (s : State) :
    (putOut o n s).status = { s.status with ovalid := true } := rfl
@[simp] theorem putOut_cfg (o : Vector Byte 128) (n : Byte) (s : State) : (putOut o n s).cfg = s.cfg := rfl
@[simp] theorem putOut_dataIn (o : Vector Byte 128) (n : Byte) (s : State) : (putOut o n s).dataIn = s.dataIn := rfl
@[simp] theorem putOut_alphaLen (o : Vector Byte 128) (n : Byte) (s : State) :
    (putOut o n s).alphaLen = s.alphaLen := rfl
@[simp] theorem putOut_mlen (o : Vector Byte 128) (n : Byte) (s : State) : (putOut o n s).mlen = s.mlen := rfl
@[simp] theorem putOut_outLen (o : Vector Byte 128) (n : Byte) (s : State) : (putOut o n s).outLen = n := rfl
@[simp] theorem putOut_out (o : Vector Byte 128) (n : Byte) (s : State) : (putOut o n s).out = o := rfl
@[simp] theorem putOut_digest (o : Vector Byte 128) (n : Byte) (s : State) : (putOut o n s).digest = s.digest := rfl
@[simp] theorem putOut_alpha (o : Vector Byte 128) (n : Byte) (s : State) : (putOut o n s).alpha = s.alpha := rfl
@[simp] theorem putOut_hash (o : Vector Byte 128) (n : Byte) (s : State) : (putOut o n s).hash = s.hash := rfl
@[simp] theorem putOut_saved (o : Vector Byte 128) (n : Byte) (s : State) : (putOut o n s).saved = s.saved := rfl
@[simp] theorem putOut_w (o : Vector Byte 128) (n : Byte) (s : State) : (putOut o n s).w = s.w := rfl
@[simp] theorem putOut_bcnt (o : Vector Byte 128) (n : Byte) (s : State) : (putOut o n s).bcnt = s.bcnt := rfl
@[simp] theorem putOut_kbuf (o : Vector Byte 128) (n : Byte) (s : State) : (putOut o n s).kbuf = s.kbuf := rfl
@[simp] theorem putOut_seq (o : Vector Byte 128) (n : Byte) (s : State) : (putOut o n s).seq = s.seq := rfl
@[simp] theorem putOut_enc (o : Vector Byte 128) (n : Byte) (s : State) : (putOut o n s).enc = s.enc := rfl
@[simp] theorem putOut_rst (o : Vector Byte 128) (n : Byte) (s : State) : (putOut o n s).rst = s.rst := rfl
@[simp] theorem putOut_inbox (o : Vector Byte 128) (n : Byte) (s : State) : (putOut o n s).inbox = s.inbox := rfl
@[simp] theorem putOut_turn (o : Vector Byte 128) (n : Byte) (s : State) : (putOut o n s).turn = s.turn := rfl
@[simp] theorem putOut_rdata (o : Vector Byte 128) (n : Byte) (s : State) : (putOut o n s).rdata = s.rdata := rfl
@[simp] theorem putOut_freeCount (o : Vector Byte 128) (n : Byte) (s : State) :
    (putOut o n s).freeCount = s.freeCount := rfl

/-! ### setSelftest -/

@[simp] theorem setSelftest_status (b : Bool) (s : State) :
    (setSelftest b s).status = { s.status with stDone := true, stPass := b } := rfl
@[simp] theorem setSelftest_cfg (b : Bool) (s : State) : (setSelftest b s).cfg = s.cfg := rfl
@[simp] theorem setSelftest_dataIn (b : Bool) (s : State) : (setSelftest b s).dataIn = s.dataIn := rfl
@[simp] theorem setSelftest_alphaLen (b : Bool) (s : State) : (setSelftest b s).alphaLen = s.alphaLen := rfl
@[simp] theorem setSelftest_mlen (b : Bool) (s : State) : (setSelftest b s).mlen = s.mlen := rfl
@[simp] theorem setSelftest_outLen (b : Bool) (s : State) : (setSelftest b s).outLen = s.outLen := rfl
@[simp] theorem setSelftest_out (b : Bool) (s : State) : (setSelftest b s).out = s.out := rfl
@[simp] theorem setSelftest_digest (b : Bool) (s : State) : (setSelftest b s).digest = s.digest := rfl
@[simp] theorem setSelftest_alpha (b : Bool) (s : State) : (setSelftest b s).alpha = s.alpha := rfl
@[simp] theorem setSelftest_hash (b : Bool) (s : State) : (setSelftest b s).hash = s.hash := rfl
@[simp] theorem setSelftest_saved (b : Bool) (s : State) : (setSelftest b s).saved = s.saved := rfl
@[simp] theorem setSelftest_w (b : Bool) (s : State) : (setSelftest b s).w = s.w := rfl
@[simp] theorem setSelftest_bcnt (b : Bool) (s : State) : (setSelftest b s).bcnt = s.bcnt := rfl
@[simp] theorem setSelftest_kbuf (b : Bool) (s : State) : (setSelftest b s).kbuf = s.kbuf := rfl
@[simp] theorem setSelftest_seq (b : Bool) (s : State) : (setSelftest b s).seq = s.seq := rfl
@[simp] theorem setSelftest_enc (b : Bool) (s : State) : (setSelftest b s).enc = s.enc := rfl
@[simp] theorem setSelftest_rst (b : Bool) (s : State) : (setSelftest b s).rst = s.rst := rfl
@[simp] theorem setSelftest_inbox (b : Bool) (s : State) : (setSelftest b s).inbox = s.inbox := rfl
@[simp] theorem setSelftest_turn (b : Bool) (s : State) : (setSelftest b s).turn = s.turn := rfl
@[simp] theorem setSelftest_rdata (b : Bool) (s : State) : (setSelftest b s).rdata = s.rdata := rfl
@[simp] theorem setSelftest_freeCount (b : Bool) (s : State) : (setSelftest b s).freeCount = s.freeCount := rfl

/-! ### setDigest -/

@[simp] theorem setDigest_status (d : Vector Byte 16) (s : State) :
    (setDigest d s).status = { s.status with dvalid := true } := rfl
@[simp] theorem setDigest_cfg (d : Vector Byte 16) (s : State) : (setDigest d s).cfg = s.cfg := rfl
@[simp] theorem setDigest_dataIn (d : Vector Byte 16) (s : State) : (setDigest d s).dataIn = s.dataIn := rfl
@[simp] theorem setDigest_alphaLen (d : Vector Byte 16) (s : State) : (setDigest d s).alphaLen = s.alphaLen := rfl
@[simp] theorem setDigest_mlen (d : Vector Byte 16) (s : State) : (setDigest d s).mlen = s.mlen := rfl
@[simp] theorem setDigest_outLen (d : Vector Byte 16) (s : State) : (setDigest d s).outLen = s.outLen := rfl
@[simp] theorem setDigest_out (d : Vector Byte 16) (s : State) : (setDigest d s).out = s.out := rfl
@[simp] theorem setDigest_digest (d : Vector Byte 16) (s : State) : (setDigest d s).digest = d := rfl
@[simp] theorem setDigest_alpha (d : Vector Byte 16) (s : State) : (setDigest d s).alpha = s.alpha := rfl
@[simp] theorem setDigest_hash (d : Vector Byte 16) (s : State) : (setDigest d s).hash = s.hash := rfl
@[simp] theorem setDigest_saved (d : Vector Byte 16) (s : State) : (setDigest d s).saved = s.saved := rfl
@[simp] theorem setDigest_w (d : Vector Byte 16) (s : State) : (setDigest d s).w = s.w := rfl
@[simp] theorem setDigest_bcnt (d : Vector Byte 16) (s : State) : (setDigest d s).bcnt = s.bcnt := rfl
@[simp] theorem setDigest_kbuf (d : Vector Byte 16) (s : State) : (setDigest d s).kbuf = s.kbuf := rfl
@[simp] theorem setDigest_seq (d : Vector Byte 16) (s : State) : (setDigest d s).seq = s.seq := rfl
@[simp] theorem setDigest_enc (d : Vector Byte 16) (s : State) : (setDigest d s).enc = s.enc := rfl
@[simp] theorem setDigest_rst (d : Vector Byte 16) (s : State) : (setDigest d s).rst = s.rst := rfl
@[simp] theorem setDigest_inbox (d : Vector Byte 16) (s : State) : (setDigest d s).inbox = s.inbox := rfl
@[simp] theorem setDigest_turn (d : Vector Byte 16) (s : State) : (setDigest d s).turn = s.turn := rfl
@[simp] theorem setDigest_rdata (d : Vector Byte 16) (s : State) : (setDigest d s).rdata = s.rdata := rfl
@[simp] theorem setDigest_freeCount (d : Vector Byte 16) (s : State) : (setDigest d s).freeCount = s.freeCount := rfl

/-! ### setMode -/

@[simp] theorem setMode_status (m : Mode) (s : State) : (setMode m s).status = { s.status with mode := m } := rfl
@[simp] theorem setMode_cfg (m : Mode) (s : State) : (setMode m s).cfg = s.cfg := rfl
@[simp] theorem setMode_dataIn (m : Mode) (s : State) : (setMode m s).dataIn = s.dataIn := rfl
@[simp] theorem setMode_alphaLen (m : Mode) (s : State) : (setMode m s).alphaLen = s.alphaLen := rfl
@[simp] theorem setMode_mlen (m : Mode) (s : State) : (setMode m s).mlen = s.mlen := rfl
@[simp] theorem setMode_outLen (m : Mode) (s : State) : (setMode m s).outLen = s.outLen := rfl
@[simp] theorem setMode_out (m : Mode) (s : State) : (setMode m s).out = s.out := rfl
@[simp] theorem setMode_digest (m : Mode) (s : State) : (setMode m s).digest = s.digest := rfl
@[simp] theorem setMode_alpha (m : Mode) (s : State) : (setMode m s).alpha = s.alpha := rfl
@[simp] theorem setMode_hash (m : Mode) (s : State) : (setMode m s).hash = s.hash := rfl
@[simp] theorem setMode_saved (m : Mode) (s : State) : (setMode m s).saved = s.saved := rfl
@[simp] theorem setMode_w (m : Mode) (s : State) : (setMode m s).w = s.w := rfl
@[simp] theorem setMode_bcnt (m : Mode) (s : State) : (setMode m s).bcnt = s.bcnt := rfl
@[simp] theorem setMode_kbuf (m : Mode) (s : State) : (setMode m s).kbuf = s.kbuf := rfl
@[simp] theorem setMode_seq (m : Mode) (s : State) : (setMode m s).seq = s.seq := rfl
@[simp] theorem setMode_enc (m : Mode) (s : State) : (setMode m s).enc = s.enc := rfl
@[simp] theorem setMode_rst (m : Mode) (s : State) : (setMode m s).rst = s.rst := rfl
@[simp] theorem setMode_inbox (m : Mode) (s : State) : (setMode m s).inbox = s.inbox := rfl
@[simp] theorem setMode_turn (m : Mode) (s : State) : (setMode m s).turn = s.turn := rfl
@[simp] theorem setMode_rdata (m : Mode) (s : State) : (setMode m s).rdata = s.rdata := rfl
@[simp] theorem setMode_freeCount (m : Mode) (s : State) : (setMode m s).freeCount = s.freeCount := rfl

/-! ### setKhash -/

@[simp] theorem setKhash_status (b : Bool) (s : State) : (setKhash b s).status = { s.status with khash := b } := rfl
@[simp] theorem setKhash_cfg (b : Bool) (s : State) : (setKhash b s).cfg = s.cfg := rfl
@[simp] theorem setKhash_dataIn (b : Bool) (s : State) : (setKhash b s).dataIn = s.dataIn := rfl
@[simp] theorem setKhash_alphaLen (b : Bool) (s : State) : (setKhash b s).alphaLen = s.alphaLen := rfl
@[simp] theorem setKhash_mlen (b : Bool) (s : State) : (setKhash b s).mlen = s.mlen := rfl
@[simp] theorem setKhash_outLen (b : Bool) (s : State) : (setKhash b s).outLen = s.outLen := rfl
@[simp] theorem setKhash_out (b : Bool) (s : State) : (setKhash b s).out = s.out := rfl
@[simp] theorem setKhash_digest (b : Bool) (s : State) : (setKhash b s).digest = s.digest := rfl
@[simp] theorem setKhash_alpha (b : Bool) (s : State) : (setKhash b s).alpha = s.alpha := rfl
@[simp] theorem setKhash_hash (b : Bool) (s : State) : (setKhash b s).hash = s.hash := rfl
@[simp] theorem setKhash_saved (b : Bool) (s : State) : (setKhash b s).saved = s.saved := rfl
@[simp] theorem setKhash_w (b : Bool) (s : State) : (setKhash b s).w = s.w := rfl
@[simp] theorem setKhash_bcnt (b : Bool) (s : State) : (setKhash b s).bcnt = s.bcnt := rfl
@[simp] theorem setKhash_kbuf (b : Bool) (s : State) : (setKhash b s).kbuf = s.kbuf := rfl
@[simp] theorem setKhash_seq (b : Bool) (s : State) : (setKhash b s).seq = s.seq := rfl
@[simp] theorem setKhash_enc (b : Bool) (s : State) : (setKhash b s).enc = s.enc := rfl
@[simp] theorem setKhash_rst (b : Bool) (s : State) : (setKhash b s).rst = s.rst := rfl
@[simp] theorem setKhash_inbox (b : Bool) (s : State) : (setKhash b s).inbox = s.inbox := rfl
@[simp] theorem setKhash_turn (b : Bool) (s : State) : (setKhash b s).turn = s.turn := rfl
@[simp] theorem setKhash_rdata (b : Bool) (s : State) : (setKhash b s).rdata = s.rdata := rfl
@[simp] theorem setKhash_freeCount (b : Bool) (s : State) : (setKhash b s).freeCount = s.freeCount := rfl

/-! ### setMlen -/

@[simp] theorem setMlen_status (v : BitVec 64) (s : State) : (setMlen v s).status = s.status := rfl
@[simp] theorem setMlen_cfg (v : BitVec 64) (s : State) : (setMlen v s).cfg = s.cfg := rfl
@[simp] theorem setMlen_dataIn (v : BitVec 64) (s : State) : (setMlen v s).dataIn = s.dataIn := rfl
@[simp] theorem setMlen_alphaLen (v : BitVec 64) (s : State) : (setMlen v s).alphaLen = s.alphaLen := rfl
@[simp] theorem setMlen_mlen (v : BitVec 64) (s : State) : (setMlen v s).mlen = v := rfl
@[simp] theorem setMlen_outLen (v : BitVec 64) (s : State) : (setMlen v s).outLen = s.outLen := rfl
@[simp] theorem setMlen_out (v : BitVec 64) (s : State) : (setMlen v s).out = s.out := rfl
@[simp] theorem setMlen_digest (v : BitVec 64) (s : State) : (setMlen v s).digest = s.digest := rfl
@[simp] theorem setMlen_alpha (v : BitVec 64) (s : State) : (setMlen v s).alpha = s.alpha := rfl
@[simp] theorem setMlen_hash (v : BitVec 64) (s : State) : (setMlen v s).hash = s.hash := rfl
@[simp] theorem setMlen_saved (v : BitVec 64) (s : State) : (setMlen v s).saved = s.saved := rfl
@[simp] theorem setMlen_w (v : BitVec 64) (s : State) : (setMlen v s).w = s.w := rfl
@[simp] theorem setMlen_bcnt (v : BitVec 64) (s : State) : (setMlen v s).bcnt = s.bcnt := rfl
@[simp] theorem setMlen_kbuf (v : BitVec 64) (s : State) : (setMlen v s).kbuf = s.kbuf := rfl
@[simp] theorem setMlen_seq (v : BitVec 64) (s : State) : (setMlen v s).seq = s.seq := rfl
@[simp] theorem setMlen_enc (v : BitVec 64) (s : State) : (setMlen v s).enc = s.enc := rfl
@[simp] theorem setMlen_rst (v : BitVec 64) (s : State) : (setMlen v s).rst = s.rst := rfl
@[simp] theorem setMlen_inbox (v : BitVec 64) (s : State) : (setMlen v s).inbox = s.inbox := rfl
@[simp] theorem setMlen_turn (v : BitVec 64) (s : State) : (setMlen v s).turn = s.turn := rfl
@[simp] theorem setMlen_rdata (v : BitVec 64) (s : State) : (setMlen v s).rdata = s.rdata := rfl
@[simp] theorem setMlen_freeCount (v : BitVec 64) (s : State) : (setMlen v s).freeCount = s.freeCount := rfl

/-! ### setHash -/

@[simp] theorem setHash_status (h k : Hash) (s : State) : (setHash h k s).status = s.status := rfl
@[simp] theorem setHash_cfg (h k : Hash) (s : State) : (setHash h k s).cfg = s.cfg := rfl
@[simp] theorem setHash_dataIn (h k : Hash) (s : State) : (setHash h k s).dataIn = s.dataIn := rfl
@[simp] theorem setHash_alphaLen (h k : Hash) (s : State) : (setHash h k s).alphaLen = s.alphaLen := rfl
@[simp] theorem setHash_mlen (h k : Hash) (s : State) : (setHash h k s).mlen = s.mlen := rfl
@[simp] theorem setHash_outLen (h k : Hash) (s : State) : (setHash h k s).outLen = s.outLen := rfl
@[simp] theorem setHash_out (h k : Hash) (s : State) : (setHash h k s).out = s.out := rfl
@[simp] theorem setHash_digest (h k : Hash) (s : State) : (setHash h k s).digest = s.digest := rfl
@[simp] theorem setHash_alpha (h k : Hash) (s : State) : (setHash h k s).alpha = s.alpha := rfl
@[simp] theorem setHash_hash (h k : Hash) (s : State) : (setHash h k s).hash = h := rfl
@[simp] theorem setHash_saved (h k : Hash) (s : State) : (setHash h k s).saved = k := rfl
@[simp] theorem setHash_w (h k : Hash) (s : State) : (setHash h k s).w = s.w := rfl
@[simp] theorem setHash_bcnt (h k : Hash) (s : State) : (setHash h k s).bcnt = s.bcnt := rfl
@[simp] theorem setHash_kbuf (h k : Hash) (s : State) : (setHash h k s).kbuf = s.kbuf := rfl
@[simp] theorem setHash_seq (h k : Hash) (s : State) : (setHash h k s).seq = s.seq := rfl
@[simp] theorem setHash_enc (h k : Hash) (s : State) : (setHash h k s).enc = s.enc := rfl
@[simp] theorem setHash_rst (h k : Hash) (s : State) : (setHash h k s).rst = s.rst := rfl
@[simp] theorem setHash_inbox (h k : Hash) (s : State) : (setHash h k s).inbox = s.inbox := rfl
@[simp] theorem setHash_turn (h k : Hash) (s : State) : (setHash h k s).turn = s.turn := rfl
@[simp] theorem setHash_rdata (h k : Hash) (s : State) : (setHash h k s).rdata = s.rdata := rfl
@[simp] theorem setHash_freeCount (h k : Hash) (s : State) : (setHash h k s).freeCount = s.freeCount := rfl

/-! ### setBlock -/

@[simp] theorem setBlock_status (w : Vector Word 16) (n : BitVec 7) (s : State) :
    (setBlock w n s).status = s.status := rfl
@[simp] theorem setBlock_cfg (w : Vector Word 16) (n : BitVec 7) (s : State) : (setBlock w n s).cfg = s.cfg := rfl
@[simp] theorem setBlock_dataIn (w : Vector Word 16) (n : BitVec 7) (s : State) :
    (setBlock w n s).dataIn = s.dataIn := rfl
@[simp] theorem setBlock_alphaLen (w : Vector Word 16) (n : BitVec 7) (s : State) :
    (setBlock w n s).alphaLen = s.alphaLen := rfl
@[simp] theorem setBlock_mlen (w : Vector Word 16) (n : BitVec 7) (s : State) : (setBlock w n s).mlen = s.mlen := rfl
@[simp] theorem setBlock_outLen (w : Vector Word 16) (n : BitVec 7) (s : State) :
    (setBlock w n s).outLen = s.outLen := rfl
@[simp] theorem setBlock_out (w : Vector Word 16) (n : BitVec 7) (s : State) : (setBlock w n s).out = s.out := rfl
@[simp] theorem setBlock_digest (w : Vector Word 16) (n : BitVec 7) (s : State) :
    (setBlock w n s).digest = s.digest := rfl
@[simp] theorem setBlock_alpha (w : Vector Word 16) (n : BitVec 7) (s : State) :
    (setBlock w n s).alpha = s.alpha := rfl
@[simp] theorem setBlock_hash (w : Vector Word 16) (n : BitVec 7) (s : State) : (setBlock w n s).hash = s.hash := rfl
@[simp] theorem setBlock_saved (w : Vector Word 16) (n : BitVec 7) (s : State) :
    (setBlock w n s).saved = s.saved := rfl
@[simp] theorem setBlock_w (w : Vector Word 16) (n : BitVec 7) (s : State) : (setBlock w n s).w = w := rfl
@[simp] theorem setBlock_bcnt (w : Vector Word 16) (n : BitVec 7) (s : State) : (setBlock w n s).bcnt = n := rfl
@[simp] theorem setBlock_kbuf (w : Vector Word 16) (n : BitVec 7) (s : State) : (setBlock w n s).kbuf = s.kbuf := rfl
@[simp] theorem setBlock_seq (w : Vector Word 16) (n : BitVec 7) (s : State) : (setBlock w n s).seq = s.seq := rfl
@[simp] theorem setBlock_enc (w : Vector Word 16) (n : BitVec 7) (s : State) : (setBlock w n s).enc = s.enc := rfl
@[simp] theorem setBlock_rst (w : Vector Word 16) (n : BitVec 7) (s : State) : (setBlock w n s).rst = s.rst := rfl
@[simp] theorem setBlock_inbox (w : Vector Word 16) (n : BitVec 7) (s : State) :
    (setBlock w n s).inbox = s.inbox := rfl
@[simp] theorem setBlock_turn (w : Vector Word 16) (n : BitVec 7) (s : State) : (setBlock w n s).turn = s.turn := rfl
@[simp] theorem setBlock_rdata (w : Vector Word 16) (n : BitVec 7) (s : State) :
    (setBlock w n s).rdata = s.rdata := rfl
@[simp] theorem setBlock_freeCount (w : Vector Word 16) (n : BitVec 7) (s : State) :
    (setBlock w n s).freeCount = s.freeCount := rfl

/-! ### setSeq -/

@[simp] theorem setSeq_status (q : Seq) (s : State) : (setSeq q s).status = s.status := rfl
@[simp] theorem setSeq_cfg (q : Seq) (s : State) : (setSeq q s).cfg = s.cfg := rfl
@[simp] theorem setSeq_dataIn (q : Seq) (s : State) : (setSeq q s).dataIn = s.dataIn := rfl
@[simp] theorem setSeq_alphaLen (q : Seq) (s : State) : (setSeq q s).alphaLen = s.alphaLen := rfl
@[simp] theorem setSeq_mlen (q : Seq) (s : State) : (setSeq q s).mlen = s.mlen := rfl
@[simp] theorem setSeq_outLen (q : Seq) (s : State) : (setSeq q s).outLen = s.outLen := rfl
@[simp] theorem setSeq_out (q : Seq) (s : State) : (setSeq q s).out = s.out := rfl
@[simp] theorem setSeq_digest (q : Seq) (s : State) : (setSeq q s).digest = s.digest := rfl
@[simp] theorem setSeq_alpha (q : Seq) (s : State) : (setSeq q s).alpha = s.alpha := rfl
@[simp] theorem setSeq_hash (q : Seq) (s : State) : (setSeq q s).hash = s.hash := rfl
@[simp] theorem setSeq_saved (q : Seq) (s : State) : (setSeq q s).saved = s.saved := rfl
@[simp] theorem setSeq_w (q : Seq) (s : State) : (setSeq q s).w = s.w := rfl
@[simp] theorem setSeq_bcnt (q : Seq) (s : State) : (setSeq q s).bcnt = s.bcnt := rfl
@[simp] theorem setSeq_kbuf (q : Seq) (s : State) : (setSeq q s).kbuf = s.kbuf := rfl
@[simp] theorem setSeq_seq (q : Seq) (s : State) : (setSeq q s).seq = q := rfl
@[simp] theorem setSeq_enc (q : Seq) (s : State) : (setSeq q s).enc = s.enc := rfl
@[simp] theorem setSeq_rst (q : Seq) (s : State) : (setSeq q s).rst = s.rst := rfl
@[simp] theorem setSeq_inbox (q : Seq) (s : State) : (setSeq q s).inbox = s.inbox := rfl
@[simp] theorem setSeq_turn (q : Seq) (s : State) : (setSeq q s).turn = s.turn := rfl
@[simp] theorem setSeq_rdata (q : Seq) (s : State) : (setSeq q s).rdata = s.rdata := rfl
@[simp] theorem setSeq_freeCount (q : Seq) (s : State) : (setSeq q s).freeCount = s.freeCount := rfl

/-! ### setEnc -/

@[simp] theorem setEnc_status (e : EncWork) (s : State) : (setEnc e s).status = s.status := rfl
@[simp] theorem setEnc_cfg (e : EncWork) (s : State) : (setEnc e s).cfg = s.cfg := rfl
@[simp] theorem setEnc_dataIn (e : EncWork) (s : State) : (setEnc e s).dataIn = s.dataIn := rfl
@[simp] theorem setEnc_alphaLen (e : EncWork) (s : State) : (setEnc e s).alphaLen = s.alphaLen := rfl
@[simp] theorem setEnc_mlen (e : EncWork) (s : State) : (setEnc e s).mlen = s.mlen := rfl
@[simp] theorem setEnc_outLen (e : EncWork) (s : State) : (setEnc e s).outLen = s.outLen := rfl
@[simp] theorem setEnc_out (e : EncWork) (s : State) : (setEnc e s).out = s.out := rfl
@[simp] theorem setEnc_digest (e : EncWork) (s : State) : (setEnc e s).digest = s.digest := rfl
@[simp] theorem setEnc_alpha (e : EncWork) (s : State) : (setEnc e s).alpha = s.alpha := rfl
@[simp] theorem setEnc_hash (e : EncWork) (s : State) : (setEnc e s).hash = s.hash := rfl
@[simp] theorem setEnc_saved (e : EncWork) (s : State) : (setEnc e s).saved = s.saved := rfl
@[simp] theorem setEnc_w (e : EncWork) (s : State) : (setEnc e s).w = s.w := rfl
@[simp] theorem setEnc_bcnt (e : EncWork) (s : State) : (setEnc e s).bcnt = s.bcnt := rfl
@[simp] theorem setEnc_kbuf (e : EncWork) (s : State) : (setEnc e s).kbuf = s.kbuf := rfl
@[simp] theorem setEnc_seq (e : EncWork) (s : State) : (setEnc e s).seq = s.seq := rfl
@[simp] theorem setEnc_enc (e : EncWork) (s : State) : (setEnc e s).enc = e := rfl
@[simp] theorem setEnc_rst (e : EncWork) (s : State) : (setEnc e s).rst = s.rst := rfl
@[simp] theorem setEnc_inbox (e : EncWork) (s : State) : (setEnc e s).inbox = s.inbox := rfl
@[simp] theorem setEnc_turn (e : EncWork) (s : State) : (setEnc e s).turn = s.turn := rfl
@[simp] theorem setEnc_rdata (e : EncWork) (s : State) : (setEnc e s).rdata = s.rdata := rfl
@[simp] theorem setEnc_freeCount (e : EncWork) (s : State) : (setEnc e s).freeCount = s.freeCount := rfl

/-! ### setKbuf -/

@[simp] theorem setKbuf_status (k : Vector Byte 64) (s : State) : (setKbuf k s).status = s.status := rfl
@[simp] theorem setKbuf_cfg (k : Vector Byte 64) (s : State) : (setKbuf k s).cfg = s.cfg := rfl
@[simp] theorem setKbuf_dataIn (k : Vector Byte 64) (s : State) : (setKbuf k s).dataIn = s.dataIn := rfl
@[simp] theorem setKbuf_alphaLen (k : Vector Byte 64) (s : State) : (setKbuf k s).alphaLen = s.alphaLen := rfl
@[simp] theorem setKbuf_mlen (k : Vector Byte 64) (s : State) : (setKbuf k s).mlen = s.mlen := rfl
@[simp] theorem setKbuf_outLen (k : Vector Byte 64) (s : State) : (setKbuf k s).outLen = s.outLen := rfl
@[simp] theorem setKbuf_out (k : Vector Byte 64) (s : State) : (setKbuf k s).out = s.out := rfl
@[simp] theorem setKbuf_digest (k : Vector Byte 64) (s : State) : (setKbuf k s).digest = s.digest := rfl
@[simp] theorem setKbuf_alpha (k : Vector Byte 64) (s : State) : (setKbuf k s).alpha = s.alpha := rfl
@[simp] theorem setKbuf_hash (k : Vector Byte 64) (s : State) : (setKbuf k s).hash = s.hash := rfl
@[simp] theorem setKbuf_saved (k : Vector Byte 64) (s : State) : (setKbuf k s).saved = s.saved := rfl
@[simp] theorem setKbuf_w (k : Vector Byte 64) (s : State) : (setKbuf k s).w = s.w := rfl
@[simp] theorem setKbuf_bcnt (k : Vector Byte 64) (s : State) : (setKbuf k s).bcnt = s.bcnt := rfl
@[simp] theorem setKbuf_kbuf (k : Vector Byte 64) (s : State) : (setKbuf k s).kbuf = k := rfl
@[simp] theorem setKbuf_seq (k : Vector Byte 64) (s : State) : (setKbuf k s).seq = s.seq := rfl
@[simp] theorem setKbuf_enc (k : Vector Byte 64) (s : State) : (setKbuf k s).enc = s.enc := rfl
@[simp] theorem setKbuf_rst (k : Vector Byte 64) (s : State) : (setKbuf k s).rst = s.rst := rfl
@[simp] theorem setKbuf_inbox (k : Vector Byte 64) (s : State) : (setKbuf k s).inbox = s.inbox := rfl
@[simp] theorem setKbuf_turn (k : Vector Byte 64) (s : State) : (setKbuf k s).turn = s.turn := rfl
@[simp] theorem setKbuf_rdata (k : Vector Byte 64) (s : State) : (setKbuf k s).rdata = s.rdata := rfl
@[simp] theorem setKbuf_freeCount (k : Vector Byte 64) (s : State) : (setKbuf k s).freeCount = s.freeCount := rfl

/-! ### loadIv -/

@[simp] theorem loadIv_status (s : State) : (loadIv s).status = s.status := rfl
@[simp] theorem loadIv_cfg (s : State) : (loadIv s).cfg = s.cfg := rfl
@[simp] theorem loadIv_dataIn (s : State) : (loadIv s).dataIn = s.dataIn := rfl
@[simp] theorem loadIv_alphaLen (s : State) : (loadIv s).alphaLen = s.alphaLen := rfl
@[simp] theorem loadIv_mlen (s : State) : (loadIv s).mlen = s.mlen := rfl
@[simp] theorem loadIv_outLen (s : State) : (loadIv s).outLen = s.outLen := rfl
@[simp] theorem loadIv_out (s : State) : (loadIv s).out = s.out := rfl
@[simp] theorem loadIv_digest (s : State) : (loadIv s).digest = s.digest := rfl
@[simp] theorem loadIv_alpha (s : State) : (loadIv s).alpha = s.alpha := rfl
@[simp] theorem loadIv_hash (s : State) : (loadIv s).hash = Hash.iv := rfl
@[simp] theorem loadIv_saved (s : State) : (loadIv s).saved = s.saved := rfl
@[simp] theorem loadIv_w (s : State) : (loadIv s).w = s.w := rfl
@[simp] theorem loadIv_bcnt (s : State) : (loadIv s).bcnt = s.bcnt := rfl
@[simp] theorem loadIv_kbuf (s : State) : (loadIv s).kbuf = s.kbuf := rfl
@[simp] theorem loadIv_seq (s : State) : (loadIv s).seq = s.seq := rfl
@[simp] theorem loadIv_enc (s : State) : (loadIv s).enc = s.enc := rfl
@[simp] theorem loadIv_rst (s : State) : (loadIv s).rst = s.rst := rfl
@[simp] theorem loadIv_inbox (s : State) : (loadIv s).inbox = s.inbox := rfl
@[simp] theorem loadIv_turn (s : State) : (loadIv s).turn = s.turn := rfl
@[simp] theorem loadIv_rdata (s : State) : (loadIv s).rdata = s.rdata := rfl
@[simp] theorem loadIv_freeCount (s : State) : (loadIv s).freeCount = s.freeCount := rfl

/-! ### setOut -/

@[simp] theorem setOut_status (o : List Byte) (s : State) :
    (setOut o s).status = { s.status with ovalid := true } := putOut_status _ _ _
@[simp] theorem setOut_cfg (o : List Byte) (s : State) : (setOut o s).cfg = s.cfg := putOut_cfg _ _ _
@[simp] theorem setOut_dataIn (o : List Byte) (s : State) : (setOut o s).dataIn = s.dataIn := putOut_dataIn _ _ _
@[simp] theorem setOut_alphaLen (o : List Byte) (s : State) :
    (setOut o s).alphaLen = s.alphaLen := putOut_alphaLen _ _ _
@[simp] theorem setOut_mlen (o : List Byte) (s : State) : (setOut o s).mlen = s.mlen := putOut_mlen _ _ _
@[simp] theorem setOut_outLen (o : List Byte) (s : State) :
    (setOut o s).outLen = BitVec.ofNat 8 o.length := putOut_outLen _ _ _
@[simp] theorem setOut_out (o : List Byte) (s : State) : (setOut o s).out = toBytes 128 o := putOut_out _ _ _
@[simp] theorem setOut_digest (o : List Byte) (s : State) : (setOut o s).digest = s.digest := putOut_digest _ _ _
@[simp] theorem setOut_alpha (o : List Byte) (s : State) : (setOut o s).alpha = s.alpha := putOut_alpha _ _ _
@[simp] theorem setOut_hash (o : List Byte) (s : State) : (setOut o s).hash = s.hash := putOut_hash _ _ _
@[simp] theorem setOut_saved (o : List Byte) (s : State) : (setOut o s).saved = s.saved := putOut_saved _ _ _
@[simp] theorem setOut_w (o : List Byte) (s : State) : (setOut o s).w = s.w := putOut_w _ _ _
@[simp] theorem setOut_bcnt (o : List Byte) (s : State) : (setOut o s).bcnt = s.bcnt := putOut_bcnt _ _ _
@[simp] theorem setOut_kbuf (o : List Byte) (s : State) : (setOut o s).kbuf = s.kbuf := putOut_kbuf _ _ _
@[simp] theorem setOut_seq (o : List Byte) (s : State) : (setOut o s).seq = s.seq := putOut_seq _ _ _
@[simp] theorem setOut_enc (o : List Byte) (s : State) : (setOut o s).enc = s.enc := putOut_enc _ _ _
@[simp] theorem setOut_rst (o : List Byte) (s : State) : (setOut o s).rst = s.rst := putOut_rst _ _ _
@[simp] theorem setOut_inbox (o : List Byte) (s : State) : (setOut o s).inbox = s.inbox := putOut_inbox _ _ _
@[simp] theorem setOut_turn (o : List Byte) (s : State) : (setOut o s).turn = s.turn := putOut_turn _ _ _
@[simp] theorem setOut_rdata (o : List Byte) (s : State) : (setOut o s).rdata = s.rdata := putOut_rdata _ _ _
@[simp] theorem setOut_freeCount (o : List Byte) (s : State) :
    (setOut o s).freeCount = s.freeCount := putOut_freeCount _ _ _

/-! ### clearKbuf -/

@[simp] theorem clearKbuf_status (s : State) : (clearKbuf s).status = s.status := setKbuf_status _ _
@[simp] theorem clearKbuf_cfg (s : State) : (clearKbuf s).cfg = s.cfg := setKbuf_cfg _ _
@[simp] theorem clearKbuf_dataIn (s : State) : (clearKbuf s).dataIn = s.dataIn := setKbuf_dataIn _ _
@[simp] theorem clearKbuf_alphaLen (s : State) : (clearKbuf s).alphaLen = s.alphaLen := setKbuf_alphaLen _ _
@[simp] theorem clearKbuf_mlen (s : State) : (clearKbuf s).mlen = s.mlen := setKbuf_mlen _ _
@[simp] theorem clearKbuf_outLen (s : State) : (clearKbuf s).outLen = s.outLen := setKbuf_outLen _ _
@[simp] theorem clearKbuf_out (s : State) : (clearKbuf s).out = s.out := setKbuf_out _ _
@[simp] theorem clearKbuf_digest (s : State) : (clearKbuf s).digest = s.digest := setKbuf_digest _ _
@[simp] theorem clearKbuf_alpha (s : State) : (clearKbuf s).alpha = s.alpha := setKbuf_alpha _ _
@[simp] theorem clearKbuf_hash (s : State) : (clearKbuf s).hash = s.hash := setKbuf_hash _ _
@[simp] theorem clearKbuf_saved (s : State) : (clearKbuf s).saved = s.saved := setKbuf_saved _ _
@[simp] theorem clearKbuf_w (s : State) : (clearKbuf s).w = s.w := setKbuf_w _ _
@[simp] theorem clearKbuf_bcnt (s : State) : (clearKbuf s).bcnt = s.bcnt := setKbuf_bcnt _ _
@[simp] theorem clearKbuf_kbuf (s : State) : (clearKbuf s).kbuf = Vector.replicate 64 0 := setKbuf_kbuf _ _
@[simp] theorem clearKbuf_seq (s : State) : (clearKbuf s).seq = s.seq := setKbuf_seq _ _
@[simp] theorem clearKbuf_enc (s : State) : (clearKbuf s).enc = s.enc := setKbuf_enc _ _
@[simp] theorem clearKbuf_rst (s : State) : (clearKbuf s).rst = s.rst := setKbuf_rst _ _
@[simp] theorem clearKbuf_inbox (s : State) : (clearKbuf s).inbox = s.inbox := setKbuf_inbox _ _
@[simp] theorem clearKbuf_turn (s : State) : (clearKbuf s).turn = s.turn := setKbuf_turn _ _
@[simp] theorem clearKbuf_rdata (s : State) : (clearKbuf s).rdata = s.rdata := setKbuf_rdata _ _
@[simp] theorem clearKbuf_freeCount (s : State) : (clearKbuf s).freeCount = s.freeCount := setKbuf_freeCount _ _

/-! ### keyStore -/

@[simp] theorem keyStore_status (b : Byte) (s : State) : (keyStore b s).status = s.status := by simp [keyStore]
@[simp] theorem keyStore_cfg (b : Byte) (s : State) : (keyStore b s).cfg = s.cfg := by simp [keyStore]
@[simp] theorem keyStore_dataIn (b : Byte) (s : State) : (keyStore b s).dataIn = s.dataIn := by simp [keyStore]
@[simp] theorem keyStore_alphaLen (b : Byte) (s : State) : (keyStore b s).alphaLen = s.alphaLen := by simp [keyStore]
@[simp] theorem keyStore_mlen (b : Byte) (s : State) : (keyStore b s).mlen = s.mlen + 8 := by simp [keyStore]
@[simp] theorem keyStore_outLen (b : Byte) (s : State) : (keyStore b s).outLen = s.outLen := by simp [keyStore]
@[simp] theorem keyStore_out (b : Byte) (s : State) : (keyStore b s).out = s.out := by simp [keyStore]
@[simp] theorem keyStore_digest (b : Byte) (s : State) : (keyStore b s).digest = s.digest := by simp [keyStore]
@[simp] theorem keyStore_alpha (b : Byte) (s : State) : (keyStore b s).alpha = s.alpha := by simp [keyStore]
@[simp] theorem keyStore_hash (b : Byte) (s : State) : (keyStore b s).hash = s.hash := by simp [keyStore]
@[simp] theorem keyStore_saved (b : Byte) (s : State) : (keyStore b s).saved = s.saved := by simp [keyStore]
@[simp] theorem keyStore_w (b : Byte) (s : State) : (keyStore b s).w = s.w := by simp [keyStore]
@[simp] theorem keyStore_bcnt (b : Byte) (s : State) : (keyStore b s).bcnt = s.bcnt := by simp [keyStore]
@[simp] theorem keyStore_kbuf (b : Byte) (s : State) :
    (keyStore b s).kbuf = s.kbuf.setIfInBounds (s.mlen.toNat / 8) b := by simp [keyStore]
@[simp] theorem keyStore_seq (b : Byte) (s : State) : (keyStore b s).seq = s.seq := by simp [keyStore]
@[simp] theorem keyStore_enc (b : Byte) (s : State) : (keyStore b s).enc = s.enc := by simp [keyStore]
@[simp] theorem keyStore_rst (b : Byte) (s : State) : (keyStore b s).rst = s.rst := by simp [keyStore]
@[simp] theorem keyStore_inbox (b : Byte) (s : State) : (keyStore b s).inbox = s.inbox := by simp [keyStore]
@[simp] theorem keyStore_turn (b : Byte) (s : State) : (keyStore b s).turn = s.turn := by simp [keyStore]
@[simp] theorem keyStore_rdata (b : Byte) (s : State) : (keyStore b s).rdata = s.rdata := by simp [keyStore]
@[simp] theorem keyStore_freeCount (b : Byte) (s : State) :
    (keyStore b s).freeCount = s.freeCount := by simp [keyStore]

/-! ### clearBlock -/

@[simp] theorem clearBlock_status (s : State) : (clearBlock s).status = s.status := setBlock_status _ _ _
@[simp] theorem clearBlock_cfg (s : State) : (clearBlock s).cfg = s.cfg := setBlock_cfg _ _ _
@[simp] theorem clearBlock_dataIn (s : State) : (clearBlock s).dataIn = s.dataIn := setBlock_dataIn _ _ _
@[simp] theorem clearBlock_alphaLen (s : State) : (clearBlock s).alphaLen = s.alphaLen := setBlock_alphaLen _ _ _
@[simp] theorem clearBlock_mlen (s : State) : (clearBlock s).mlen = s.mlen := setBlock_mlen _ _ _
@[simp] theorem clearBlock_outLen (s : State) : (clearBlock s).outLen = s.outLen := setBlock_outLen _ _ _
@[simp] theorem clearBlock_out (s : State) : (clearBlock s).out = s.out := setBlock_out _ _ _
@[simp] theorem clearBlock_digest (s : State) : (clearBlock s).digest = s.digest := setBlock_digest _ _ _
@[simp] theorem clearBlock_alpha (s : State) : (clearBlock s).alpha = s.alpha := setBlock_alpha _ _ _
@[simp] theorem clearBlock_hash (s : State) : (clearBlock s).hash = s.hash := setBlock_hash _ _ _
@[simp] theorem clearBlock_saved (s : State) : (clearBlock s).saved = s.saved := setBlock_saved _ _ _
@[simp] theorem clearBlock_w (s : State) : (clearBlock s).w = Vector.replicate 16 0 := setBlock_w _ _ _
@[simp] theorem clearBlock_bcnt (s : State) : (clearBlock s).bcnt = 0 := setBlock_bcnt _ _ _
@[simp] theorem clearBlock_kbuf (s : State) : (clearBlock s).kbuf = s.kbuf := setBlock_kbuf _ _ _
@[simp] theorem clearBlock_seq (s : State) : (clearBlock s).seq = s.seq := setBlock_seq _ _ _
@[simp] theorem clearBlock_enc (s : State) : (clearBlock s).enc = s.enc := setBlock_enc _ _ _
@[simp] theorem clearBlock_rst (s : State) : (clearBlock s).rst = s.rst := setBlock_rst _ _ _
@[simp] theorem clearBlock_inbox (s : State) : (clearBlock s).inbox = s.inbox := setBlock_inbox _ _ _
@[simp] theorem clearBlock_turn (s : State) : (clearBlock s).turn = s.turn := setBlock_turn _ _ _
@[simp] theorem clearBlock_rdata (s : State) : (clearBlock s).rdata = s.rdata := setBlock_rdata _ _ _
@[simp] theorem clearBlock_freeCount (s : State) : (clearBlock s).freeCount = s.freeCount := setBlock_freeCount _ _ _

/-! ### compress -/

@[simp] theorem compress_status (x : BlockSrc) (s : State) : (compress x s).status = s.status := setHash_status _ _ _
@[simp] theorem compress_cfg (x : BlockSrc) (s : State) : (compress x s).cfg = s.cfg := setHash_cfg _ _ _
@[simp] theorem compress_dataIn (x : BlockSrc) (s : State) : (compress x s).dataIn = s.dataIn := setHash_dataIn _ _ _
@[simp] theorem compress_alphaLen (x : BlockSrc) (s : State) :
    (compress x s).alphaLen = s.alphaLen := setHash_alphaLen _ _ _
@[simp] theorem compress_mlen (x : BlockSrc) (s : State) : (compress x s).mlen = s.mlen := setHash_mlen _ _ _
@[simp] theorem compress_outLen (x : BlockSrc) (s : State) : (compress x s).outLen = s.outLen := setHash_outLen _ _ _
@[simp] theorem compress_out (x : BlockSrc) (s : State) : (compress x s).out = s.out := setHash_out _ _ _
@[simp] theorem compress_digest (x : BlockSrc) (s : State) : (compress x s).digest = s.digest := setHash_digest _ _ _
@[simp] theorem compress_alpha (x : BlockSrc) (s : State) : (compress x s).alpha = s.alpha := setHash_alpha _ _ _
@[simp] theorem compress_hash (x : BlockSrc) (s : State) :
    (compress x s).hash = compressHash (blockWords x s) s.hash := setHash_hash _ _ _
@[simp] theorem compress_saved (x : BlockSrc) (s : State) : (compress x s).saved = s.hash := setHash_saved _ _ _
@[simp] theorem compress_w (x : BlockSrc) (s : State) : (compress x s).w = s.w := setHash_w _ _ _
@[simp] theorem compress_bcnt (x : BlockSrc) (s : State) : (compress x s).bcnt = s.bcnt := setHash_bcnt _ _ _
@[simp] theorem compress_kbuf (x : BlockSrc) (s : State) : (compress x s).kbuf = s.kbuf := setHash_kbuf _ _ _
@[simp] theorem compress_seq (x : BlockSrc) (s : State) : (compress x s).seq = s.seq := setHash_seq _ _ _
@[simp] theorem compress_enc (x : BlockSrc) (s : State) : (compress x s).enc = s.enc := setHash_enc _ _ _
@[simp] theorem compress_rst (x : BlockSrc) (s : State) : (compress x s).rst = s.rst := setHash_rst _ _ _
@[simp] theorem compress_inbox (x : BlockSrc) (s : State) : (compress x s).inbox = s.inbox := setHash_inbox _ _ _
@[simp] theorem compress_turn (x : BlockSrc) (s : State) : (compress x s).turn = s.turn := setHash_turn _ _ _
@[simp] theorem compress_rdata (x : BlockSrc) (s : State) : (compress x s).rdata = s.rdata := setHash_rdata _ _ _
@[simp] theorem compress_freeCount (x : BlockSrc) (s : State) :
    (compress x s).freeCount = s.freeCount := setHash_freeCount _ _ _

/-! ### putByte -/

@[simp] theorem putByte_status (b : Byte) (s : State) : (putByte b s).status = s.status := setBlock_status _ _ _
@[simp] theorem putByte_cfg (b : Byte) (s : State) : (putByte b s).cfg = s.cfg := setBlock_cfg _ _ _
@[simp] theorem putByte_dataIn (b : Byte) (s : State) : (putByte b s).dataIn = s.dataIn := setBlock_dataIn _ _ _
@[simp] theorem putByte_alphaLen (b : Byte) (s : State) :
    (putByte b s).alphaLen = s.alphaLen := setBlock_alphaLen _ _ _
@[simp] theorem putByte_mlen (b : Byte) (s : State) : (putByte b s).mlen = s.mlen := setBlock_mlen _ _ _
@[simp] theorem putByte_outLen (b : Byte) (s : State) : (putByte b s).outLen = s.outLen := setBlock_outLen _ _ _
@[simp] theorem putByte_out (b : Byte) (s : State) : (putByte b s).out = s.out := setBlock_out _ _ _
@[simp] theorem putByte_digest (b : Byte) (s : State) : (putByte b s).digest = s.digest := setBlock_digest _ _ _
@[simp] theorem putByte_alpha (b : Byte) (s : State) : (putByte b s).alpha = s.alpha := setBlock_alpha _ _ _
@[simp] theorem putByte_hash (b : Byte) (s : State) : (putByte b s).hash = s.hash := setBlock_hash _ _ _
@[simp] theorem putByte_saved (b : Byte) (s : State) : (putByte b s).saved = s.saved := setBlock_saved _ _ _
@[simp] theorem putByte_w (b : Byte) (s : State) :
    (putByte b s).w = s.w.setIfInBounds (s.bcnt.toNat / 4)
      (wordAt s.w (s.bcnt.toNat / 4) ||| (b.setWidth 32 <<< (8 * (s.bcnt.toNat % 4)))) := setBlock_w _ _ _
@[simp] theorem putByte_bcnt (b : Byte) (s : State) : (putByte b s).bcnt = s.bcnt + 1 := setBlock_bcnt _ _ _
@[simp] theorem putByte_kbuf (b : Byte) (s : State) : (putByte b s).kbuf = s.kbuf := setBlock_kbuf _ _ _
@[simp] theorem putByte_seq (b : Byte) (s : State) : (putByte b s).seq = s.seq := setBlock_seq _ _ _
@[simp] theorem putByte_enc (b : Byte) (s : State) : (putByte b s).enc = s.enc := setBlock_enc _ _ _
@[simp] theorem putByte_rst (b : Byte) (s : State) : (putByte b s).rst = s.rst := setBlock_rst _ _ _
@[simp] theorem putByte_inbox (b : Byte) (s : State) : (putByte b s).inbox = s.inbox := setBlock_inbox _ _ _
@[simp] theorem putByte_turn (b : Byte) (s : State) : (putByte b s).turn = s.turn := setBlock_turn _ _ _
@[simp] theorem putByte_rdata (b : Byte) (s : State) : (putByte b s).rdata = s.rdata := setBlock_rdata _ _ _
@[simp] theorem putByte_freeCount (b : Byte) (s : State) :
    (putByte b s).freeCount = s.freeCount := setBlock_freeCount _ _ _

/-! ### putLength -/

@[simp] theorem putLength_status (l : BitVec 64) (s : State) :
    (putLength l s).status = s.status := setBlock_status _ _ _
@[simp] theorem putLength_cfg (l : BitVec 64) (s : State) : (putLength l s).cfg = s.cfg := setBlock_cfg _ _ _
@[simp] theorem putLength_dataIn (l : BitVec 64) (s : State) :
    (putLength l s).dataIn = s.dataIn := setBlock_dataIn _ _ _
@[simp] theorem putLength_alphaLen (l : BitVec 64) (s : State) :
    (putLength l s).alphaLen = s.alphaLen := setBlock_alphaLen _ _ _
@[simp] theorem putLength_mlen (l : BitVec 64) (s : State) : (putLength l s).mlen = s.mlen := setBlock_mlen _ _ _
@[simp] theorem putLength_outLen (l : BitVec 64) (s : State) :
    (putLength l s).outLen = s.outLen := setBlock_outLen _ _ _
@[simp] theorem putLength_out (l : BitVec 64) (s : State) : (putLength l s).out = s.out := setBlock_out _ _ _
@[simp] theorem putLength_digest (l : BitVec 64) (s : State) :
    (putLength l s).digest = s.digest := setBlock_digest _ _ _
@[simp] theorem putLength_alpha (l : BitVec 64) (s : State) : (putLength l s).alpha = s.alpha := setBlock_alpha _ _ _
@[simp] theorem putLength_hash (l : BitVec 64) (s : State) : (putLength l s).hash = s.hash := setBlock_hash _ _ _
@[simp] theorem putLength_saved (l : BitVec 64) (s : State) : (putLength l s).saved = s.saved := setBlock_saved _ _ _
@[simp] theorem putLength_w (l : BitVec 64) (s : State) :
    (putLength l s).w = (s.w.setIfInBounds 14 (l.setWidth 32)).setIfInBounds 15 ((l >>> 32).setWidth 32) := setBlock_w _ _ _
@[simp] theorem putLength_bcnt (l : BitVec 64) (s : State) : (putLength l s).bcnt = s.bcnt := setBlock_bcnt _ _ _
@[simp] theorem putLength_kbuf (l : BitVec 64) (s : State) : (putLength l s).kbuf = s.kbuf := setBlock_kbuf _ _ _
@[simp] theorem putLength_seq (l : BitVec 64) (s : State) : (putLength l s).seq = s.seq := setBlock_seq _ _ _
@[simp] theorem putLength_enc (l : BitVec 64) (s : State) : (putLength l s).enc = s.enc := setBlock_enc _ _ _
@[simp] theorem putLength_rst (l : BitVec 64) (s : State) : (putLength l s).rst = s.rst := setBlock_rst _ _ _
@[simp] theorem putLength_inbox (l : BitVec 64) (s : State) : (putLength l s).inbox = s.inbox := setBlock_inbox _ _ _
@[simp] theorem putLength_turn (l : BitVec 64) (s : State) : (putLength l s).turn = s.turn := setBlock_turn _ _ _
@[simp] theorem putLength_rdata (l : BitVec 64) (s : State) : (putLength l s).rdata = s.rdata := setBlock_rdata _ _ _
@[simp] theorem putLength_freeCount (l : BitVec 64) (s : State) :
    (putLength l s).freeCount = s.freeCount := setBlock_freeCount _ _ _

/-! ### convert -/

@[simp] theorem convert_status (s : State) : (convert s).status = s.status := setEnc_status _ _
@[simp] theorem convert_cfg (s : State) : (convert s).cfg = s.cfg := setEnc_cfg _ _
@[simp] theorem convert_dataIn (s : State) : (convert s).dataIn = s.dataIn := setEnc_dataIn _ _
@[simp] theorem convert_alphaLen (s : State) : (convert s).alphaLen = s.alphaLen := setEnc_alphaLen _ _
@[simp] theorem convert_mlen (s : State) : (convert s).mlen = s.mlen := setEnc_mlen _ _
@[simp] theorem convert_outLen (s : State) : (convert s).outLen = s.outLen := setEnc_outLen _ _
@[simp] theorem convert_out (s : State) : (convert s).out = s.out := setEnc_out _ _
@[simp] theorem convert_digest (s : State) : (convert s).digest = s.digest := setEnc_digest _ _
@[simp] theorem convert_alpha (s : State) : (convert s).alpha = s.alpha := setEnc_alpha _ _
@[simp] theorem convert_hash (s : State) : (convert s).hash = s.hash := setEnc_hash _ _
@[simp] theorem convert_saved (s : State) : (convert s).saved = s.saved := setEnc_saved _ _
@[simp] theorem convert_w (s : State) : (convert s).w = s.w := setEnc_w _ _
@[simp] theorem convert_bcnt (s : State) : (convert s).bcnt = s.bcnt := setEnc_bcnt _ _
@[simp] theorem convert_kbuf (s : State) : (convert s).kbuf = s.kbuf := setEnc_kbuf _ _
@[simp] theorem convert_seq (s : State) : (convert s).seq = s.seq := setEnc_seq _ _
@[simp] theorem convert_enc (s : State) :
    (convert s).enc = divideTimes s.alphaLen.toNat (iterations s.alphaLen.toNat)
      { s.enc with limb := limbsOf s.digest, iter := 0 } := setEnc_enc _ _
@[simp] theorem convert_rst (s : State) : (convert s).rst = s.rst := setEnc_rst _ _
@[simp] theorem convert_inbox (s : State) : (convert s).inbox = s.inbox := setEnc_inbox _ _
@[simp] theorem convert_turn (s : State) : (convert s).turn = s.turn := setEnc_turn _ _
@[simp] theorem convert_rdata (s : State) : (convert s).rdata = s.rdata := setEnc_rdata _ _
@[simp] theorem convert_freeCount (s : State) : (convert s).freeCount = s.freeCount := setEnc_freeCount _ _

/-! ### startSession -/

@[simp] theorem startSession_status (s : State) :
    (startSession s).status = { s.status with khash := false } := by simp [startSession]
@[simp] theorem startSession_cfg (s : State) : (startSession s).cfg = s.cfg := by simp [startSession]
@[simp] theorem startSession_dataIn (s : State) : (startSession s).dataIn = s.dataIn := by simp [startSession]
@[simp] theorem startSession_alphaLen (s : State) : (startSession s).alphaLen = s.alphaLen := by simp [startSession]
@[simp] theorem startSession_mlen (s : State) : (startSession s).mlen = 0 := by simp [startSession]
@[simp] theorem startSession_outLen (s : State) : (startSession s).outLen = s.outLen := by simp [startSession]
@[simp] theorem startSession_out (s : State) : (startSession s).out = s.out := by simp [startSession]
@[simp] theorem startSession_digest (s : State) : (startSession s).digest = s.digest := by simp [startSession]
@[simp] theorem startSession_alpha (s : State) : (startSession s).alpha = s.alpha := by simp [startSession]
@[simp] theorem startSession_hash (s : State) : (startSession s).hash = Hash.iv := by simp [startSession]
@[simp] theorem startSession_saved (s : State) : (startSession s).saved = s.saved := by simp [startSession]
@[simp] theorem startSession_w (s : State) : (startSession s).w = Vector.replicate 16 0 := by simp [startSession]
@[simp] theorem startSession_bcnt (s : State) : (startSession s).bcnt = 0 := by simp [startSession]
@[simp] theorem startSession_kbuf (s : State) :
    (startSession s).kbuf = Vector.replicate 64 0 := by simp [startSession]
@[simp] theorem startSession_seq (s : State) : (startSession s).seq = s.seq := by simp [startSession]
@[simp] theorem startSession_enc (s : State) : (startSession s).enc = s.enc := by simp [startSession]
@[simp] theorem startSession_rst (s : State) : (startSession s).rst = s.rst := by simp [startSession]
@[simp] theorem startSession_inbox (s : State) : (startSession s).inbox = s.inbox := by simp [startSession]
@[simp] theorem startSession_turn (s : State) : (startSession s).turn = s.turn := by simp [startSession]
@[simp] theorem startSession_rdata (s : State) : (startSession s).rdata = s.rdata := by simp [startSession]
@[simp] theorem startSession_freeCount (s : State) :
    (startSession s).freeCount = s.freeCount := by simp [startSession]

/-! ### hwReset -/

@[simp] theorem hwReset_status (s : State) : (hwReset s).status = State.reset.status := rfl
@[simp] theorem hwReset_cfg (s : State) : (hwReset s).cfg = State.reset.cfg := rfl
@[simp] theorem hwReset_dataIn (s : State) : (hwReset s).dataIn = State.reset.dataIn := rfl
@[simp] theorem hwReset_alphaLen (s : State) : (hwReset s).alphaLen = State.reset.alphaLen := rfl
@[simp] theorem hwReset_mlen (s : State) : (hwReset s).mlen = State.reset.mlen := rfl
@[simp] theorem hwReset_outLen (s : State) : (hwReset s).outLen = State.reset.outLen := rfl
@[simp] theorem hwReset_out (s : State) : (hwReset s).out = State.reset.out := rfl
@[simp] theorem hwReset_digest (s : State) : (hwReset s).digest = State.reset.digest := rfl
@[simp] theorem hwReset_alpha (s : State) : (hwReset s).alpha = State.reset.alpha := rfl
@[simp] theorem hwReset_hash (s : State) : (hwReset s).hash = State.reset.hash := rfl
@[simp] theorem hwReset_saved (s : State) : (hwReset s).saved = State.reset.saved := rfl
@[simp] theorem hwReset_w (s : State) : (hwReset s).w = State.reset.w := rfl
@[simp] theorem hwReset_bcnt (s : State) : (hwReset s).bcnt = State.reset.bcnt := rfl
@[simp] theorem hwReset_kbuf (s : State) : (hwReset s).kbuf = State.reset.kbuf := rfl
@[simp] theorem hwReset_seq (s : State) : (hwReset s).seq = State.reset.seq := rfl
@[simp] theorem hwReset_enc (s : State) : (hwReset s).enc = State.reset.enc := rfl
@[simp] theorem hwReset_rst (s : State) : (hwReset s).rst = s.rst := rfl
@[simp] theorem hwReset_inbox (s : State) : (hwReset s).inbox = s.inbox := rfl
@[simp] theorem hwReset_turn (s : State) : (hwReset s).turn = s.turn := rfl
@[simp] theorem hwReset_rdata (s : State) : (hwReset s).rdata = s.rdata := rfl
@[simp] theorem hwReset_freeCount (s : State) : (hwReset s).freeCount = s.freeCount := rfl

/-! ### unspecified -/

@[simp] theorem unspecified_status (s : State) : (unspecified s).status = (Config.powerUp s.freeCount).status := rfl
@[simp] theorem unspecified_cfg (s : State) : (unspecified s).cfg = (Config.powerUp s.freeCount).cfg := rfl
@[simp] theorem unspecified_dataIn (s : State) : (unspecified s).dataIn = (Config.powerUp s.freeCount).dataIn := rfl
@[simp] theorem unspecified_alphaLen (s : State) :
    (unspecified s).alphaLen = (Config.powerUp s.freeCount).alphaLen := rfl
@[simp] theorem unspecified_mlen (s : State) : (unspecified s).mlen = (Config.powerUp s.freeCount).mlen := rfl
@[simp] theorem unspecified_outLen (s : State) : (unspecified s).outLen = (Config.powerUp s.freeCount).outLen := rfl
@[simp] theorem unspecified_out (s : State) : (unspecified s).out = (Config.powerUp s.freeCount).out := rfl
@[simp] theorem unspecified_digest (s : State) : (unspecified s).digest = (Config.powerUp s.freeCount).digest := rfl
@[simp] theorem unspecified_alpha (s : State) : (unspecified s).alpha = powerUpAlpha s.freeCount := rfl
@[simp] theorem unspecified_hash (s : State) : (unspecified s).hash = (Config.powerUp s.freeCount).hash := rfl
@[simp] theorem unspecified_saved (s : State) : (unspecified s).saved = (Config.powerUp s.freeCount).saved := rfl
@[simp] theorem unspecified_w (s : State) : (unspecified s).w = (Config.powerUp s.freeCount).w := rfl
@[simp] theorem unspecified_bcnt (s : State) : (unspecified s).bcnt = (Config.powerUp s.freeCount).bcnt := rfl
@[simp] theorem unspecified_kbuf (s : State) : (unspecified s).kbuf = (Config.powerUp s.freeCount).kbuf := rfl
@[simp] theorem unspecified_seq (s : State) : (unspecified s).seq = (Config.powerUp s.freeCount).seq := rfl
@[simp] theorem unspecified_enc (s : State) : (unspecified s).enc = (Config.powerUp s.freeCount).enc := rfl
@[simp] theorem unspecified_rst (s : State) : (unspecified s).rst = s.rst := rfl
@[simp] theorem unspecified_inbox (s : State) : (unspecified s).inbox = s.inbox := rfl
@[simp] theorem unspecified_turn (s : State) : (unspecified s).turn = s.turn := rfl
@[simp] theorem unspecified_rdata (s : State) : (unspecified s).rdata = s.rdata := rfl
@[simp] theorem unspecified_freeCount (s : State) : (unspecified s).freeCount = s.freeCount + 1 := rfl

end Sys2Proof.Machine
end

