-- ==== Sys2Proof/Laws/Memory.lean ====
section
/-!
SUPPORT. The laws of the alphabet RAM: a read after a write, and that every operation keeps the canonical form.
-/

namespace Sys2Proof.Machine

theorem Memory.read_nil (a : Nat) : Memory.read [] a = Memory.unlisted := rfl

theorem Memory.wfFrom_cons {lo k : Nat} {x : Byte} {m : Memory} :
    Memory.wfFrom lo ((k, x) :: m) = true ↔ lo ≤ k ∧ x ≠ Memory.unlisted ∧ Memory.wfFrom (k + 1) m = true := by
  simp [Memory.wfFrom, and_assoc]

theorem Memory.wfFrom_mono {m : Memory} {lo hi : Nat} (h : lo ≤ hi) (hm : Memory.wfFrom hi m = true) :
    Memory.wfFrom lo m = true := by
  cases m with
  | nil => rfl
  | cons c rest =>
    obtain ⟨k, x⟩ := c
    rw [Memory.wfFrom_cons] at hm ⊢
    exact ⟨by omega, hm.2⟩

/-- Below the first listed offset every byte reads as an unlisted one. -/
theorem Memory.read_below {m : Memory} {lo a : Nat} (hm : Memory.wfFrom lo m = true) (h : a < lo) :
    Memory.read m a = Memory.unlisted := by
  induction m generalizing lo with
  | nil => rfl
  | cons c rest ih =>
    obtain ⟨k, x⟩ := c
    rw [Memory.wfFrom_cons] at hm
    have hk : k ≠ a := by omega
    simpa [Memory.read, hk] using ih hm.2.2 (by omega)

/-- Equal memories are equal data: two canonical memories that read alike are the same list. -/
theorem Memory.eq_of_read {m n : Memory} {lo : Nat} (hm : Memory.wfFrom lo m = true)
    (hn : Memory.wfFrom lo n = true) (h : ∀ a, Memory.read m a = Memory.read n a) : m = n := by
  induction m generalizing n lo with
  | nil =>
    cases n with
    | nil => rfl
    | cons d rest =>
      have hd := Memory.wfFrom_cons.mp hn
      have := h d.1
      simp [Memory.read] at this
      exact absurd this.symm hd.2.1
  | cons c rest ih =>
    obtain ⟨k, x⟩ := c
    have hc := Memory.wfFrom_cons.mp hm
    cases n with
    | nil =>
      have := h k
      simp [Memory.read] at this
      exact absurd this hc.2.1
    | cons d tail =>
      obtain ⟨j, y⟩ := d
      have hd := Memory.wfFrom_cons.mp hn
      have hk : k = j := by
        rcases Nat.lt_trichotomy k j with hlt | heq | hgt
        · have := h k
          rw [Memory.read_below (lo := j) (Memory.wfFrom_cons.mpr ⟨le_refl j, hd.2⟩) hlt] at this
          simp [Memory.read] at this
          exact absurd this hc.2.1
        · exact heq
        · have := h j
          rw [Memory.read_below (lo := k) (Memory.wfFrom_cons.mpr ⟨le_refl k, hc.2⟩) hgt] at this
          simp [Memory.read] at this
          exact absurd this.symm hd.2.1
      subst hk
      have hx : x = y := by simpa [Memory.read] using h k
      subst hx
      rw [ih hc.2.2 hd.2.2 fun a => ?_]
      rcases Nat.lt_or_ge k a with hlt | hge
      · simpa [Memory.read, Nat.ne_of_lt hlt] using h a
      · rw [Memory.read_below hc.2.2 (by omega), Memory.read_below hd.2.2 (by omega)]

theorem Memory.write_wfFrom {m : Memory} {lo a : Nat} (b : Byte) (hm : Memory.wfFrom lo m = true) (h : lo ≤ a) :
    Memory.wfFrom lo (Memory.write m a b) = true := by
  induction m generalizing lo with
  | nil => by_cases hb : b = Memory.unlisted <;> simp [Memory.write, Memory.wfFrom, hb, h]
  | cons c rest ih =>
    obtain ⟨k, x⟩ := c
    have hc := Memory.wfFrom_cons.mp hm
    unfold Memory.write
    split_ifs with h1 h2 h3 h4
    · exact hm
    · rw [Memory.wfFrom_cons, Memory.wfFrom_cons]
      exact ⟨h, h2, by omega, hc.2⟩
    · exact Memory.wfFrom_mono (by omega) hc.2.2
    · rw [Memory.wfFrom_cons]
      subst h3
      exact ⟨hc.1, h4, hc.2.2⟩
    · rw [Memory.wfFrom_cons]
      exact ⟨hc.1, hc.2.1, ih hc.2.2 (by omega)⟩

/-- A write keeps the canonical form. -/
theorem Memory.write_wf {m : Memory} (a : Nat) (b : Byte) (hm : Memory.wf m = true) :
    Memory.wf (Memory.write m a b) = true :=
  Memory.write_wfFrom b hm (Nat.zero_le a)

/-- A byte reads as it was last written. -/
theorem Memory.read_write_same {m : Memory} (a : Nat) (b : Byte) (hm : Memory.wf m = true) :
    Memory.read (Memory.write m a b) a = b := by
  unfold Memory.wf at hm
  generalize 0 = lo at hm
  induction m generalizing lo with
  | nil => by_cases hb : b = Memory.unlisted <;> simp [Memory.write, Memory.read, hb]
  | cons c rest ih =>
    obtain ⟨k, x⟩ := c
    have hc := Memory.wfFrom_cons.mp hm
    unfold Memory.write
    split_ifs with h1 h2 h3 h4
    · have hk : k ≠ a := by omega
      simpa [Memory.read, hk, h2] using Memory.read_below hc.2.2 (by omega)
    · simp [Memory.read]
    · subst h3
      simpa [h4] using Memory.read_below hc.2.2 (Nat.lt_succ_self a)
    · simp [Memory.read]
    · have hk : k ≠ a := by omega
      simpa [Memory.read, hk] using ih _ hc.2.2

/-- A write leaves every other byte alone. -/
theorem Memory.read_write_other {m : Memory} {a c : Nat} (b : Byte) (hm : Memory.wf m = true) (h : c ≠ a) :
    Memory.read (Memory.write m a b) c = Memory.read m c := by
  unfold Memory.wf at hm
  generalize 0 = lo at hm
  induction m generalizing lo with
  | nil =>
    have ha : a ≠ c := fun e => h e.symm
    by_cases hb : b = Memory.unlisted <;> simp [Memory.write, Memory.read, hb, ha]
  | cons e rest ih =>
    obtain ⟨k, x⟩ := e
    have hc := Memory.wfFrom_cons.mp hm
    have ha : a ≠ c := fun e => h e.symm
    unfold Memory.write
    split_ifs with h1 h2 h3 h4
    · rfl
    · simp [Memory.read, ha]
    · subst h3
      simp [Memory.read, ha]
    · subst h3
      simp [Memory.read, ha]
    · by_cases hk : k = c
      · simp [Memory.read, hk]
      · simpa [Memory.read, hk] using ih _ hc.2.2

theorem Memory.within_cons {lo hi k : Nat} {x : Byte} {m : Memory} :
    Memory.within lo hi ((k, x) :: m) = true ↔ (lo ≤ k ∧ k < hi) ∧ Memory.within lo hi m = true := by
  simp [Memory.within]

theorem Memory.write_within {m : Memory} {lo hi a : Nat} (b : Byte) (hm : Memory.within lo hi m = true)
    (h1 : lo ≤ a) (h2 : a < hi) : Memory.within lo hi (Memory.write m a b) = true := by
  induction m with
  | nil => by_cases hb : b = Memory.unlisted <;> simp [Memory.write, Memory.within, hb, h1, h2]
  | cons c rest ih =>
    obtain ⟨k, x⟩ := c
    have hc := Memory.within_cons.mp hm
    unfold Memory.write
    split_ifs with g1 g2 g3 g4
    · exact hm
    · exact Memory.within_cons.mpr ⟨⟨h1, h2⟩, hm⟩
    · exact hc.2
    · exact Memory.within_cons.mpr ⟨⟨h1, h2⟩, hc.2⟩
    · exact Memory.within_cons.mpr ⟨hc.1, ih hc.2⟩

/-- A word write keeps the canonical form. -/
theorem Memory.writeWord_wf {m : Memory} (a : Nat) (v : Word) (hm : Memory.wf m = true) :
    Memory.wf (Memory.writeWord m a v) = true :=
  Memory.write_wf _ _ (Memory.write_wf _ _ (Memory.write_wf _ _ (Memory.write_wf _ _ hm)))

theorem Memory.writeWord_within {m : Memory} {lo hi a : Nat} (v : Word) (hm : Memory.within lo hi m = true)
    (h1 : lo ≤ a) (h2 : a + 4 ≤ hi) : Memory.within lo hi (Memory.writeWord m a v) = true :=
  Memory.write_within _ (Memory.write_within _ (Memory.write_within _ (Memory.write_within _ hm
    h1 (by omega)) (by omega) (by omega)) (by omega) (by omega)) (by omega) (by omega)

/-- A word write leaves every byte outside its four alone. -/
theorem Memory.read_writeWord_other {m : Memory} {a c : Nat} (v : Word) (hm : Memory.wf m = true)
    (h : c < a ∨ a + 4 ≤ c) : Memory.read (Memory.writeWord m a v) c = Memory.read m c := by
  have w1 := Memory.write_wf a (lane v 0) hm
  have w2 := Memory.write_wf (a + 1) (lane v 1) w1
  have w3 := Memory.write_wf (a + 2) (lane v 2) w2
  rw [Memory.writeWord, Memory.read_write_other _ w3 (by omega), Memory.read_write_other _ w2 (by omega),
    Memory.read_write_other _ w1 (by omega), Memory.read_write_other _ hm (by omega)]

/-- Byte `i` of a written word reads as lane `i`. -/
theorem Memory.read_writeWord_same {m : Memory} (a : Nat) (v : Word) (i : Nat) (hm : Memory.wf m = true)
    (h : i < 4) : Memory.read (Memory.writeWord m a v) (a + i) = lane v i := by
  have w1 := Memory.write_wf a (lane v 0) hm
  have w2 := Memory.write_wf (a + 1) (lane v 1) w1
  have w3 := Memory.write_wf (a + 2) (lane v 2) w2
  unfold Memory.writeWord
  obtain rfl | rfl | rfl | rfl : i = 0 ∨ i = 1 ∨ i = 2 ∨ i = 3 := by omega
  · rw [Memory.read_write_other _ w3 (by omega), Memory.read_write_other _ w2 (by omega),
      Memory.read_write_other _ w1 (by omega), Nat.add_zero, Memory.read_write_same _ _ hm]
  · rw [Memory.read_write_other _ w3 (by omega), Memory.read_write_other _ w2 (by omega),
      Memory.read_write_same _ _ w1]
  · rw [Memory.read_write_other _ w3 (by omega), Memory.read_write_same _ _ w2]
  · rw [Memory.read_write_same _ _ w3]

/-- A store to a register keeps the RAM canonical. -/
theorem storeReg_alpha_wf (r : Reg) (v : Word) (s : State) (h : Memory.wf s.alpha = true) :
    Memory.wf (storeReg r v s).alpha = true := by
  cases r <;> first | exact h | exact Memory.writeWord_wf _ _ h

/-- A store to a register lists offsets of the RAM only. -/
theorem storeReg_alpha_within (r : Reg) (v : Word) (s : State)
    (h : Memory.within alphaBase alphaTop s.alpha = true) :
    Memory.within alphaBase alphaTop (storeReg r v s).alpha = true := by
  cases r with
  | alpha j =>
    have hj := j.isLt
    exact Memory.writeWord_within _ h (by omega) (by unfold alphaBase alphaTop; omega)
  | _ => exact h

/-- Writing symbols one after another keeps the RAM canonical and lists offsets of the RAM only. -/
theorem writeSymbols_wf (f : Nat → Byte) (vs : List Nat) (hv : ∀ v ∈ vs, v < 256) (m : Memory)
    (hm : Memory.wf m = true ∧ Memory.within alphaBase alphaTop m = true) :
    let n := vs.foldl (fun m v => Memory.write m (alphaBase + v) (f v)) m
    Memory.wf n = true ∧ Memory.within alphaBase alphaTop n = true := by
  induction vs generalizing m with
  | nil => exact hm
  | cons v vs ih =>
    have h := hv v (List.mem_cons_self ..)
    exact ih (fun w hw => hv w (List.mem_cons_of_mem _ hw)) _
      ⟨Memory.write_wf _ _ hm.1, Memory.write_within _ hm.2 (by omega) (by unfold alphaBase alphaTop; omega)⟩

/-- The unspecified alphabet RAM is canonical. -/
theorem powerUpAlpha_wf (n : Nat) :
    Memory.wf (powerUpAlpha n) = true ∧ Memory.within alphaBase alphaTop (powerUpAlpha n) = true := by
  unfold powerUpAlpha
  exact writeSymbols_wf _ _ (fun v hv => List.mem_range.mp hv) [] ⟨rfl, rfl⟩

theorem reset_alpha_wf : Memory.wf State.reset.alpha = true := rfl

end Sys2Proof.Machine
end

