-- ==== Sys2Proof/Laws/Ops.lean ====
section
/-!
SUPPORT. One lemma per shared operation that says once what it does: the next event, host accesses, the two turns of a
command, and the path of bytes through the block buffer. A later proof cites these and unfolds nothing.
-/

namespace Sys2Proof.Machine

/-! ## Events -/

/-- The next event is the first input, the engine's turn when there is none. -/
theorem step_eq (s : State) : step s = event (s.inbox.headD .engine) { s with inbox := s.inbox.tail } := by
  unfold step nextEvent
  cases h : s.inbox with
  | nil =>
    have hs : { s with inbox := [] } = s := by ext1 <;> first | rfl | exact h.symm
    simp [hs]
  | cons e rest => rfl

theorem event_live {s : State} (h : s.rst = .released) (e : Event) : event e s = eventLive e s := by simp [event, h]

theorem event_inReset {s : State} (h : s.rst = .asserted) (e : Event) : event e s = eventInReset e s := by
  simp [event, h]

theorem event_powerUp {s : State} (h : s.rst = .powerUp) (e : Event) : event e s = eventAtPowerUp e s := by
  simp [event, h]

/-- Before the first reset every event but the assertion of `rst` leaves an unspecified state, in which only what is no
state of MDE is kept. -/
theorem eventAtPowerUp_cases {e : Event} (h : e ≠ .rstAssert) (s : State) :
    eventAtPowerUp e s = .next (unspecified s) ∨ eventAtPowerUp e s = .next (readInReset (unspecified s)) := by
  cases e with
  | read off => exact .inr rfl
  | rstAssert => exact absurd rfl h
  | write _ _ | engine | rstRelease => exact .inl rfl

/-- While `rst` is asserted every event has a next state. -/
theorem eventInReset_next (e : Event) (s : State) : ∃ t, eventInReset e s = .next t := by
  cases e <;> exact ⟨_, rfl⟩

/-! ## Registers -/

theorem regAt_offset (r : Reg) : regAt (BitVec.ofNat 12 r.offset) = some r := by
  cases r with
  | digest j => revert j; decide
  | out j => revert j; decide
  | alpha j => revert j; decide
  | _ => decide

theorem busWrite_cmd (v : Word) (s : State) : busWrite 0x004 v s = writeCmd v s := rfl

/-- A write that is not a CMD write has a next state. -/
theorem busWrite_other {off : BitVec 12} (v : Word) (s : State) (h : regAt off ≠ some .cmd) :
    busWrite off v s = .next (match regAt off with
      | none => recordError .badAddr s
      | some r => writeReg r v s) := by
  unfold busWrite
  cases hr : regAt off with
  | none => rfl
  | some r => cases r <;> first | rfl | exact absurd hr h

theorem busRead_mapped {off : BitVec 12} {r : Reg} (h : regAt off = some r) (s : State) :
    busRead off s = { s with rdata := readReg r s } := by simp [busRead, h]

theorem busRead_bad {off : BitVec 12} (h : regAt off = none) (s : State) :
    busRead off s = { recordError .badAddr s with rdata := 0 } := by simp [busRead, h]

theorem writeReg_refused {r : Reg} (h : r.access ≠ .rw) (v : Word) (s : State) :
    writeReg r v s = recordError .badAddr s := by
  unfold writeReg
  cases ha : r.access <;> first | rfl | exact absurd ha h

theorem writeReg_busy {r : Reg} (h : r.access = .rw) {s : State} (hb : s.status.busy = true) (v : Word) :
    writeReg r v s = recordError .busy s := by simp [writeReg, h, hb]

theorem writeReg_idle {r : Reg} (h : r.access = .rw) {s : State} (hb : s.status.busy = false) (v : Word) :
    writeReg r v s = storeReg r v s := by simp [writeReg, h, hb]

/-- A store to a register changes CONFIG, DATA_IN, ALPHA_LEN or the alphabet RAM, nothing else. -/
theorem storeReg_frame (r : Reg) (v : Word) (s : State) :
    storeReg r v s =
      { s with
        cfg := (storeReg r v s).cfg, dataIn := (storeReg r v s).dataIn
        alphaLen := (storeReg r v s).alphaLen, alpha := (storeReg r v s).alpha } := by
  cases r <;> rfl

/-! ## The two turns of a command -/

theorem engineCommand_host {s : State} (h : s.turn = .host) (i : Instr) (f : State → State) :
    engineCommand i f s = .next (present i s) := by simp [engineCommand, h]

theorem engineCommand_engine {s : State} (h : s.turn = .engine) (i : Instr) (f : State → State) :
    engineCommand i f s = .next (complete (f s)) := by simp [engineCommand, h]

theorem present_busy {s : State} (h : s.status.busy = true) (i : Instr) : present i s = recordError .busy s := by
  simp [present, h, reject]

theorem present_rejected {s : State} {i : Instr} {e : ErrCode} (h : s.status.busy = false)
    (hr : rejection i s = some e) : present i s = reject e s := by simp [present, h, hr]

theorem present_accepted {s : State} {i : Instr} (h : s.status.busy = false) (hr : rejection i s = none) :
    present i s = accept (cmdWord i) s := by simp [present, h, hr]

theorem reject_eq_recordError {e : ErrCode} (h : e ≠ .badRadix) (s : State) : reject e s = recordError e s := by
  cases e <;> first | rfl | exact absurd rfl h

/-- A rejection changes the error fields, and OUT_LEN and OVALID if it is BAD_RADIX. -/
theorem reject_frame (e : ErrCode) (s : State) :
    reject e s = { s with status := (reject e s).status, outLen := (reject e s).outLen } := by
  cases e <;> rfl

/-- At the host's turn an engine command is presented to R122. -/
theorem exec_host {i : Instr} (h : i.isEngine = true) {s : State} (ht : s.turn = .host) :
    exec i s = .next (present i s) := by
  cases i with
  | nop => exact engineCommand_host ht .nop (fun t => t)
  | ack | softReset | stepFf _ | stepGg _ | stepHh _ | stepIi _ => cases h
  | _ => exact engineCommand_host ht _ _


theorem exec_nop_engine {s : State} (h : s.turn = .engine) : exec .nop s = .next (complete s) :=
  engineCommand_engine h .nop (fun t => t)

theorem exec_md5Init_engine {s : State} (h : s.turn = .engine) : exec .md5Init s = .next (complete (md5Init s)) :=
  engineCommand_engine h _ _

theorem exec_md5Final_engine {s : State} (h : s.turn = .engine) : exec .md5Final s = .next (complete (md5Final s)) :=
  engineCommand_engine h _ _

theorem exec_hmacKeyInit_engine {s : State} (h : s.turn = .engine) : exec .hmacKeyInit s = .next (complete (hmacKeyInit s)) :=
  engineCommand_engine h _ _

theorem exec_hmacStart_engine {s : State} (h : s.turn = .engine) : exec .hmacStart s = .next (complete (hmacStart s)) :=
  engineCommand_engine h _ _

theorem exec_hmacFinal_engine {s : State} (h : s.turn = .engine) : exec .hmacFinal s = .next (complete (hmacFinal s)) :=
  engineCommand_engine h _ _

theorem exec_encHex_engine {s : State} (h : s.turn = .engine) : exec .encHex s = .next (complete (encHex s)) :=
  engineCommand_engine h _ _

theorem exec_encB64_engine {s : State} (h : s.turn = .engine) : exec .encB64 s = .next (complete (encB64 s)) :=
  engineCommand_engine h _ _

theorem exec_encRadix_engine {s : State} (h : s.turn = .engine) : exec .encRadix s = .next (complete (encRadix s)) :=
  engineCommand_engine h _ _

theorem exec_selftest_engine {s : State} (h : s.turn = .engine) : exec .selftest s = .next (complete (selftest s)) :=
  engineCommand_engine h _ _

theorem exec_push_engine {s : State} (n : Byte) (h : s.turn = .engine) :
    exec (.push n) s = .next (complete (push n s)) :=
  engineCommand_engine h _ _

/-! ## The block buffer -/

/-- An append leaves the byte in the block, or fills the block, which is then compressed and cleared. -/
theorem md5Append_cases (b : Byte) (s : State) :
    md5Append b s = setMlen (s.mlen + 8) (putByte b s) ∨
    md5Append b s = clearBlock (compress .w (setMlen (s.mlen + 8) (putByte b s))) := by
  unfold md5Append
  simp only
  split_ifs <;> simp

/-- The 1 bit leaves room for the length field, or the block is compressed and cleared. -/
theorem padBlock_cases (s : State) :
    padBlock s = putByte 0x80 s ∨ padBlock s = clearBlock (compress .w (putByte 0x80 s)) := by
  unfold padBlock
  simp only
  split_ifs <;> simp

theorem md5Append_fills {b : Byte} {s : State} (h : s.bcnt = 63) :
    md5Append b s = clearBlock (compress .w (setMlen (s.mlen + 8) (putByte b s))) := by
  simp [md5Append, h]

theorem md5Append_room {b : Byte} {s : State} (h : s.bcnt + 1 ≠ 64) :
    md5Append b s = setMlen (s.mlen + 8) (putByte b s) := by
  unfold md5Append
  exact if_neg h

theorem md5AppendAll_nil (s : State) : md5AppendAll [] s = s := rfl

theorem md5AppendAll_cons (b : Byte) (bs : List Byte) (s : State) :
    md5AppendAll (b :: bs) s = md5AppendAll bs (md5Append b s) := rfl

theorem md5AppendAll_append (xs ys : List Byte) (s : State) :
    md5AppendAll (xs ++ ys) s = md5AppendAll ys (md5AppendAll xs s) := List.foldl_append

theorem pushAll_cons (b : Byte) (bs : List Byte) (s : State) : pushAll (b :: bs) s = pushAll bs (pushByte b s) := rfl

theorem pushByte_key {s : State} (h : s.status.mode = .key) (b : Byte) : pushByte b s = keyAppend b s := by
  simp [pushByte, h]

theorem pushByte_message {s : State} (h : s.status.mode ≠ .key) (b : Byte) : pushByte b s = md5Append b s := by
  unfold pushByte
  cases hm : s.status.mode <;> first | rfl | exact absurd hm h


/-! ### What `md5_append` leaves alone -/

@[simp] theorem md5Append_status (b : Byte) (s : State) : (md5Append b s).status = s.status := by
  obtain h | h := md5Append_cases b s <;> rw [h] <;> simp
@[simp] theorem md5Append_cfg (b : Byte) (s : State) : (md5Append b s).cfg = s.cfg := by
  obtain h | h := md5Append_cases b s <;> rw [h] <;> simp
@[simp] theorem md5Append_dataIn (b : Byte) (s : State) : (md5Append b s).dataIn = s.dataIn := by
  obtain h | h := md5Append_cases b s <;> rw [h] <;> simp
@[simp] theorem md5Append_alphaLen (b : Byte) (s : State) : (md5Append b s).alphaLen = s.alphaLen := by
  obtain h | h := md5Append_cases b s <;> rw [h] <;> simp
@[simp] theorem md5Append_outLen (b : Byte) (s : State) : (md5Append b s).outLen = s.outLen := by
  obtain h | h := md5Append_cases b s <;> rw [h] <;> simp
@[simp] theorem md5Append_out (b : Byte) (s : State) : (md5Append b s).out = s.out := by
  obtain h | h := md5Append_cases b s <;> rw [h] <;> simp
@[simp] theorem md5Append_digest (b : Byte) (s : State) : (md5Append b s).digest = s.digest := by
  obtain h | h := md5Append_cases b s <;> rw [h] <;> simp
@[simp] theorem md5Append_alpha (b : Byte) (s : State) : (md5Append b s).alpha = s.alpha := by
  obtain h | h := md5Append_cases b s <;> rw [h] <;> simp
@[simp] theorem md5Append_kbuf (b : Byte) (s : State) : (md5Append b s).kbuf = s.kbuf := by
  obtain h | h := md5Append_cases b s <;> rw [h] <;> simp
@[simp] theorem md5Append_seq (b : Byte) (s : State) : (md5Append b s).seq = s.seq := by
  obtain h | h := md5Append_cases b s <;> rw [h] <;> simp
@[simp] theorem md5Append_enc (b : Byte) (s : State) : (md5Append b s).enc = s.enc := by
  obtain h | h := md5Append_cases b s <;> rw [h] <;> simp
@[simp] theorem md5Append_rst (b : Byte) (s : State) : (md5Append b s).rst = s.rst := by
  obtain h | h := md5Append_cases b s <;> rw [h] <;> simp
@[simp] theorem md5Append_inbox (b : Byte) (s : State) : (md5Append b s).inbox = s.inbox := by
  obtain h | h := md5Append_cases b s <;> rw [h] <;> simp
@[simp] theorem md5Append_turn (b : Byte) (s : State) : (md5Append b s).turn = s.turn := by
  obtain h | h := md5Append_cases b s <;> rw [h] <;> simp
@[simp] theorem md5Append_rdata (b : Byte) (s : State) : (md5Append b s).rdata = s.rdata := by
  obtain h | h := md5Append_cases b s <;> rw [h] <;> simp
@[simp] theorem md5Append_freeCount (b : Byte) (s : State) : (md5Append b s).freeCount = s.freeCount := by
  obtain h | h := md5Append_cases b s <;> rw [h] <;> simp

/-! ### What a sequence of appends leaves alone -/

@[simp] theorem md5AppendAll_status (bs : List Byte) (s : State) : (md5AppendAll bs s).status = s.status := by
  induction bs generalizing s with
  | nil => rfl
  | cons b bs ih => rw [md5AppendAll_cons, ih, md5Append_status]
@[simp] theorem md5AppendAll_cfg (bs : List Byte) (s : State) : (md5AppendAll bs s).cfg = s.cfg := by
  induction bs generalizing s with
  | nil => rfl
  | cons b bs ih => rw [md5AppendAll_cons, ih, md5Append_cfg]
@[simp] theorem md5AppendAll_dataIn (bs : List Byte) (s : State) : (md5AppendAll bs s).dataIn = s.dataIn := by
  induction bs generalizing s with
  | nil => rfl
  | cons b bs ih => rw [md5AppendAll_cons, ih, md5Append_dataIn]
@[simp] theorem md5AppendAll_alphaLen (bs : List Byte) (s : State) : (md5AppendAll bs s).alphaLen = s.alphaLen := by
  induction bs generalizing s with
  | nil => rfl
  | cons b bs ih => rw [md5AppendAll_cons, ih, md5Append_alphaLen]
@[simp] theorem md5AppendAll_outLen (bs : List Byte) (s : State) : (md5AppendAll bs s).outLen = s.outLen := by
  induction bs generalizing s with
  | nil => rfl
  | cons b bs ih => rw [md5AppendAll_cons, ih, md5Append_outLen]
@[simp] theorem md5AppendAll_out (bs : List Byte) (s : State) : (md5AppendAll bs s).out = s.out := by
  induction bs generalizing s with
  | nil => rfl
  | cons b bs ih => rw [md5AppendAll_cons, ih, md5Append_out]
@[simp] theorem md5AppendAll_digest (bs : List Byte) (s : State) : (md5AppendAll bs s).digest = s.digest := by
  induction bs generalizing s with
  | nil => rfl
  | cons b bs ih => rw [md5AppendAll_cons, ih, md5Append_digest]
@[simp] theorem md5AppendAll_alpha (bs : List Byte) (s : State) : (md5AppendAll bs s).alpha = s.alpha := by
  induction bs generalizing s with
  | nil => rfl
  | cons b bs ih => rw [md5AppendAll_cons, ih, md5Append_alpha]
@[simp] theorem md5AppendAll_kbuf (bs : List Byte) (s : State) : (md5AppendAll bs s).kbuf = s.kbuf := by
  induction bs generalizing s with
  | nil => rfl
  | cons b bs ih => rw [md5AppendAll_cons, ih, md5Append_kbuf]
@[simp] theorem md5AppendAll_seq (bs : List Byte) (s : State) : (md5AppendAll bs s).seq = s.seq := by
  induction bs generalizing s with
  | nil => rfl
  | cons b bs ih => rw [md5AppendAll_cons, ih, md5Append_seq]
@[simp] theorem md5AppendAll_enc (bs : List Byte) (s : State) : (md5AppendAll bs s).enc = s.enc := by
  induction bs generalizing s with
  | nil => rfl
  | cons b bs ih => rw [md5AppendAll_cons, ih, md5Append_enc]
@[simp] theorem md5AppendAll_rst (bs : List Byte) (s : State) : (md5AppendAll bs s).rst = s.rst := by
  induction bs generalizing s with
  | nil => rfl
  | cons b bs ih => rw [md5AppendAll_cons, ih, md5Append_rst]
@[simp] theorem md5AppendAll_inbox (bs : List Byte) (s : State) : (md5AppendAll bs s).inbox = s.inbox := by
  induction bs generalizing s with
  | nil => rfl
  | cons b bs ih => rw [md5AppendAll_cons, ih, md5Append_inbox]
@[simp] theorem md5AppendAll_turn (bs : List Byte) (s : State) : (md5AppendAll bs s).turn = s.turn := by
  induction bs generalizing s with
  | nil => rfl
  | cons b bs ih => rw [md5AppendAll_cons, ih, md5Append_turn]
@[simp] theorem md5AppendAll_rdata (bs : List Byte) (s : State) : (md5AppendAll bs s).rdata = s.rdata := by
  induction bs generalizing s with
  | nil => rfl
  | cons b bs ih => rw [md5AppendAll_cons, ih, md5Append_rdata]
@[simp] theorem md5AppendAll_freeCount (bs : List Byte) (s : State) : (md5AppendAll bs s).freeCount = s.freeCount := by
  induction bs generalizing s with
  | nil => rfl
  | cons b bs ih => rw [md5AppendAll_cons, ih, md5Append_freeCount]

/-! ### What the 1 bit of the padding leaves alone -/

@[simp] theorem padBlock_status (s : State) : (padBlock s).status = s.status := by
  obtain h | h := padBlock_cases s <;> rw [h] <;> simp
@[simp] theorem padBlock_cfg (s : State) : (padBlock s).cfg = s.cfg := by
  obtain h | h := padBlock_cases s <;> rw [h] <;> simp
@[simp] theorem padBlock_dataIn (s : State) : (padBlock s).dataIn = s.dataIn := by
  obtain h | h := padBlock_cases s <;> rw [h] <;> simp
@[simp] theorem padBlock_alphaLen (s : State) : (padBlock s).alphaLen = s.alphaLen := by
  obtain h | h := padBlock_cases s <;> rw [h] <;> simp
@[simp] theorem padBlock_mlen (s : State) : (padBlock s).mlen = s.mlen := by
  obtain h | h := padBlock_cases s <;> rw [h] <;> simp
@[simp] theorem padBlock_outLen (s : State) : (padBlock s).outLen = s.outLen := by
  obtain h | h := padBlock_cases s <;> rw [h] <;> simp
@[simp] theorem padBlock_out (s : State) : (padBlock s).out = s.out := by
  obtain h | h := padBlock_cases s <;> rw [h] <;> simp
@[simp] theorem padBlock_digest (s : State) : (padBlock s).digest = s.digest := by
  obtain h | h := padBlock_cases s <;> rw [h] <;> simp
@[simp] theorem padBlock_alpha (s : State) : (padBlock s).alpha = s.alpha := by
  obtain h | h := padBlock_cases s <;> rw [h] <;> simp
@[simp] theorem padBlock_kbuf (s : State) : (padBlock s).kbuf = s.kbuf := by
  obtain h | h := padBlock_cases s <;> rw [h] <;> simp
@[simp] theorem padBlock_seq (s : State) : (padBlock s).seq = s.seq := by
  obtain h | h := padBlock_cases s <;> rw [h] <;> simp
@[simp] theorem padBlock_enc (s : State) : (padBlock s).enc = s.enc := by
  obtain h | h := padBlock_cases s <;> rw [h] <;> simp
@[simp] theorem padBlock_rst (s : State) : (padBlock s).rst = s.rst := by
  obtain h | h := padBlock_cases s <;> rw [h] <;> simp
@[simp] theorem padBlock_inbox (s : State) : (padBlock s).inbox = s.inbox := by
  obtain h | h := padBlock_cases s <;> rw [h] <;> simp
@[simp] theorem padBlock_turn (s : State) : (padBlock s).turn = s.turn := by
  obtain h | h := padBlock_cases s <;> rw [h] <;> simp
@[simp] theorem padBlock_rdata (s : State) : (padBlock s).rdata = s.rdata := by
  obtain h | h := padBlock_cases s <;> rw [h] <;> simp
@[simp] theorem padBlock_freeCount (s : State) : (padBlock s).freeCount = s.freeCount := by
  obtain h | h := padBlock_cases s <;> rw [h] <;> simp

/-! ### What the padding leaves alone -/

@[simp] theorem lastBlock_status (l : BitVec 64) (s : State) : (lastBlock l s).status = s.status := by
  simp [lastBlock]
@[simp] theorem lastBlock_cfg (l : BitVec 64) (s : State) : (lastBlock l s).cfg = s.cfg := by
  simp [lastBlock]
@[simp] theorem lastBlock_dataIn (l : BitVec 64) (s : State) : (lastBlock l s).dataIn = s.dataIn := by
  simp [lastBlock]
@[simp] theorem lastBlock_alphaLen (l : BitVec 64) (s : State) : (lastBlock l s).alphaLen = s.alphaLen := by
  simp [lastBlock]
@[simp] theorem lastBlock_mlen (l : BitVec 64) (s : State) : (lastBlock l s).mlen = s.mlen := by
  simp [lastBlock]
@[simp] theorem lastBlock_outLen (l : BitVec 64) (s : State) : (lastBlock l s).outLen = s.outLen := by
  simp [lastBlock]
@[simp] theorem lastBlock_out (l : BitVec 64) (s : State) : (lastBlock l s).out = s.out := by
  simp [lastBlock]
@[simp] theorem lastBlock_digest (l : BitVec 64) (s : State) : (lastBlock l s).digest = s.digest := by
  simp [lastBlock]
@[simp] theorem lastBlock_alpha (l : BitVec 64) (s : State) : (lastBlock l s).alpha = s.alpha := by
  simp [lastBlock]
@[simp] theorem lastBlock_kbuf (l : BitVec 64) (s : State) : (lastBlock l s).kbuf = s.kbuf := by
  simp [lastBlock]
@[simp] theorem lastBlock_seq (l : BitVec 64) (s : State) : (lastBlock l s).seq = s.seq := by
  simp [lastBlock]
@[simp] theorem lastBlock_enc (l : BitVec 64) (s : State) : (lastBlock l s).enc = s.enc := by
  simp [lastBlock]
@[simp] theorem lastBlock_rst (l : BitVec 64) (s : State) : (lastBlock l s).rst = s.rst := by
  simp [lastBlock]
@[simp] theorem lastBlock_inbox (l : BitVec 64) (s : State) : (lastBlock l s).inbox = s.inbox := by
  simp [lastBlock]
@[simp] theorem lastBlock_turn (l : BitVec 64) (s : State) : (lastBlock l s).turn = s.turn := by
  simp [lastBlock]
@[simp] theorem lastBlock_rdata (l : BitVec 64) (s : State) : (lastBlock l s).rdata = s.rdata := by
  simp [lastBlock]
@[simp] theorem lastBlock_freeCount (l : BitVec 64) (s : State) : (lastBlock l s).freeCount = s.freeCount := by
  simp [lastBlock]

/-! ### What the key-hash transition leaves alone -/

@[simp] theorem keyHashStart_cfg (s : State) : (keyHashStart s).cfg = s.cfg := by
  simp [keyHashStart]
@[simp] theorem keyHashStart_dataIn (s : State) : (keyHashStart s).dataIn = s.dataIn := by
  simp [keyHashStart]
@[simp] theorem keyHashStart_alphaLen (s : State) : (keyHashStart s).alphaLen = s.alphaLen := by
  simp [keyHashStart]
@[simp] theorem keyHashStart_mlen (s : State) : (keyHashStart s).mlen = s.mlen := by
  simp [keyHashStart]
@[simp] theorem keyHashStart_outLen (s : State) : (keyHashStart s).outLen = s.outLen := by
  simp [keyHashStart]
@[simp] theorem keyHashStart_out (s : State) : (keyHashStart s).out = s.out := by
  simp [keyHashStart]
@[simp] theorem keyHashStart_digest (s : State) : (keyHashStart s).digest = s.digest := by
  simp [keyHashStart]
@[simp] theorem keyHashStart_alpha (s : State) : (keyHashStart s).alpha = s.alpha := by
  simp [keyHashStart]
@[simp] theorem keyHashStart_kbuf (s : State) : (keyHashStart s).kbuf = s.kbuf := by
  simp [keyHashStart]
@[simp] theorem keyHashStart_seq (s : State) : (keyHashStart s).seq = s.seq := by
  simp [keyHashStart]
@[simp] theorem keyHashStart_enc (s : State) : (keyHashStart s).enc = s.enc := by
  simp [keyHashStart]
@[simp] theorem keyHashStart_rst (s : State) : (keyHashStart s).rst = s.rst := by
  simp [keyHashStart]
@[simp] theorem keyHashStart_inbox (s : State) : (keyHashStart s).inbox = s.inbox := by
  simp [keyHashStart]
@[simp] theorem keyHashStart_turn (s : State) : (keyHashStart s).turn = s.turn := by
  simp [keyHashStart]
@[simp] theorem keyHashStart_rdata (s : State) : (keyHashStart s).rdata = s.rdata := by
  simp [keyHashStart]
@[simp] theorem keyHashStart_freeCount (s : State) : (keyHashStart s).freeCount = s.freeCount := by
  simp [keyHashStart]

/-! ### The length -/

theorem md5Append_mlen (b : Byte) (s : State) : (md5Append b s).mlen = s.mlen + 8 := by
  obtain h | h := md5Append_cases b s <;> rw [h] <;> simp

theorem md5AppendAll_mlen (bs : List Byte) (s : State) :
    (md5AppendAll bs s).mlen = s.mlen + BitVec.ofNat 64 (8 * bs.length) := by
  induction bs generalizing s with
  | nil => simp [md5AppendAll_nil]
  | cons b bs ih =>
    have h8 : BitVec.ofNat 64 (8 * (b :: bs).length) = 8 + BitVec.ofNat 64 (8 * bs.length) := by
      rw [List.length_cons, Nat.mul_add, BitVec.ofNat_add, BitVec.add_comm]
      rfl
    rw [md5AppendAll_cons, ih, md5Append_mlen, h8, BitVec.add_assoc]

end Sys2Proof.Machine
end

