-- ==== Sys2Proof/Laws/PerInstr.lean ====
section
/-!
SUPPORT. The statement made once per instruction: its encoding matches its row of spec/opcode_table.json, the row's mask
and pattern written out again here as numbers.
-/

namespace Sys2Proof.Laws.TableRow

/-- The row's mask and pattern. -/
def row : Instr → Nat × Nat
  | .nop => (0xFFFFFFFF, 0x00000000)
  | .md5Init => (0xFFFFFFFF, 0x00000001)
  | .push _ => (0xFFFF00FF, 0x00000002)
  | .md5Final => (0xFFFFFFFF, 0x00000003)
  | .hmacKeyInit => (0xFFFFFFFF, 0x00000004)
  | .hmacStart => (0xFFFFFFFF, 0x00000005)
  | .hmacFinal => (0xFFFFFFFF, 0x00000006)
  | .encHex => (0xFFFFFFFF, 0x00000007)
  | .encB64 => (0xFFFFFFFF, 0x00000008)
  | .encRadix => (0xFFFFFFFF, 0x00000009)
  | .selftest => (0xFFFFFFFF, 0x0000000A)
  | .ack => (0xFFFFFFFF, 0x0000000E)
  | .softReset => (0xFFFFFFFF, 0x0000000F)
  | .stepFf _ => (0x30, 0x00)
  | .stepGg _ => (0x30, 0x10)
  | .stepHh _ => (0x30, 0x20)
  | .stepIi _ => (0x30, 0x30)

/-- The bits of an encoding as one number. -/
def bits : Encoded → Nat
  | .cmd w => w.toNat
  | .seq n => n.toNat

/-- A well-formed instruction's encoding matches its row. -/
def Statement (i : Instr) : Prop := i.wellFormed = true → bits (encode i) &&& (row i).1 = (row i).2

theorem nop : Statement .nop := by unfold Statement; decide
theorem md5Init : Statement .md5Init := by unfold Statement; decide
theorem push (n : Byte) : Statement (.push n) := by revert n; unfold Statement; decide +kernel
theorem md5Final : Statement .md5Final := by unfold Statement; decide
theorem hmacKeyInit : Statement .hmacKeyInit := by unfold Statement; decide
theorem hmacStart : Statement .hmacStart := by unfold Statement; decide
theorem hmacFinal : Statement .hmacFinal := by unfold Statement; decide
theorem encHex : Statement .encHex := by unfold Statement; decide
theorem encB64 : Statement .encB64 := by unfold Statement; decide
theorem encRadix : Statement .encRadix := by unfold Statement; decide
theorem selftest : Statement .selftest := by unfold Statement; decide
theorem ack : Statement .ack := by unfold Statement; decide
theorem softReset : Statement .softReset := by unfold Statement; decide
theorem stepFf (n : BitVec 6) : Statement (.stepFf n) := by revert n; unfold Statement; decide +kernel
theorem stepGg (n : BitVec 6) : Statement (.stepGg n) := by revert n; unfold Statement; decide +kernel
theorem stepHh (n : BitVec 6) : Statement (.stepHh n) := by revert n; unfold Statement; decide +kernel
theorem stepIi (n : BitVec 6) : Statement (.stepIi n) := by revert n; unfold Statement; decide +kernel

end Sys2Proof.Laws.TableRow
end

