-- ==== Sys2Proof/Tests/Slice0.lean ====
section
/-!
SUPPORT. The model's own tests. An expected value is the spec's: the vectors V1 to V20 of 95_test_vectors.md or a rule's
example, named beside each test. After them, for each statement with hypotheses, a witness that meets them together.
-/

namespace Sys2Proof.Tests

-- One theorem at a time: side by side, this many kernel evaluations run out of threads.
set_option Elab.async false

open Sys2Proof.Machine Sys2Proof.Claims

/-! ## Helpers -/

/-- What a step answers, the state before it if it stops. -/
def after (s : State) (r : Result) : State :=
  match r with
  | .next t => t
  | .fault _ => s
  | .refused _ => s

/-- Whether a step answers a next state. -/
def goesOn (r : Result) : Bool :=
  match r with
  | .next _ => true
  | .fault _ => false
  | .refused _ => false

theorem next_after {s : State} {r : Result} (h : goesOn r = true) : r = .next (after s r) := by
  cases r <;> first | rfl | cases h

/-- A word arrives at CMD. -/
def cmdIn (v : Word) (s : State) : State := { s with inbox := [.write 0x004 v] }

/-- An event arrives. -/
def eventIn (e : Event) (s : State) : State := { s with inbox := [e] }

/-- The engine's turn. -/
def eng (s : State) : State := { s with turn := .engine }

/-- The session mode set. -/
def inMode (m : Mode) (s : State) : State := { s with status := { s.status with mode := m } }

/-- A command running. -/
def running (v : Word) (s : State) : State :=
  { s with status := { s.status with busy := true }, seq := { s.seq with phase := .run, pcmd := v } }

/-- A completed digest. -/
def digested (d : Vector Byte 16) (s : State) : State :=
  { s with digest := d, status := { s.status with dvalid := true } }

/-- A compression in progress, about to do step `n`. -/
def atStep (n : BitVec 6) (h : Hash) : State :=
  { State.reset with
    hash := h
    w := #v[0x80636261, 0, 0, 0, 0, 0, 0, 0, 0, 0, 0, 0, 0, 0, 0x00000018, 0]
    status := { Status.reset with busy := true }
    seq := { Seq.reset with phase := .run, step := n, block := .step } }

/-- STATUS after the meaning of an instruction. -/
def statusOf (i : Instr) (s : State) : Word := readReg .status (after s (exec i s))

/-- The digest of "abc" (V2). -/
def abcDigest : Vector Byte 16 :=
  #v[0x90, 0x01, 0x50, 0x98, 0x3c, 0xd2, 0x4f, 0xb0, 0xd6, 0x96, 0x3f, 0x7d, 0x28, 0xe1, 0x7f, 0x72]

/-- An alphabet in the RAM. -/
def withAlphabet (a : List Byte) (s : State) : State :=
  { s with
    alphaLen := BitVec.ofNat 9 a.length
    alpha := a.zipIdx.foldl (fun m c => Memory.write m (alphaBase + c.2) c.1) s.alpha }

/-- "The quick brown fox jumps over the lazy dog". -/
def fox : List Byte :=
  [0x54, 0x68, 0x65, 0x20, 0x71, 0x75, 0x69, 0x63, 0x6b, 0x20, 0x62, 0x72, 0x6f, 0x77, 0x6e, 0x20, 0x66, 0x6f, 0x78] ++
    [0x20, 0x6a, 0x75, 0x6d, 0x70, 0x73, 0x20, 0x6f, 0x76, 0x65, 0x72, 0x20, 0x74, 0x68, 0x65, 0x20, 0x6c, 0x61, 0x7a] ++
    [0x79, 0x20, 0x64, 0x6f, 0x67]

/-- A key session with the `c` bytes "kk...k" loaded, `c` at most 64. -/
def keyLoaded (c : Nat) : State :=
  { inMode .key State.reset with
    mlen := BitVec.ofNat 64 (8 * c)
    kbuf := toBytes 64 (List.replicate c 0x6b) }

/-- A key session after its 65th byte (V14): the first block is compressed, one byte waits in the block buffer. -/
def keyHashing : State :=
  { keyLoaded 64 with
    mlen := 520, bcnt := 1, w := blockOf [0x6b]
    hash := compressHash (blockOf (List.replicate 64 0x6b)) iv, saved := iv
    status := { Status.reset with mode := .key, khash := true } }

/-- An MD5 session with 63 bytes "xx...x" in the block. -/
def almostFull : State :=
  { inMode .md5 State.reset with mlen := 504, bcnt := 63, w := blockOf (List.replicate 63 0x78) }

/-! ## Well-formedness: an ill-formed term for each check -/

theorem test_wf_refuses_stepFf : Instr.wellFormed (.stepFf 16) = false := by decide
theorem test_wf_refuses_stepGg : Instr.wellFormed (.stepGg 15) = false := by decide
theorem test_wf_refuses_stepHh : Instr.wellFormed (.stepHh 48) = false := by decide
theorem test_wf_refuses_stepIi : Instr.wellFormed (.stepIi 47) = false := by decide
theorem test_wf_accepts_edges :
    [Instr.stepFf 0, .stepFf 15, .stepGg 16, .stepGg 31, .stepHh 32, .stepHh 47, .stepIi 48, .stepIi 63,
      .push 0, .push 255].all Instr.wellFormed = true := by decide

/-! ## Decoding: words written out from the field tables of R90, R93 and R101 -/

theorem test_decode_nop : decode (.cmd 0b0000000000000000_00000000_00000000) = .ok .nop := by decide
theorem test_decode_md5Init : decode (.cmd 0b0000000000000000_00000000_00000001) = .ok .md5Init := by decide
theorem test_decode_push1 : decode (.cmd 0b0000000000000000_00000001_00000010) = .ok (.push 1) := by decide
theorem test_decode_push255 : decode (.cmd 0b0000000000000000_11111111_00000010) = .ok (.push 255) := by decide
theorem test_decode_md5Final : decode (.cmd 0b0000000000000000_00000000_00000011) = .ok .md5Final := by decide
theorem test_decode_hmacKeyInit : decode (.cmd 0b0000000000000000_00000000_00000100) = .ok .hmacKeyInit := by decide
theorem test_decode_hmacStart : decode (.cmd 0b0000000000000000_00000000_00000101) = .ok .hmacStart := by decide
theorem test_decode_hmacFinal : decode (.cmd 0b0000000000000000_00000000_00000110) = .ok .hmacFinal := by decide
theorem test_decode_encHex : decode (.cmd 0b0000000000000000_00000000_00000111) = .ok .encHex := by decide
theorem test_decode_encB64 : decode (.cmd 0b0000000000000000_00000000_00001000) = .ok .encB64 := by decide
theorem test_decode_encRadix : decode (.cmd 0b0000000000000000_00000000_00001001) = .ok .encRadix := by decide
theorem test_decode_selftest : decode (.cmd 0b0000000000000000_00000000_00001010) = .ok .selftest := by decide
theorem test_decode_ack : decode (.cmd 0b0000000000000000_00000000_00001110) = .ok .ack := by decide
theorem test_decode_softReset : decode (.cmd 0b0000000000000000_00000000_00001111) = .ok .softReset := by decide
theorem test_decode_stepFf : decode (.seq 0b00_0101) = .ok (.stepFf 5) := by decide
theorem test_decode_stepGg : decode (.seq 0b01_0000) = .ok (.stepGg 16) := by decide
theorem test_decode_stepHh : decode (.seq 0b10_1111) = .ok (.stepHh 47) := by decide
theorem test_decode_stepIi : decode (.seq 0b11_1111) = .ok (.stepIi 63) := by decide

/-- R94, R95, R96: no command. -/
theorem test_decode_rejects :
    decode (.cmd 0x0000000B) = .error (.reservedOpcode 0x0B) ∧
    decode (.cmd 0x000000FF) = .error (.reservedOpcode 0xFF) ∧
    decode (.cmd 0x00000100) = .error .argNotZero ∧ decode (.cmd 0x0000010F) = .error .argNotZero ∧
    decode (.cmd 0x00010002) = .error .reservedField := by decide

/-- The lowest byte of a command word comes first (R70). -/
theorem test_decodeBytes :
    decodeBytes [0x02, 0x04, 0x00, 0x00] = .ok (.push 4) ∧ decodeBytes [0x40] = .error (.stepOutOfRange 0x40) ∧
    decodeBytes [0x00, 0x00] = .error (.badLength 2) := by decide

theorem test_decodeTableWord :
    decodeTableWord 32 0x00000302 = some (.push 3) ∧ decodeTableWord 8 0x2F = some (.stepHh 47) ∧
    decodeTableWord 32 0x0000010E = none := by decide

/-! ## Placing and running an instruction after reset -/

/-- MD5_INIT is accepted: STATUS reads BUSY (R123). -/
theorem test_fetch_command :
    readReg .status (after State.reset (step (State.reset.withFetchWord 32 0x00000001))) = 0x00000001 := by
  decide +kernel

/-- A step number placed after reset runs as that step: step 0 on a zero block (V9). -/
theorem test_fetch_step :
    (after State.reset (step (State.reset.withFetchWord 8 0x00))).hash =
      { a := 0x10325476, b := 0xA51FE774, c := 0xEFCDAB89, d := 0x98BADCFE } := by decide +kernel

/-- From reset with nothing placed nothing happens (R323). -/
theorem test_step_from_reset : after (eng State.reset) (step State.reset) = State.reset := by decide +kernel

/-! ## One step of each instruction -/

/-- R127, example. -/
theorem test_nop : statusOf .nop (eng (running 0x00000000 State.reset)) = 0x00000002 := by decide +kernel

/-- V6: MD5_INIT. -/
theorem test_md5Init : statusOf .md5Init (eng (running 0x00000001 State.reset)) = 0x00000102 := by decide +kernel

/-- R144, example. -/
theorem test_push_abc :
    let t := after State.reset (exec (.push 3) (eng { inMode .md5 State.reset with dataIn := 0x00636261 }))
    wordAt t.w 0 = 0x00636261 ∧ t.bcnt = 3 ∧ t.mlen = 24 := by decide +kernel

/-- V14: the 65th key byte. -/
theorem test_push_key65 :
    let t := after State.reset (exec (.push 1) (eng { keyLoaded 64 with dataIn := 0x0000006B }))
    readReg .status t = 0x00000A02 ∧ t.mlen = 520 ∧ t.bcnt = 1 ∧ wordAt t.w 0 = 0x0000006B := by decide +kernel

/-- R178, example. -/
theorem test_md5Final_abc :
    let t := after State.reset
      (exec .md5Final (eng { inMode .md5 State.reset with mlen := 24, bcnt := 3, w := blockOf [0x61, 0x62, 0x63] }))
    (List.finRange 4).map (fun j => readReg (.digest j) t) = [0x98500190, 0xB04FD23C, 0x7D3F96D6, 0x727FE128] := by
  decide +kernel

/-- V3: the empty message. -/
theorem test_md5Final_empty :
    (after State.reset (exec .md5Final (eng (inMode .md5 State.reset)))).digest =
      #v[0xd4, 0x1d, 0x8c, 0xd9, 0x8f, 0x00, 0xb2, 0x04, 0xe9, 0x80, 0x09, 0x98, 0xec, 0xf8, 0x42, 0x7e] := by
  decide +kernel

/-- V6: HMAC_KEY_INIT. -/
theorem test_hmacKeyInit : statusOf .hmacKeyInit (eng (running 0x00000004 State.reset)) = 0x00000202 := by
  decide +kernel

/-- V14: HMAC_START after a key of 65 bytes. -/
theorem test_hmacStart_hashed :
    let t := after State.reset (exec .hmacStart (eng keyHashing))
    readReg .status t = 0x00000302 ∧ t.mlen = 512 ∧
      t.kbuf.toList.take 17 =
        [0xae, 0xdb, 0xc3, 0x30, 0xec, 0x13, 0x5b, 0xf7, 0x9f, 0x8a, 0x19, 0x88, 0xa8, 0xcf, 0x95, 0x31, 0x00] := by
  decide +kernel

/-- R206, example, and V14: the pad words of the key "key". -/
theorem test_pad_words :
    let s := { State.reset with kbuf := toBytes 64 [0x6b, 0x65, 0x79] }
    wordAt (blockWords .ipad s) 0 = 0x364F535D ∧ wordAt (blockWords .ipad s) 15 = 0x36363636 ∧
      wordAt (blockWords .opad s) 0 = 0x5C253937 ∧ wordAt (blockWords .opad s) 1 = 0x5C5C5C5C := by decide +kernel

/-- R208, example, and V13: key "key" and the fox. -/
theorem test_hmacFinal_fox :
    let s := after State.reset
      (exec .hmacStart (eng { inMode .key State.reset with mlen := 24, kbuf := toBytes 64 [0x6b, 0x65, 0x79] }))
    let t := after s (exec .hmacFinal { s with w := blockOf fox, bcnt := 43, mlen := 856 })
    t.digest = #v[0x80, 0x07, 0x07, 0x13, 0x46, 0x3e, 0x77, 0x49, 0xb9, 0x0c, 0x2d, 0xc2, 0x49, 0x11, 0xe2, 0x75] ∧
      t.mlen = 640 := by decide +kernel

/-- V15: OUT0 of "abc" (the example of R233 prints another word: log entry 16). -/
theorem test_encHex :
    let t := after State.reset (exec .encHex (eng (digested abcDigest State.reset)))
    readReg (.out 0) t = 0x31303039 ∧ readReg .outLen t = 32 := by decide +kernel

/-- V15: upper case. -/
theorem test_encHex_upper :
    (after State.reset (exec .encHex (eng
      { digested abcDigest State.reset with cfg := cfgOfWord 0x00000001 }))).out.toList.take 10 =
      [0x39, 0x30, 0x30, 0x31, 0x35, 0x30, 0x39, 0x38, 0x33, 0x43] := by decide +kernel

/-- R236, example: "kAFQmDzST7DWlj99KOF/cg==". -/
theorem test_encB64_pad :
    (after State.reset (exec .encB64 (eng
      { digested abcDigest State.reset with cfg := cfgOfWord 0x00003D02 }))).out.toList.take 25 =
      [0x6b, 0x41, 0x46, 0x51, 0x6d, 0x44, 0x7a, 0x53, 0x54, 0x37, 0x44, 0x57, 0x6c, 0x6a, 0x39, 0x39, 0x4b, 0x4f,
        0x46, 0x2f, 0x63, 0x67, 0x3d, 0x3d, 0x00] := by decide +kernel

/-- V18: sixteen bytes 0xFF. -/
theorem test_encB64_ones :
    let t := after State.reset (exec .encB64 (eng (digested (Vector.replicate 16 0xFF) State.reset)))
    t.out.toList.take 23 = List.replicate 21 0x2f ++ [0x77, 0x00] ∧ t.outLen = 22 := by decide +kernel

/-- R242, example: the first and last symbols of 191415658344158766168031473277922803570. -/
theorem test_encRadix_ten :
    let t := after State.reset (exec .encRadix (eng (withAlphabet
      [0x30, 0x31, 0x32, 0x33, 0x34, 0x35, 0x36, 0x37, 0x38, 0x39] (digested abcDigest State.reset))))
    t.outLen = 39 ∧ t.out.toList.take 6 = [0x31, 0x39, 0x31, 0x34, 0x31, 0x35] ∧
      (t.out.toList.drop 36).take 4 = [0x35, 0x37, 0x30, 0x00] := by decide +kernel

/-- V17: the first division of "abc" by 10. -/
theorem test_division :
    let e := divideOnce 10 { EncWork.reset with limb := limbsOf abcDigest }
    e.limb = #v[0x0e66, 0x880f, 0x3948, 0x3b2b, 0x48a8, 0x9ff2, 0xea7c, 0xf325] ∧ byteAt e.rem 0 = 0 := by
  decide +kernel

/-- R179, example. -/
theorem test_selftest : statusOf .selftest (eng (running 0x0000000A State.reset)) = 0x0000D002 := by decide +kernel

/-- R128, example. -/
theorem test_ack :
    let s := { State.reset with status := { Status.reset with err := true, errCode := .busy } }
    readReg .status s = 0x00000014 ∧ statusOf .ack s = 0x00000000 := by decide +kernel

/-- R287: ACK while a command runs. -/
theorem test_ack_busy :
    statusOf .ack (running 0x00000000 { State.reset with status := { Status.reset with err := true, errCode := .badSeq } }) =
      0x0000003D := by decide +kernel

/-- R129, example. -/
theorem test_softReset :
    let t := after State.reset (exec .softReset (running 0x00000003 (inMode .md5 (digested abcDigest State.reset))))
    readReg .status t = 0 ∧ readReg (.digest 0) t = 0 ∧ t.seq.phase = .idle := by decide +kernel

/-- R170, example, V12 row 0. -/
theorem test_stepFf :
    (after State.reset (exec (.stepFf 0) (atStep 0 iv))).hash =
      { a := 0x10325476, b := 0xD6D117B4, c := 0xEFCDAB89, d := 0x98BADCFE } := by decide +kernel

/-- V12 row 16. -/
theorem test_stepGg :
    (after State.reset (exec (.stepGg 16)
      (atStep 16 { a := 0xDDA9B9A6, b := 0x72AFF2E0, c := 0xE396856B, d := 0xA1051895 }))).hash =
      { a := 0xA1051895, b := 0x3E9E9126, c := 0x72AFF2E0, d := 0xE396856B } := by decide +kernel

/-- V12 row 35. -/
theorem test_stepHh :
    (after State.reset (exec (.stepHh 35)
      (atStep 35 { a := 0x726342D3, b := 0x8D212FF5, c := 0x60127B2E, d := 0xB3707EBF }))).hash =
      { a := 0xB3707EBF, b := 0x3B0875C7, c := 0x8D212FF5, d := 0x60127B2E } := by decide +kernel

/-- V12 row 50. -/
theorem test_stepIi :
    (after State.reset (exec (.stepIi 50)
      (atStep 50 { a := 0x8FAE6399, b := 0xF4E8E96E, c := 0x7B201DF8, d := 0x7BEB9700 }))).hash =
      { a := 0x7BEB9700, b := 0xB298CEFD, c := 0xF4E8E96E, d := 0x7B201DF8 } := by decide +kernel

/-! ## The rest of the machine -/

/-- V8: a row of the round functions. -/
theorem test_round_functions :
    ff 0xFFFFFFFF 0x12345678 0x9ABCDEF0 = 0x12345678 ∧ gg 0xFFFFFFFF 0x12345678 0x9ABCDEF0 = 0x9ABCDEF8 ∧
      hh 0xFFFFFFFF 0x12345678 0x9ABCDEF0 = 0x77777777 ∧ ii 0xFFFFFFFF 0x12345678 0x9ABCDEF0 = 0xEDCBA987 := by
  decide

/-- V9: rotation. -/
theorem test_rotl32 :
    rotl32 0x80000001 1 = 0x00000003 ∧ rotl32 0x12345678 7 = 0x1A2B3C09 ∧ rotl32 0x12345678 23 = 0x3C091A2B := by decide

/-- V1: the signed forms of the initial constants (R161). -/
theorem test_iv_signed :
    [Hash.iv.a, Hash.iv.b, Hash.iv.c, Hash.iv.d].map (fun w => w.toInt) =
      [1732584193, -271733879, -1732584194, 271733878] := by decide

/-- V7: `pack("abcde")`. -/
theorem test_pack : pack [0x61, 0x62, 0x63, 0x64, 0x65] = [0x64636261, 0x00000065] := by decide

/-- V7, R148: PUSH 2 at MLEN = 2^64 - 8 is LEN_OVF and appends nothing. A rejection keeps DONE (R25), so STATUS is not the
0x164 that V7 prints (log entry 21). -/
theorem test_len_ovf :
    let t := after State.reset (step (cmdIn 0x00000202
      { inMode .md5 State.reset with mlen := 0xFFFFFFFFFFFFFFF8, status := { Status.reset with mode := .md5, done := true } }))
    readReg .status t = 0x00000166 ∧ t.mlen = 0xFFFFFFFFFFFFFFF8 := by decide +kernel

/-- V6: BAD_RADIX. -/
theorem test_bad_radix :
    readReg .status (after State.reset (step (cmdIn 0x00000009
      { digested abcDigest State.reset with alphaLen := 257 }))) = 0x00001054 := by decide +kernel

/-- R283, V19: BUSY comes before BAD_OP. -/
theorem test_busy_first :
    readReg .status (after State.reset (step (cmdIn 0x00010002 (running 0x00000000 State.reset)))) = 0x00000015 := by
  decide +kernel

/-- V6: a misaligned read records BAD_ADDR and returns 0. -/
theorem test_read_misaligned :
    let t := after State.reset (step (eventIn (.read 0x009) State.reset))
    readReg .status t = 0x00000074 ∧ t.rdata = 0 := by decide +kernel

/-- V6: the reserved bits of CONFIG. -/
theorem test_write_config :
    readReg .config (after State.reset (step (eventIn (.write 0x00C 0xFFFFFFFF) State.reset))) = 0x0000FF07 := by
  decide +kernel

/-- V20: one code point of each length, and a lone surrogate. -/
theorem test_normalize :
    normalize [0x0041] = [0x41] ∧ normalize [0x00E9] = [0xC3, 0xA9] ∧ normalize [0x20AC] = [0xE2, 0x82, 0xAC] ∧
      normalize [0xD83D, 0xDE00] = [0xF0, 0x9F, 0x98, 0x80] ∧ normalize [0xD800] = [0xED, 0xA0, 0x80] := by decide

/-- R322: the micro-steps of SELFTEST and of ENC_RADIX with r = 10. -/
theorem test_micro_steps :
    microSteps .selftest State.reset = 68 ∧ microSteps .encRadix { State.reset with alphaLen := 10 } = 359 := by decide

/-- R266: symbol `v` in lane `v mod 4` of ALPHA`(v div 4)`. -/
theorem test_alphabet_words : alphabetWords [0x61, 0x62, 0x63, 0x64, 0x65] = [0x64636261, 0x00000065] := by decide

/-- R266: `(CONFIG & ~1) | upper` on the reset value of CONFIG (R43). -/
theorem test_merge_config :
    ((HostEnv.mergeConfig 0x00000001 0x00000001 ⟨State.reset, []⟩).toOption.map fun g => readReg .config g.mde) =
      some 0x00003D01 := by decide +kernel

/-- R268. -/
theorem test_selftestPasses :
    ((HostEnv.selftestPasses ⟨State.reset, [1]⟩).toOption.map fun x => x.1) = some true := by decide +kernel

/-- R268, R269, R130: in an open session SELFTEST is rejected, and the entry point returns no ST_PASS. -/
theorem test_selftest_rejected :
    ((HostEnv.selftestPasses ⟨inMode .md5 State.reset, []⟩).toOption.map fun x => x.1) = none := by decide +kernel

/-- R310, R313, R43: from power-up, asserting and releasing `rst` leads to the reset values. -/
theorem test_boot :
    let t := after State.reset (step (after State.reset (step (State.powerUp [.rstAssert, .rstRelease]))))
    readReg .config t = 0x00003D00 ∧ readReg .status t = 0 ∧ t.irq = false := by decide +kernel

/-- R100: the expansion of PUSHB. -/
theorem test_assemble :
    assemble 0 [.pushb [0x61, 0x62, 0x63], .stmt .halt] =
      [.rd .status 0, .bbs 0 0 0, .wr .dataIn 0x00636261, .wr .cmd 0x00000302, .halt] := by decide

/-! ## States of the invariant -/

theorem reset_stream : StreamInv State.reset where
  mlen_bytes := by decide
  bcnt_lt := by decide
  block_tail := by decide +kernel
  bcnt_mlen := by decide
  bcnt_zero := by decide
  hmsg_mlen := by decide
  key_tail := by decide +kernel
  kbuf_zero := by decide +kernel

theorem almostFull_stream : StreamInv almostFull where
  mlen_bytes := by decide
  bcnt_lt := by decide
  block_tail := by decide +kernel
  bcnt_mlen := by decide +kernel
  bcnt_zero := by decide
  hmsg_mlen := by decide
  key_tail := by decide +kernel
  kbuf_zero := by decide +kernel

theorem keyHashing_stream : StreamInv keyHashing where
  mlen_bytes := by decide
  bcnt_lt := by decide
  block_tail := by decide +kernel
  bcnt_mlen := by decide +kernel
  bcnt_zero := by decide +kernel
  hmsg_mlen := by decide
  key_tail := by decide +kernel
  kbuf_zero := by decide +kernel

theorem md5Open_stream : StreamInv (inMode .md5 State.reset) where
  mlen_bytes := by decide
  bcnt_lt := by decide
  block_tail := by decide +kernel
  bcnt_mlen := by decide +kernel
  bcnt_zero := by decide +kernel
  hmsg_mlen := by decide
  key_tail := by decide +kernel
  kbuf_zero := by decide +kernel

/-- An HMAC session after HMAC_START. -/
def hmsgOpen : State := { inMode .hmsg State.reset with mlen := 512 }

theorem hmsgOpen_stream : StreamInv hmsgOpen where
  mlen_bytes := by decide
  bcnt_lt := by decide
  block_tail := by decide +kernel
  bcnt_mlen := by decide +kernel
  bcnt_zero := by decide +kernel
  hmsg_mlen := by decide
  key_tail := by decide +kernel
  kbuf_zero := by decide +kernel

theorem reset_data : DataInv State.reset where
  digest_zero := by decide
  out_len_zero := by decide
  out_len_le := by decide
  out_tail := by decide +kernel
  alpha_wf := by decide
  alpha_within := by decide

theorem reset_inv : Inv State.reset where
  seq :=
    { busy_iff_run := by decide, idle_pcmd := by decide, idle_block := by decide, no_block_step := by decide
      run_accepted := fun h => by cases h }
  status :=
    { busy_not_done := by decide, err_clear := by decide, err_code := by decide, khash_iff := by decide
      pass_done := by decide, done_dvalid := by decide }
  stream := reset_stream
  data := reset_data
  since_reset := by decide
  in_reset := fun h => by cases h

/-- A running NOP, and one with a compression in progress at step `n`. -/
def nopRunning (b : BlockPhase) (n : BitVec 6) : State :=
  { State.reset with
    status := { Status.reset with busy := true }
    seq := { Seq.reset with phase := .run, block := b, step := n } }

theorem nopRunning_inv (b : BlockPhase) (n : BitVec 6) (h : b = .step ∨ n = 0) : Inv (nopRunning b n) where
  seq :=
    { busy_iff_run := by simp [nopRunning], idle_pcmd := fun _ => rfl, idle_block := fun h => by cases h
      no_block_step := fun hb => h.resolve_left hb
      run_accepted := fun _ => ⟨.nop, (by decide : decodeCmd 0 = .ok .nop), rfl, rfl⟩ }
  status :=
    { busy_not_done := fun _ => rfl, err_clear := fun _ => ⟨rfl, rfl⟩, err_code := fun h => by cases h
      khash_iff := by simp [nopRunning, Status.reset], pass_done := fun h => by cases h
      done_dvalid := fun h => by cases h }
  stream := { reset_stream with }
  data := { reset_data with }
  since_reset := fun h => by cases h
  in_reset := fun h => by cases h

/-! ## Witnesses: states and operands that meet the hypotheses of each statement together -/

/-- A host write of `v` at `off` arrives. -/
def writeIn (off : BitVec 12) (v : Word) (s : State) : State := eventIn (.write off v) s

/-- Out of reset, idle, and `v` arrives at CMD: the hypotheses of `CmdLaw op` and its like. -/
theorem cmdLaw_met (v : Word) (op : Nat) (h : v.toNat % 2 ^ 8 = op) (s : State) (hs : s.rst = .released) :
    ∃ (u : State) (rest : List Event),
      u.rst = .released ∧ u.inbox = .write 0x004 v :: rest ∧ v.toNat % 2 ^ 8 = op ∧ u.status = s.status :=
  ⟨cmdIn v s, [], hs, rfl, h, rfl⟩

theorem witness_SoftResetExactWordResets_exact :
    (cmdIn 0x0000000F (running 0x00000003 State.reset)).rst = .released ∧
      (0x0000000F : Word).toNat % 2 ^ 8 = 0x0F := by decide
theorem witness_SoftResetExactWordResets_other :
    (cmdIn 0x0000010F State.reset).rst = .released ∧ (0x0000010F : Word).toNat % 2 ^ 8 = 0x0F ∧
      (0x0000010F : Word) ≠ 0x0000000F := by decide

theorem witness_ResetTableHoldsAfterReset : (running 0x00000003 State.reset).rst ≠ .powerUp := by decide
theorem witness_RstInputResetsAndIgnoresAccesses_powerUp :
    (State.powerUp []).rst = .powerUp ∧ (Event.write 0x004 0x0000000F) ≠ .rstAssert := ⟨rfl, by decide⟩
theorem witness_RstInputResetsAndIgnoresAccesses : ∃ s : State, s.rst = .asserted := ⟨{ State.reset with rst := .asserted }, rfl⟩

theorem witness_StepRunsDecodedInstruction_write :
    ∃ (s : State) (v : Word) (rest : List Event) (i : Instr),
      s.rst = .released ∧ s.inbox = .write 0x004 v :: rest ∧ decode (.cmd v) = .ok i :=
  ⟨cmdIn 0x00000402 State.reset, 0x00000402, [], .push 4, rfl, rfl, by decide⟩
theorem witness_StepRunsDecodedInstruction_completion : completes .md5Init (running 0x00000001 State.reset) := by
  unfold completes nextIn; decide
theorem witness_StepRunsDecodedInstruction_microStep :
    (atStep 63 iv).rst = .released ∧ nextIn (atStep 63 iv) = .engine ∧ (atStep 63 iv).seq.phase = .run ∧
      (atStep 63 iv).seq.block = .step ∧ decode (.seq (atStep 63 iv).seq.step) = .ok (.stepIi 63) := by decide
theorem witness_StepRunsDecodedInstruction_fetch :
    decodeTableWord 32 0x0000000F = some .softReset ∧ decodeTableWord 8 0x3F = some (.stepIi 63) := by decide

theorem witness_DecodeOfEncodeIsIdentity :
    Instr.wellFormed (.push 255) = true ∧ encode (.push 255) = .cmd 0x0000FF02 ∧
      Instr.wellFormed (.stepGg 31) = true ∧ encode (.stepGg 31) = .seq 31 := by decide
theorem witness_EncodeOfDecodeIsIdentity :
    decode (.cmd 0x0000FF02) = .ok (.push 255) ∧ decode (.seq 31) = .ok (.stepGg 31) := by decide

theorem witness_CmdWriteFollowsCheckOrder :
    ∃ (s : State) (v : Word) (rest : List Event), s.rst = .released ∧ s.inbox = .write 0x004 v :: rest ∧
      verdict v s = .accept :=
  ⟨cmdIn 0x00000102 (inMode .md5 State.reset), 0x00000102, [], rfl, rfl, by decide⟩
/-- Every decision of R122 is taken by some word in some state. -/
theorem witness_CmdWriteFollowsCheckOrder_verdicts :
    verdict 0x0000000F (running 0 State.reset) = .softReset ∧ verdict 0x0000000E State.reset = .ack ∧
    verdict 0x0000000E (running 0 State.reset) = .reject .busy ∧
    verdict 0x0000000B State.reset = .reject .badOp ∧ verdict 0x00000102 State.reset = .reject .badSeq ∧
    verdict 0x00000502 (inMode .md5 State.reset) = .reject .badArg ∧
    verdict 0x00000009 (digested abcDigest State.reset) = .reject .badRadix ∧
    verdict 0x00000202 { inMode .md5 State.reset with mlen := 0xFFFFFFFFFFFFFFF8 } = .reject .lenOvf := by decide

theorem witness_HostReadAnswersRegister :
    ∃ (s : State) (off : BitVec 12) (rest : List Event), s.rst = .released ∧ s.inbox = .read off :: rest :=
  ⟨eventIn (.read 0x2FC) State.reset, 0x2FC, [], rfl, rfl⟩
/-- Mapped edges of each range, and offsets one word beyond them. -/
theorem witness_HostReadAnswersRegister_edges :
    [0x000, 0x020, 0x030, 0x03C, 0x100, 0x17C, 0x200, 0x2FC].all (fun o => (regValue o State.reset).isSome) = true ∧
    [0x001, 0x024, 0x02C, 0x040, 0x0FC, 0x180, 0x1FC, 0x300, 0xFFC].all (fun o => (regValue o State.reset).isNone) = true := by
  decide +kernel

theorem witness_HostWriteOutcome_cmd :
    (writeIn 0x004 0x00000000 State.reset).rst = .released ∧ Memory.wf State.reset.alpha = true ∧
      (0x004 : BitVec 12).toNat = 0x004 := by decide
theorem witness_HostWriteOutcome_refused :
    (writeIn 0x17C 0 State.reset).rst = .released ∧ [0x000, 0x008, 0x00D, 0x018, 0x17C, 0x300].all
      (fun o => writable o == false) = true := by decide
theorem witness_HostWriteOutcome_busy :
    (writeIn 0x2FC 0 (running 0 State.reset)).status.busy = true ∧ writable 0x2FC = true := by decide
theorem witness_HostWriteOutcome_stored :
    (writeIn 0x00C 0 State.reset).status.busy = false ∧
      [0x00C, 0x010, 0x014, 0x200, 0x2FC].all (fun o => writable o) = true := by decide

theorem witness_ReservedFieldsReadZero : ∃ s : State, s.rst = .released ∧ s.status.busy = false := ⟨State.reset, rfl, rfl⟩

theorem witness_DataWritesAreIdempotent :
    ∃ (s t : State) (r : Reg) (v : Word),
      (r = .config ∨ r = .dataIn ∨ r = .alphaLen ∨ (∃ j, r = .alpha j)) ∧
      s.rst = .released ∧ s.status.busy = false ∧ Memory.wf s.alpha = true ∧ stepOn (writeTo r v) s = .next t :=
  ⟨State.reset, _, .alpha 63, 0x00FF00FF, .inr (.inr (.inr ⟨63, rfl⟩)), rfl, rfl, rfl,
    next_after (s := State.reset) (by decide +kernel)⟩

/-- An address inside the window and one outside it, whatever BASE is. -/
theorem witness_WindowRoutingFromBase :
    (∃ addr : Word, Config.basePage.toNat * 0x1000 ≤ addr.toNat ∧
      addr.toNat < Config.basePage.toNat * 0x1000 + 0x1000) ∧
    (∃ addr : Word, ¬ (Config.basePage.toNat * 0x1000 ≤ addr.toNat ∧
      addr.toNat < Config.basePage.toNat * 0x1000 + 0x1000)) := by
  have hb : Config.basePage.toNat < 2 ^ 20 := Config.basePage.isLt
  refine ⟨⟨BitVec.ofNat 32 (Config.basePage.toNat * 0x1000), ?_⟩, ?_⟩
  · rw [BitVec.toNat_ofNat]; omega
  · by_cases h0 : Config.basePage.toNat = 0
    · exact ⟨0x1000, by rw [h0]; decide⟩
    · exact ⟨0, by simp; omega⟩

theorem witness_NopCompletesUnchanged : ∃ s : State, s.turn = .engine := ⟨eng State.reset, rfl⟩
theorem witness_NopCompletesUnchanged_word : (0x00000000 : Word).toNat % 2 ^ 8 = 0x00 ∧ (cmdIn 0x00000000 State.reset).rst = .released := by
  decide
theorem witness_AckClearsErrorsAndDone :
    (0x0000010E : Word).toNat % 2 ^ 8 = 0x0E ∧ (cmdIn 0x0000010E State.reset).rst = .released ∧
      (0x0000000E : Word).toNat % 2 ^ 8 = 0x0E := by decide
theorem witness_Md5InitOpensSession : (0x00000001 : Word).toNat % 2 ^ 8 = 0x01 ∧ (eng State.reset).turn = .engine := by decide

theorem witness_PushAcceptanceAndLengthBound : (0x00000502 : Word).toNat % 2 ^ 8 = 0x02 ∧ (cmdIn 0x00000502 State.reset).rst = .released := by
  decide
theorem witness_PushAcceptanceAndLengthBound_inv : ∃ s : State, Inv s := ⟨State.reset, reset_inv⟩

/-- The byte 64 does not fill the block buffer before it arrives. -/
theorem witness_PushJoinsBlockAndCompresses_room :
    ∃ (s : State) (n : Byte), s.turn = .engine ∧ 1 ≤ n.toNat ∧ n.toNat ≤ 4 ∧ StreamInv s ∧ s.status.mode = .md5 ∧
      (blockBytes s ++ pushed n s).length < 64 :=
  ⟨eng (inMode .md5 State.reset), 4, rfl, by decide, by decide, { md5Open_stream with }, rfl, by decide⟩
theorem witness_PushJoinsBlockAndCompresses_fills :
    ∃ (s : State) (n : Byte), s.turn = .engine ∧ 1 ≤ n.toNat ∧ n.toNat ≤ 4 ∧ StreamInv s ∧ s.status.mode = .md5 ∧
      64 ≤ (blockBytes s ++ pushed n s).length :=
  ⟨eng almostFull, 1, rfl, by decide, by decide, { almostFull_stream with }, rfl, by decide +kernel⟩
theorem witness_PushJoinsBlockAndCompresses_hmsg :
    ∃ s : State, s.turn = .engine ∧ StreamInv s ∧ s.status.mode = .hmsg :=
  ⟨eng hmsgOpen, rfl, { hmsgOpen_stream with }, rfl⟩
theorem witness_PushJoinsBlockAndCompresses_longKey :
    ∃ s : State, s.turn = .engine ∧ StreamInv s ∧ s.status.mode = .key ∧ s.status.khash = true :=
  ⟨eng keyHashing, rfl, { keyHashing_stream with }, rfl, rfl⟩

theorem witness_PushStoresShortKey :
    ∃ (s : State) (n : Byte), s.turn = .engine ∧ 1 ≤ n.toNat ∧ n.toNat ≤ 4 ∧ s.status.mode = .key ∧
      s.status.khash = false ∧ s.mlen.toNat % 8 = 0 ∧ s.mlen.toNat / 8 + n.toNat ≤ 64 :=
  ⟨eng (keyLoaded 60), 4, rfl, by decide, by decide, rfl, rfl, by decide, by decide⟩
theorem witness_PushOfKeyByte65StartsHash :
    ∃ (s : State) (n : Byte), s.turn = .engine ∧ 1 ≤ n.toNat ∧ n.toNat ≤ 4 ∧ s.status.mode = .key ∧
      s.status.khash = false ∧ s.mlen.toNat % 8 = 0 ∧ s.mlen.toNat / 8 ≤ 64 ∧ 64 < s.mlen.toNat / 8 + n.toNat :=
  ⟨eng (keyLoaded 64), 1, rfl, by decide, by decide, rfl, rfl, by decide, by decide, by decide⟩

theorem witness_Md5FinalWritesDigest : ∃ s : State, s.turn = .engine ∧ StreamInv s :=
  ⟨eng almostFull, rfl, { almostFull_stream with }⟩
theorem witness_Md5FinalWritesDigest_word : (0x00000003 : Word).toNat % 2 ^ 8 = 0x03 := by decide
theorem witness_SelftestPasses : (0x0000000A : Word).toNat % 2 ^ 8 = 0x0A ∧ (eng State.reset).turn = .engine := by decide
theorem witness_DigestRegistersEqualHash :
    ∃ (i : Instr) (s : State), s.turn = .engine ∧ (i = .md5Final ∨ i = .hmacFinal ∨ i = .selftest) :=
  ⟨.hmacFinal, eng hmsgOpen, rfl, .inr (.inl rfl)⟩
theorem witness_RoundFunctionsBitwise : (31 : Nat) < 32 := by decide
theorem witness_MicroStepsEqualCompression :
    (atStep 0 iv).rst = .released ∧ (atStep 0 iv).seq.phase = .run ∧ (atStep 0 iv).seq.block = .step ∧
      (atStep 0 iv).seq.step = 0 := by decide

theorem witness_HmacKeyInitOpensKeySession : (0x00000004 : Word).toNat % 2 ^ 8 = 0x04 ∧ (eng State.reset).turn = .engine := by decide
theorem witness_HmacStartCompressesIpad : ∃ s : State, s.turn = .engine ∧ StreamInv s ∧ s.status.khash = true :=
  ⟨eng keyHashing, rfl, { keyHashing_stream with }, rfl⟩
theorem witness_HmacStartCompressesIpad_word : (0x00000005 : Word).toNat % 2 ^ 8 = 0x05 := by decide
theorem witness_HmacFinalWritesOuterDigest : ∃ s : State, s.turn = .engine ∧ StreamInv s ∧ s.status.mode = .hmsg :=
  ⟨eng hmsgOpen, rfl, { hmsgOpen_stream with }, rfl⟩
theorem witness_HmacFinalWritesOuterDigest_word : (0x00000006 : Word).toNat % 2 ^ 8 = 0x06 := by decide

theorem witness_EncHexWritesHexDigits : (0x00000007 : Word).toNat % 2 ^ 8 = 0x07 ∧ (eng State.reset).turn = .engine := by decide
theorem witness_EncB64WritesBase64Digits : (0x00000008 : Word).toNat % 2 ^ 8 = 0x08 ∧ (eng State.reset).turn = .engine := by decide
theorem witness_EncRadixWritesRadixDigits_word : (0x00000009 : Word).toNat % 2 ^ 8 = 0x09 := by decide
theorem witness_EncRadixWritesRadixDigits :
    ∃ s : State, s.turn = .engine ∧ 2 ≤ s.alphaLen.toNat ∧ s.alphaLen.toNat ≤ 256 :=
  ⟨eng { State.reset with alphaLen := 256 }, rfl, by decide, by decide⟩
theorem witness_BadRadixClearsOutput_low :
    let s := cmdIn 0x00000009 { digested abcDigest State.reset with alphaLen := 1 }
    s.rst = .released ∧ s.status.busy = false ∧ s.status.dvalid = true ∧ s.alphaLen.toNat < 2 := by decide
theorem witness_BadRadixClearsOutput_high :
    let s := cmdIn 0x00000009 { digested abcDigest State.reset with alphaLen := 257 }
    s.rst = .released ∧ s.status.busy = false ∧ s.status.dvalid = true ∧ 256 < s.alphaLen.toNat := by decide
theorem witness_RadixIterationDividesByRadix :
    ∃ (r : Nat) (e : EncWork), 2 ≤ r ∧ r ≤ 256 ∧ e.iter.toNat < 128 :=
  ⟨256, { EncWork.reset with iter := 127 }, by decide, by decide, by decide⟩
theorem witness_RadixIterationCountIsLeast : 2 ≤ (2 : Nat) ∧ (2 : Nat) ≤ 256 := by decide
theorem witness_RadixSixteenEqualsHex :
    ∃ s : State, s.turn = .engine ∧ s.alphaLen.toNat = 16 ∧
      ∀ v : Fin 16, s.symbol v.val = (hexDigits s.cfg.hexUpper).getD v.val 0 :=
  ⟨eng (withAlphabet (hexDigits false) (digested abcDigest State.reset)), rfl, by decide, by decide +kernel⟩

theorem reset_ready : Ready State.reset := ⟨rfl, rfl, rfl⟩
theorem witness_StreamingEqualsPacking :
    ∃ (s : State) (gs : List (List Byte)), Ready s ∧ (∀ g ∈ gs, 1 ≤ g.length ∧ g.length ≤ 4) ∧
      gs.flatten.length ≤ 2 ^ 61 - 1 :=
  ⟨State.reset, [[0x61], [0x62, 0x63, 0x64, 0x65]], reset_ready, by decide, by decide⟩
theorem witness_Md5SessionComputesMd5 :
    ∃ (s : State) (gs : List (List Byte)), Ready s ∧ (∀ g ∈ gs, 1 ≤ g.length ∧ g.length ≤ 4) ∧
      gs.flatten.length ≤ 2 ^ 61 - 1 :=
  ⟨keyHashing, List.replicate 17 [0x61, 0x62, 0x63, 0x64], ⟨rfl, rfl, rfl⟩, by decide, by decide⟩
theorem witness_HmacSessionComputesHmac :
    ∃ (s : State) (ks ms : List (List Byte)), Ready s ∧ (∀ g ∈ ks, 1 ≤ g.length ∧ g.length ≤ 4) ∧
      (∀ g ∈ ms, 1 ≤ g.length ∧ g.length ≤ 4) ∧ ks.flatten.length ≤ 2 ^ 61 - 65 ∧ ms.flatten.length ≤ 2 ^ 61 - 65 :=
  ⟨State.reset, List.replicate 17 [0x6b, 0x6b, 0x6b, 0x6b], [[0x61]], reset_ready, by decide, by decide, by decide,
    by decide⟩
theorem witness_EntryPointsAnswer :
    ∃ (h : HostEnv) (text key : List (BitVec 16)) (alphabet : List Byte), Inv h.mde ∧ Ready h.mde ∧
      h.mde.status.err = false ∧ h.mde.status.mode = .none ∧ (normalize text).length ≤ 2 ^ 61 - 65 ∧ (normalize key).length ≤ 2 ^ 61 - 65 ∧
      2 ≤ alphabet.length ∧ alphabet.length ≤ 256 :=
  ⟨⟨State.reset, [3]⟩, [0xD83D, 0xDE00], [], List.replicate 256 0x41, reset_inv, reset_ready, rfl, rfl,
    by decide, by decide, by rw [List.length_replicate]; decide, by rw [List.length_replicate]⟩
theorem witness_EntryPointsAnswer_error : ∃ h : HostEnv, Inv h.mde ∧ Ready h.mde ∧ h.mde.status.err = true :=
  ⟨⟨recordError .badOp State.reset, []⟩,
    { reset_inv with
      seq := { reset_inv.seq with run_accepted := fun h => by cases h }
      status := by constructor <;> decide
      stream := { reset_stream with }
      data := { reset_data with }
      in_reset := fun h => by cases h },
    ⟨rfl, rfl, rfl⟩, rfl⟩
theorem witness_EntryPointsAnswer_mode : ∃ h : HostEnv, Inv h.mde ∧ Ready h.mde ∧ h.mde.status.mode ≠ .none :=
  ⟨⟨inMode .md5 State.reset, []⟩,
    { reset_inv with
      seq := { reset_inv.seq with run_accepted := fun h => by cases h }
      status := by constructor <;> decide
      stream := by constructor <;> decide +kernel
      data := { reset_data with }
      in_reset := fun h => by cases h },
    ⟨rfl, rfl, rfl⟩, by decide⟩

theorem witness_BusyAndDoneWriters_accept : writesCmd 0x00000000 (cmdIn 0x00000000 State.reset) ∧
    verdict 0x00000000 (cmdIn 0x00000000 State.reset) = .accept := by unfold writesCmd nextIn; decide
theorem witness_BusyAndDoneWriters_completes : completes .nop (running 0x00000000 State.reset) := by
  unfold completes nextIn; decide
theorem witness_BusyAndDoneWriters_resets : resets (cmdIn 0x0000000F State.reset) := by unfold resets nextIn; decide
theorem witness_BusyAndDoneWriters_ack : writesCmd 0x0000000E (cmdIn 0x0000000E State.reset) := by
  unfold writesCmd nextIn; decide
theorem witness_BusyAndDoneWriters_changes :
    ∃ s t : State, s.rst ≠ .powerUp ∧ step s = .next t ∧ t.status.busy ≠ s.status.busy ∧ t.status.done ≠ s.status.done :=
  ⟨running 0x00000000 State.reset, _, by decide, next_after (s := State.reset) (by decide +kernel), by decide +kernel,
    by decide +kernel⟩

theorem witness_ErrorFieldWriters : ∃ s t : State, s.rst ≠ .powerUp ∧ step s = .next t ∧ t.status.err ≠ s.status.err :=
  ⟨eventIn (.read 0x024) State.reset, _, by decide, next_after (s := State.reset) (by decide +kernel), by decide +kernel⟩
theorem witness_ErrorFieldWriters_inv : ∃ s : State, Inv s ∧ s.status.err = false := ⟨State.reset, reset_inv, rfl⟩

theorem witness_OnlyResetClearsResults_digest :
    ∃ s t : State, s.rst ≠ .powerUp ∧ step s = .next t ∧ ¬ resets s ∧ t.digest ≠ s.digest :=
  ⟨running 0x0000000A State.reset, _, by decide, next_after (s := State.reset) (by decide +kernel),
    by unfold resets nextIn; decide, by decide +kernel⟩
theorem witness_OnlyResetClearsResults_ovalid :
    ∃ s t : State, s.rst ≠ .powerUp ∧ step s = .next t ∧ ¬ resets s ∧ t.status.ovalid ≠ s.status.ovalid :=
  ⟨running 0x00000007 (digested abcDigest State.reset), _, by decide, next_after (s := State.reset) (by decide +kernel),
    by unfold resets nextIn; decide, by decide +kernel⟩
theorem witness_OnlyResetClearsResults_alpha :
    ∃ s t : State, s.rst ≠ .powerUp ∧ step s = .next t ∧ ¬ resets s ∧ t.alpha ≠ s.alpha :=
  ⟨writeIn 0x2FC 0x01000000 State.reset, _, by decide, next_after (s := State.reset) (by decide +kernel),
    by unfold resets nextIn; decide, by decide +kernel⟩

theorem witness_RegisterWritersByEvent_registers :
    ∃ s t : State, s.rst ≠ .powerUp ∧ step s = .next t ∧ ¬ resets s ∧ t.dataIn ≠ s.dataIn :=
  ⟨writeIn 0x010 0x00636261 State.reset, _, by decide, next_after (s := State.reset) (by decide +kernel),
    by unfold resets nextIn; decide, by decide +kernel⟩
theorem witness_RegisterWritersByEvent_session :
    ∃ s t : State, s.rst ≠ .powerUp ∧ step s = .next t ∧ ¬ resets s ∧ t.status.mode ≠ s.status.mode ∧ t.mlen ≠ s.mlen :=
  ⟨running 0x00000005 (keyLoaded 3), _, by decide, next_after (s := State.reset) (by decide +kernel),
    by unfold resets nextIn; decide, by decide +kernel, by decide +kernel⟩

theorem witness_RunningCommandIsInvisible :
    ∃ (s : State) (v : Word) (es : List Event), s.rst = .released ∧ verdict v s = .accept ∧ s.seq.block = .idle ∧
      ∀ e ∈ es, plainAccess e = true :=
  ⟨State.reset, 0x00000001, [.write 0x010 0x12345678, .read 0x008, .write 0x004 0x0000000E], rfl, by decide, rfl,
    by decide⟩

theorem witness_IrqLevelAndClearing : ∃ (s : State) (v : Word), s.rst = .released ∧ s.rst ≠ .powerUp ∧ s.status.busy = false ∧ v.getLsbD 2 = false ∧
    verdict 0x00000000 s = .accept := ⟨State.reset, 0xFFFFFFFB, rfl, by decide, rfl, by decide, by decide⟩

theorem witness_StepKeepsInvariant : ∃ s t : State, Inv s ∧ step s = .next t ∧ t ≠ s :=
  ⟨nopRunning .idle 0, _, nopRunning_inv .idle 0 (.inr rfl), next_after (s := State.reset) (by decide +kernel),
    by decide +kernel⟩
theorem witness_NothingFailsOnceRunning_powerUp : (State.powerUp []).rst = .powerUp := rfl
theorem witness_NothingFailsOnceRunning : ∃ s : State, Inv s ∧ s.status.busy = true :=
  ⟨nopRunning .step 63, nopRunning_inv .step 63 (.inl rfl), rfl⟩
theorem witness_IdleWithinBoundedTurns_idle : ∃ s : State, Inv s ∧ s.rst = .released ∧ s.inbox = [] ∧ s.seq.block = .idle :=
  ⟨nopRunning .idle 0, nopRunning_inv .idle 0 (.inr rfl), rfl, rfl, rfl⟩
theorem witness_IdleWithinBoundedTurns_compression : ∃ s : State, Inv s ∧ s.rst = .released ∧ s.inbox = [] ∧ s.seq.block = .step :=
  ⟨nopRunning .step 0, nopRunning_inv .step 0 (.inl rfl), rfl, rfl, rfl⟩
theorem witness_WaitLoopPolls :
    ∃ (prog : List HostStmt) (h : HostState) (s : State), s.rst = .released ∧ h.halted = false ∧
      prog[h.pc]? = (expandWait h.pc)[0]? ∧ prog[h.pc + 1]? = (expandWait h.pc)[1]? :=
  ⟨expandWait 0, HostState.start, running 0 State.reset, rfl, rfl, rfl, rfl⟩

end Sys2Proof.Tests
end

section
/-!
SUPPORT. Proofs of what a read of STATUS, CONFIG and the narrow registers shows (10_state.md R23, R26, R30, R42), and of
the reset table (R43).
-/

namespace Sys2Proof.Proofs

open Sys2Proof.Machine Sys2Proof.Claims

/-! ## The bits of STATUS and CONFIG -/

theorem getLsbD_flagAt (b : Bool) {k : Nat} (hk : k < 32) (j : Nat) :
    (flagAt b k).getLsbD j = (b && decide (j = k)) := by
  cases b
  · simp [flagAt]
  · rcases Nat.lt_trichotomy j k with h | h | h
    · simp [flagAt, h, Nat.ne_of_lt h]
    · simp [flagAt, h, hk]
    · simp [flagAt, Nat.ne_of_gt h, Nat.sub_ne_zero_of_lt h]

theorem getElem_flagAt (b : Bool) {k j : Nat} (hk : k < 32) (hj : j < 32) :
    (flagAt b k)[j] = (b && decide (j = k)) :=
  getLsbD_flagAt b hk j

/-- Nothing of STATUS stands above bit 15 (R23). -/
theorem statusWord_lt (t : Status) : (statusWord t).toNat < 2 ^ 16 := by
  apply Nat.lt_pow_two_of_testBit
  intro k hk
  have hflag : ∀ j, j < 16 → k ≠ j := by omega
  rw [← BitVec.getLsbD]
  simp (disch := omega) [statusWord, getLsbD_flagAt, hflag]

/-- ERR_OVF is bit 3 of STATUS (R23). -/
theorem statusWord_getLsbD_errOvf (t : Status) : (statusWord t).getLsbD 3 = t.errOvf := by
  simp [statusWord, getElem_flagAt]

/-- ERRCODE is bits 7:4 of STATUS (R23). -/
theorem statusWord_errCode (t : Status) : (statusWord t).extractLsb' 4 4 = t.errCode.code := by
  apply BitVec.eq_of_getElem_eq
  intro i hi
  interval_cases i <;> simp [statusWord, getElem_flagAt]

/-- The codes 8 to 15 are never written (R26, R281). -/
theorem errCode_code_lt (e : ErrCode) : e.code.toNat < 8 := by
  cases e <;> decide

/-- The reserved bits of CONFIG read 0 (R30, R42). -/
theorem cfgWord_reserved (c : Cfg) : cfgWord c &&& 0xFFFF00F8 = 0 := by
  apply BitVec.eq_of_getElem_eq
  intro i hi
  interval_cases i <;> simp [cfgWord, getElem_flagAt]

/-- CONFIG reads back as it was written, its reserved bits cleared (R30, R42). -/
theorem cfgWord_cfgOfWord (v : Word) : cfgWord (cfgOfWord v) = v &&& 0x0000FF07 := by
  apply BitVec.eq_of_getElem_eq
  intro i hi
  interval_cases i <;> simp [cfgWord, getElem_flagAt, cfgOfWord]

/-- ALPHA_LEN reads back as it was written, its reserved bits cleared (R32, R42). -/
theorem setWidth_nine_setWidth (v : Word) : (v.setWidth 9).setWidth 32 = v &&& 0x000001FF := by
  apply BitVec.eq_of_getElem_eq
  intro i hi
  interval_cases i <;> simp

/-! ## Host accesses to a running or idle MDE -/

/-- Out of reset MDE takes an event at the head of the inbox and keeps the events behind it. -/
theorem stepOn_live {s : State} (h : s.rst = .released) (e : Event) : stepOn e s = eventLive e s := by
  unfold stepOn
  rw [step_eq]
  exact event_live h e

theorem busWrite_mapped {off : BitVec 12} {r : Reg} (h : regAt off = some r) (hr : r ≠ .cmd) (v : Word) (s : State) :
    busWrite off v s = .next (writeReg r v s) := by
  rw [busWrite_other v s (by simp [h, hr]), h]

theorem busWrite_unmapped {off : BitVec 12} (h : regAt off = none) (v : Word) (s : State) :
    busWrite off v s = .next (recordError .badAddr s) := by
  rw [busWrite_other v s (by simp [h]), h]

/-- A host write to a register other than CMD is `writeReg` (R64). -/
theorem stepOn_writeTo {s : State} (h : s.rst = .released) {r : Reg} (hr : r ≠ .cmd) (v : Word) :
    stepOn (writeTo r v) s = .next (writeReg r v s) :=
  (stepOn_live h _).trans (busWrite_mapped (regAt_offset r) hr v s)

/-- A host write to a writable register of an idle MDE is the store (R64). -/
theorem stepOn_store {s : State} (h : s.rst = .released) (hb : s.status.busy = false) {r : Reg}
    (hr : r.access = .rw) (v : Word) : stepOn (writeTo r v) s = .next (storeReg r v s) := by
  have hcmd : r ≠ .cmd := by rintro rfl; cases hr
  rw [stepOn_writeTo h hcmd, writeReg_idle hr hb]

/-- Settles O12: the reserved bits are not stored, and the bit layout of the registers has no place for them. -/
theorem reservedFieldsReadZero : Obligations.ReservedFieldsReadZero := by
  refine ⟨fun s => ⟨statusWord_lt s.status, ?_, ?_, cfgWord_reserved s.cfg⟩, ?_, ?_⟩
  · rw [readReg, BitVec.toNat_setWidth_of_le (by decide)]
    exact s.outLen.isLt
  · rw [readReg, BitVec.toNat_setWidth_of_le (by decide)]
    exact s.alphaLen.isLt
  · intro s v h hb
    exact ⟨_, stepOn_store h hb rfl v, cfgWord_cfgOfWord v, rfl⟩
  · intro s v h hb
    exact ⟨_, stepOn_store h hb rfl v, setWidth_nine_setWidth v, rfl⟩

/-! ## The reset state -/

/-- Outside the power-up phase a reset leaves every row of the reset table (R43). -/
theorem atReset_hwReset {s : State} (h : s.rst ≠ .powerUp) : AtReset (hwReset s) where
  id := rfl
  status := rfl
  status_word := (by decide : statusWord Status.reset = 0)
  config := rfl
  config_word := (by decide : cfgWord Cfg.reset = 0x00003D00)
  data_in := rfl
  alpha_len := rfl
  mlen := rfl
  out_len := rfl
  out p := by simp [State.reset]
  digest i := by simp [State.reset]
  alpha v := rfl
  hash := rfl
  saved := rfl
  w i := by simp [State.reset]
  bcnt := rfl
  kbuf i := by simp [State.reset]
  phase := rfl
  pcmd := rfl
  step := rfl
  limb i := by simp [State.reset, EncWork.reset]
  acc := rfl
  rem i := by simp [State.reset, EncWork.reset]
  iter := rfl
  irq := by
    unfold State.irq
    cases hr : s.rst with
    | powerUp => exact absurd hr h
    | asserted | released => simp [hr, State.reset, Cfg.reset]

/-- The assertion of `rst` resets MDE and holds it in reset, whatever `rst` was (R311). -/
theorem event_rstAssert (s : State) : event .rstAssert s = .next (hwReset { s with rst := .asserted }) := by
  cases hr : s.rst with
  | powerUp => exact event_powerUp hr _
  | asserted =>
    rw [event_inReset hr, ← hr]
    rfl
  | released => exact event_live hr _

/-- Settles O1: `hwReset` writes the reset table, and both resets end in it. -/
theorem resetTableHoldsAfterReset : Obligations.ResetTableHoldsAfterReset := by
  refine ⟨atReset_hwReset (s := State.reset) (by decide), ?_, ?_⟩
  · intro s h
    exact ⟨hwReset s, rfl, atReset_hwReset h⟩
  · intro s
    exact ⟨_, event_rstAssert s, atReset_hwReset (by simp)⟩

end Sys2Proof.Proofs
end

section
/-!
SUPPORT. Proofs of what a write to CMD does: `writeCmd` is the decision procedure of R122 as the statements write it.
-/

namespace Sys2Proof.Proofs

open Sys2Proof.Machine Sys2Proof.Claims

/-! ## The fields of a command word -/

theorem opField_toNat (v : Word) : (opField v).toNat = v.toNat % 2 ^ 8 := by
  simp [opField]

theorem argField_toNat (v : Word) : (argField v).toNat = v.toNat / 2 ^ 8 % 2 ^ 8 := by
  simp [argField, Nat.shiftRight_eq_div_pow]

theorem rsvField_toNat (v : Word) : (rsvField v).toNat = v.toNat / 2 ^ 16 := by
  have hv := v.isLt
  simp only [rsvField, BitVec.extractLsb'_toNat, Nat.shiftRight_eq_div_pow]
  omega

theorem cmdFields_toNat (op arg : Byte) : (cmdFields op arg).toNat = arg.toNat * 2 ^ 8 + op.toNat := by
  rw [cmdFields, BitVec.toNat_append, BitVec.toNat_append, ← Nat.shiftLeft_add_eq_or_of_lt op.isLt, Nat.shiftLeft_eq]
  simp

theorem cmdFields_opField_argField {v : Word} (h : rsvField v = 0) : cmdFields (opField v) (argField v) = v := by
  apply BitVec.eq_of_toNat_eq
  have hrsv : v.toNat / 2 ^ 16 = 0 := by rw [← rsvField_toNat, h]; rfl
  rw [cmdFields_toNat, opField_toNat, argField_toNat]
  omega

/-! ## Which words decode -/

/-- The opcodes that no command has (R94), PUSH aside. -/
theorem opcodeNoArg_eq_none {op : Byte} (h : opcodeNoArg op = none) (hpush : op ≠ 0x02) :
    (0x0B ≤ op.toNat ∧ op.toNat ≤ 0x0D) ∨ 0x10 ≤ op.toNat := by
  revert op
  decide +kernel

/-- The opcode map and the encoder agree (R93). -/
theorem opcodeNoArg_eq_some {op : Byte} {i : Instr} (h : opcodeNoArg op = some i) :
    i.isCommand = true ∧ cmdWord i = cmdFields op 0 := by
  have hall : ∀ op : Byte, ∀ i ∈ opcodeNoArg op, i.isCommand = true ∧ cmdWord i = cmdFields op 0 := by
    decide +kernel
  exact hall op i h

/-- The BAD_OP check of R122 on the bits of a word. -/
def NoCommand (v : Word) : Prop :=
  (0x0B ≤ v.toNat % 2 ^ 8 ∧ v.toNat % 2 ^ 8 ≤ 0x0D) ∨ 0x10 ≤ v.toNat % 2 ^ 8 ∨ v.toNat / 2 ^ 16 ≠ 0 ∨
    (v.toNat % 2 ^ 8 ≠ 0x02 ∧ v.toNat / 2 ^ 8 % 2 ^ 8 ≠ 0)

theorem noCommand_iff_fields (v : Word) :
    NoCommand v ↔
      (0x0B ≤ (opField v).toNat ∧ (opField v).toNat ≤ 0x0D) ∨ 0x10 ≤ (opField v).toNat ∨
        rsvField v ≠ 0 ∨ (opField v ≠ 0x02 ∧ argField v ≠ 0) := by
  simp [NoCommand, ← BitVec.toNat_inj, opField_toNat, argField_toNat, rsvField_toNat]

/-- A word decodes to the command whose command word it is, or fails the BAD_OP check (R90 to R96). -/
theorem decodeCmd_cases (v : Word) :
    (∃ i : Instr, decodeCmd v = .ok i ∧ i.isCommand = true ∧ cmdWord i = v) ∨
    (∃ e : DecodeError, decodeCmd v = .error e ∧ NoCommand v) := by
  rw [noCommand_iff_fields]
  unfold decodeCmd
  by_cases hrsv : rsvField v = 0
  case neg => exact .inr ⟨.reservedField, if_pos hrsv, .inr (.inr (.inl hrsv))⟩
  have hfields := cmdFields_opField_argField hrsv
  rw [if_neg (not_not.mpr hrsv)]
  by_cases hop : opField v = 0x02
  case pos => exact .inl ⟨.push (argField v), if_pos hop, rfl, by rw [hop] at hfields; exact hfields⟩
  rw [if_neg hop]
  cases hj : opcodeNoArg (opField v) with
  | none =>
    have hreserved := opcodeNoArg_eq_none hj hop
    exact .inr ⟨.reservedOpcode (opField v), rfl, by tauto⟩
  | some i =>
    obtain ⟨hcmd, hword⟩ := opcodeNoArg_eq_some hj
    by_cases harg : argField v = 0
    · exact .inl ⟨i, if_neg (not_not.mpr harg), hcmd, by rw [hword, ← harg, hfields]⟩
    · exact .inr ⟨.argNotZero, if_pos harg, .inr (.inr (.inr ⟨hop, harg⟩))⟩

/-- A word that is no command is BUSY or BAD_OP (R96, R122). -/
theorem verdict_of_noCommand {v : Word} (h : NoCommand v) (s : State) :
    verdict v s = .reject (if s.status.busy then .busy else .badOp) := by
  have hsoft : v ≠ 0x0000000F := by
    rintro rfl
    revert h
    unfold NoCommand
    decide
  unfold NoCommand at h
  cases hb : s.status.busy <;> simp only [verdict, hb, if_neg hsoft, if_pos h] <;> rfl

/-! ## The verdict on an engine command -/

/-- The command word of an engine command passes the BAD_OP check of R122, and the later checks are those of the
command itself. -/
theorem engine_opcode {i : Instr} (h : i.isEngine = true) :
    ∃ op : Byte, cmdWord i = cmdFields op (argOf i) ∧ op.toNat ≤ 0x0A ∧ (op.toNat ≠ 0x02 → argOf i = 0) ∧
      (∀ t : Status, opValid op.toNat t = validInMode i t) ∧
      (∀ s : State, operandRejection i s =
        if op.toNat = 0x02 ∧ ¬ (1 ≤ (argOf i).toNat ∧ (argOf i).toNat ≤ 4) then some .badArg
        else if op.toNat = 0x09 ∧ ¬ (2 ≤ s.alphaLen.toNat ∧ s.alphaLen.toNat ≤ 256) then some .badRadix
        else if op.toNat = 0x02 ∧ s.mlen.toNat + 8 * (argOf i).toNat > 2 ^ 64 - 8 then some .lenOvf
        else none) := by
  cases i with
  | ack | softReset | stepFf _ | stepGg _ | stepHh _ | stepIi _ => cases h
  | push n =>
    refine ⟨0x02, rfl, by decide, fun h => absurd rfl h, fun _ => rfl, fun s => ?_⟩
    simp [operandRejection, pushRejection, argOf]
  | encRadix =>
    refine ⟨0x09, rfl, by decide, fun _ => rfl, fun _ => rfl, fun s => ?_⟩
    simp [operandRejection, radixRejection, argOf]
  | _ => exact ⟨_, rfl, by decide, fun _ => rfl, fun _ => rfl, fun s => rfl⟩

/-- The verdict on the word of an engine command: BUSY, or the first later check of R122 that fails. -/
theorem verdict_cmdWord {i : Instr} (hi : i.isEngine = true) (s : State) :
    verdict (cmdWord i) s = if s.status.busy then .reject .busy else (rejection i s).elim .accept .reject := by
  obtain ⟨op, hword, hop, harg, hvalid, hoperand⟩ := engine_opcode hi
  have hnat := cmdFields_toNat op (argOf i)
  have hlt := (argOf i).isLt
  have harg : op.toNat ≠ 0x02 → (argOf i).toNat = 0 := fun h => by rw [harg h]; rfl
  have hfop : (cmdFields op (argOf i)).toNat % 2 ^ 8 = op.toNat := by omega
  have hfarg : (cmdFields op (argOf i)).toNat / 2 ^ 8 % 2 ^ 8 = (argOf i).toNat := by omega
  have hsoft : cmdFields op (argOf i) ≠ 0x0000000F := by
    intro h
    rw [h] at hfop
    exact absurd (hfop ▸ hop) (by decide)
  have hbad : ¬ NoCommand (cmdFields op (argOf i)) := by
    unfold NoCommand
    omega
  rw [NoCommand, hfop, hfarg] at hbad
  have hack : op.toNat ≠ 0x0E := by omega
  rw [hword, rejection, hoperand]
  simp only [verdict, hfop, hfarg, if_neg hsoft, if_neg hbad, if_neg hack, hvalid]
  cases validInMode i s.status
  · simp
  · simp only [Bool.true_eq_false, if_false, if_true]
    split_ifs <;> rfl

/-! ## What a write to CMD does -/

/-- `recordError` is the error-recording rule as the statements write it (R282). -/
theorem recordError_eq_errored (e : ErrCode) (s : State) : recordError e s = errored e s := by
  unfold recordError errored Status.record
  cases s.status.err <;> simp

/-- A rejected write to CMD is `reject`. -/
theorem cmdOutcome_rejected {v : Word} {e : ErrCode} {s : State} (h : verdict v s = .reject e) :
    cmdOutcome v s = reject e s := by
  unfold cmdOutcome
  cases e <;> simp [h, reject, recordError_eq_errored]

theorem cmdOutcome_accepted {v : Word} {s : State} (h : verdict v s = .accept) : cmdOutcome v s = accept v s := by
  simp [cmdOutcome, h, accepted, accept]

theorem cmdOutcome_ack {v : Word} {s : State} (h : verdict v s = .ack) : cmdOutcome v s = clearStatus s := by
  simp [cmdOutcome, h, cleared, clearStatus, Status.clear]

theorem cmdOutcome_softReset {v : Word} {s : State} (h : verdict v s = .softReset) : cmdOutcome v s = hwReset s := by
  simp [cmdOutcome, h]

/-- The checks of an engine command are R122. -/
theorem present_eq_cmdOutcome {i : Instr} (hi : i.isEngine = true) (s : State) :
    present i s = cmdOutcome (cmdWord i) s := by
  have hv := verdict_cmdWord hi s
  cases hb : s.status.busy with
  | true =>
    rw [cmdOutcome_rejected (e := .busy) (by simp [hv, hb]), present_busy hb]
    rfl
  | false =>
    cases hr : rejection i s with
    | some e => rw [cmdOutcome_rejected (e := e) (by simp [hv, hb, hr]), present_rejected hb hr]
    | none => rw [cmdOutcome_accepted (by simp [hv, hb, hr]), present_accepted hb hr]

theorem verdict_ack {s : State} (hb : s.status.busy = false) : verdict 0x0000000E s = .ack := by
  simp [verdict, hb]

theorem execAck_eq_cmdOutcome (s : State) : execAck s = .next (cmdOutcome 0x0000000E s) := by
  cases hb : s.status.busy with
  | true =>
    have hv : verdict 0x0000000E s = .reject .busy := by simp [verdict, hb]
    rw [cmdOutcome_rejected hv, execAck, hb]
    rfl
  | false =>
    rw [cmdOutcome_ack (verdict_ack hb), execAck, hb]
    rfl

/-- A write to CMD follows the checks of R122, whatever the word. -/
theorem writeCmd_eq_cmdOutcome (v : Word) (s : State) :
    ∃ tn : Turn, writeCmd v s = .next (cmdOutcome v { s with turn := tn }) := by
  rcases decodeCmd_cases v with ⟨i, hd, hcmd, rfl⟩ | ⟨e, hd, hbad⟩
  · have hexec : writeCmd (cmdWord i) s = exec i { s with turn := .host } := by simp [writeCmd, decode, hd]
    refine ⟨.host, ?_⟩
    rw [hexec]
    cases i with
    | ack => exact execAck_eq_cmdOutcome _
    | softReset => rfl
    | stepFf _ | stepGg _ | stepHh _ | stepIi _ => cases hcmd
    | _ => exact (exec_host rfl rfl).trans (congrArg _ (present_eq_cmdOutcome rfl _))
  · exact ⟨s.turn, by rw [cmdOutcome_rejected (verdict_of_noCommand hbad s)]; simp [writeCmd, decode, hd]⟩

/-! ## What a verdict tells -/

theorem eq_of_verdict_softReset {v : Word} {s : State} (h : verdict v s = .softReset) : v = 0x0000000F := by
  simp only [verdict] at h
  split_ifs at h with hsoft
  exact hsoft

/-- ACK is the exact word, and is taken while MDE is idle (R96, R128). -/
theorem eq_of_verdict_ack {v : Word} {s : State} (h : verdict v s = .ack) :
    v = 0x0000000E ∧ s.status.busy = false := by
  simp only [verdict] at h
  split_ifs at h with hsoft hbusy hbad hop
  refine ⟨BitVec.eq_of_toNat_eq ?_, by simpa using hbusy⟩
  change v.toNat = 14
  omega

/-- A rejection names its error (R281). -/
theorem ne_none_of_verdict_reject {v : Word} {e : ErrCode} {s : State} (h : verdict v s = .reject e) :
    e ≠ .none := by
  simp only [verdict] at h
  split_ifs at h <;> cases h <;> decide

/-- A rejection changes STATUS by the error-recording rule, and OVALID if it is BAD_RADIX (R245, R282). -/
theorem reject_status (e : ErrCode) (s : State) :
    (reject e s).status = { (errored e s).status with ovalid := (reject e s).status.ovalid } := by
  by_cases h : e = .badRadix
  · subst h
    rw [reject, recordError_eq_errored]
    rfl
  · rw [reject_eq_recordError h, recordError_eq_errored]

@[simp] theorem reject_busy (e : ErrCode) (s : State) : (reject e s).status.busy = s.status.busy := by
  rw [reject_status]
  rfl

@[simp] theorem reject_done (e : ErrCode) (s : State) : (reject e s).status.done = s.status.done := by
  rw [reject_status]
  rfl

theorem reject_sameErrors (e : ErrCode) (s : State) : sameErrors (errored e s) (reject e s) := by
  unfold sameErrors
  rw [reject_status]
  exact ⟨rfl, rfl, rfl⟩

end Sys2Proof.Proofs
end

section
/-!
SUPPORT. Proofs. What one step can do from the first reset on, said once, and from it what changes BUSY, DONE and the
error fields (10_state.md R24 to R26).
-/

namespace Sys2Proof.Proofs

open Sys2Proof.Machine Sys2Proof.Claims

/-! ## What STATUS keeps in a command's effect -/

@[simp] theorem sameErrors_refl (s : State) : sameErrors s s := ⟨rfl, rfl, rfl⟩

theorem keyAppend_status (b : Byte) (s : State) :
    (keyAppend b s).status = { s.status with khash := (keyAppend b s).status.khash } := by
  unfold keyAppend
  split_ifs <;> simp [keyHashStart]

theorem pushByte_status (b : Byte) (s : State) :
    (pushByte b s).status = { s.status with khash := (pushByte b s).status.khash } := by
  by_cases hm : s.status.mode = .key
  · rw [pushByte_key hm, ← keyAppend_status]
  · simp [pushByte_message hm]

theorem pushAll_status (bs : List Byte) (s : State) :
    (pushAll bs s).status = { s.status with khash := (pushAll bs s).status.khash } := by
  induction bs generalizing s with
  | nil => rfl
  | cons b bs ih => rw [pushAll_cons, ih, pushByte_status]

theorem normaliseKey_status (s : State) : (normaliseKey s).status = s.status := by
  unfold normaliseKey
  split_ifs <;> simp [finalize]

/-- What the completion of an engine command does before BUSY falls (R125, R126). An instruction that completes no
command has none. -/
def commandEffect : Instr → State → State
  | .nop => id
  | .md5Init => md5Init
  | .push n => push n
  | .md5Final => md5Final
  | .hmacKeyInit => hmacKeyInit
  | .hmacStart => hmacStart
  | .hmacFinal => hmacFinal
  | .encHex => encHex
  | .encB64 => encB64
  | .encRadix => encRadix
  | .selftest => selftest
  | .ack | .softReset | .stepFf _ | .stepGg _ | .stepHh _ | .stepIi _ => id

/-- At the engine's turn an engine command completes with its effect. -/
theorem exec_engine {i : Instr} (h : i.isEngine = true) {s : State} (ht : s.turn = .engine) :
    exec i s = .next (complete (commandEffect i s)) := by
  cases i with
  | ack | softReset | stepFf _ | stepGg _ | stepHh _ | stepIi _ => cases h
  | nop => exact exec_nop_engine ht
  | _ => exact engineCommand_engine ht _ _

/-- The effect of a command does not touch the error fields (R26). -/
theorem commandEffect_sameErrors (i : Instr) (s : State) : sameErrors s (commandEffect i s) := by
  cases i with
  | push n =>
    have hs : (push n s).status = _ := pushAll_status _ s
    simp [sameErrors, commandEffect, hs]
  | hmacStart => simp [sameErrors, commandEffect, hmacStart, normaliseKey_status]
  | md5Init | hmacKeyInit => simp [sameErrors, commandEffect, md5Init, hmacKeyInit]
  | md5Final | hmacFinal | selftest => simp [sameErrors, commandEffect, md5Final, hmacFinal, selftest, finalize]
  | encHex | encB64 | encRadix => simp [sameErrors, commandEffect, encHex, encB64, encRadix]
  | nop | ack | softReset | stepFf _ | stepGg _ | stepHh _ | stepIi _ => exact sameErrors_refl s

/-- A step of the sequencer is a micro-step with the function of its round (R101, R170). -/
theorem exec_decodeSeq (n : BitVec 6) (s : State) : exec (decodeSeq n) s = .next (microStep (roundFn n) n s) := by
  unfold roundFn decodeSeq
  split_ifs <;> rfl

@[simp] theorem microStep_status (f : Word → Word → Word → Word) (n : BitVec 6) (s : State) :
    (microStep f n s).status = s.status := by simp [microStep]

@[simp] theorem microFold_status (s : State) : (microFold s).status = s.status := by simp [microFold]

@[simp] theorem storeReg_status (r : Reg) (v : Word) (s : State) : (storeReg r v s).status = s.status := by
  rw [storeReg_frame]

/-! ## What one step can do -/

/-- An aligned, mapped offset is the offset of its register (R20). -/
theorem regAt_eq_some {off : BitVec 12} {r : Reg} (h : regAt off = some r) : off = BitVec.ofNat 12 r.offset := by
  have hoff := off.isLt
  apply BitVec.eq_of_toNat_eq
  rw [BitVec.toNat_ofNat]
  simp only [regAt] at h
  split_ifs at h with h4 hsingle hdigest hout halpha
  · have hk : off.toNat / 4 < 9 := by omega
    interval_cases hq : off.toNat / 4 <;> (cases h; simp only [Reg.offset]; omega)
  all_goals
    cases h
    simp only [Reg.offset, Fin.val_ofNat]
    omega

/-- What a step from `s` can lead to, from the first reset on (R310): one constructor per kind of event, with the
condition under which it happens. -/
inductive StepCase (s : State) : State → Prop where
  /-- `rst` is asserted, or SOFT_RESET is written. -/
  | reset (h : resets s) {r : RstInput} (hr : r ≠ .powerUp) (tn : Turn) :
      StepCase s (hwReset { s with rst := r, inbox := s.inbox.tail, turn := tn })
  /-- An engine command is written to CMD and accepted. -/
  | accept {v : Word} (h : writesCmd v s) (hv : verdict v s = .accept) (tn : Turn) :
      StepCase s (accept v { s with inbox := s.inbox.tail, turn := tn })
  /-- ACK is written to CMD while MDE is idle. -/
  | ack (h : writesCmd 0x0000000E s) (hb : s.status.busy = false) (tn : Turn) :
      StepCase s (clearStatus { s with inbox := s.inbox.tail, turn := tn })
  /-- A word is written to CMD and rejected. -/
  | rejected {v : Word} {e : ErrCode} (h : writesCmd v s) (hv : verdict v s = .reject e) (tn : Turn) :
      StepCase s (reject e { s with inbox := s.inbox.tail, turn := tn })
  /-- The running command completes. -/
  | completion {i : Instr} (h : completes i s) :
      StepCase s (complete (commandEffect i { s with inbox := s.inbox.tail, turn := .engine }))
  /-- A compression in progress takes a step. -/
  | microStep (hr : s.rst = .released) (hnext : nextIn s = .engine) (hrun : s.seq.phase = .run)
      (hblock : s.seq.block = .step) :
      StepCase s (microStep (roundFn s.seq.step) s.seq.step { s with inbox := s.inbox.tail, turn := .engine })
  /-- A compression in progress ends. -/
  | microFold (hr : s.rst = .released) (hnext : nextIn s = .engine) (hrun : s.seq.phase = .run)
      (hblock : s.seq.block = .fold) :
      StepCase s (microFold { s with inbox := s.inbox.tail })
  /-- A writable register is written while MDE is idle. -/
  | store {r : Reg} {v : Word} (h : writesReg r.offset s) (hr : r.access = .rw)
      (hnext : nextIn s = writeTo r v) : StepCase s (storeReg r v { s with inbox := s.inbox.tail })
  /-- A host access other than a CMD write is refused. -/
  | refusal {e : ErrCode} (hr : s.rst = .released) (he : e = .badAddr ∨ e = .busy) (x : Word) :
      StepCase s { recordError e { s with inbox := s.inbox.tail } with rdata := x }
  /-- MDE keeps its state, and only the bus and the `rst` pin change. -/
  | quiet {r : RstInput} (hr : r = s.rst ∨ r = .released) (x : Word) (n : Nat) :
      StepCase s { s with rst := r, inbox := s.inbox.tail, rdata := x, freeCount := n }

theorem step_live {s : State} (h : s.rst = .released) :
    step s = eventLive (nextIn s) { s with inbox := s.inbox.tail } :=
  (step_eq s).trans (event_live (s := { s with inbox := s.inbox.tail }) h _)

theorem step_inReset {s : State} (h : s.rst = .asserted) :
    step s = eventInReset (nextIn s) { s with inbox := s.inbox.tail } :=
  (step_eq s).trans (event_inReset (s := { s with inbox := s.inbox.tail }) h _)

theorem step_of_resets {s : State} (h : resets s) :
    ∃ (r : RstInput) (tn : Turn), r ≠ .powerUp ∧
      step s = .next (hwReset { s with rst := r, inbox := s.inbox.tail, turn := tn }) := by
  rcases h with h | ⟨hr, h⟩
  · have hstep : step s = event (nextIn s) { s with inbox := s.inbox.tail } := step_eq s
    rw [hstep, h, event_rstAssert]
    exact ⟨.asserted, s.turn, by decide, rfl⟩
  · rw [step_live hr, h]
    exact ⟨s.rst, .host, by simp [hr], rfl⟩

/-- A write to CMD is decided by R122. -/
theorem step_of_writesCmd {v : Word} {s : State} (h : writesCmd v s) :
    ∃ tn : Turn, step s = .next (cmdOutcome v { s with inbox := s.inbox.tail, turn := tn }) := by
  obtain ⟨hr, hnext⟩ := h
  rw [step_live hr, hnext]
  exact writeCmd_eq_cmdOutcome v _

theorem step_of_completes {i : Instr} {s : State} (h : completes i s) :
    step s = .next (complete (commandEffect i { s with inbox := s.inbox.tail, turn := .engine })) := by
  obtain ⟨hr, hnext, hrun, hblock, hdec, hi⟩ := h
  rw [step_live hr, hnext]
  simp only [eventLive, engineTurn, hrun, hblock, completeCmd, hdec, hi, if_true]
  exact exec_engine hi rfl

/-- A step while `rst` is asserted resets again or touches the bus and the pin only (R311). -/
theorem stepCase_inReset {s t : State} (hr : s.rst = .asserted) (h : step s = .next t) : StepCase s t := by
  rw [step_inReset hr] at h
  cases he : nextIn s <;> rw [he] at h <;> cases h
  case rstAssert => exact .reset (.inl he) (by simp [hr]) s.turn
  case rstRelease => exact .quiet (.inr rfl) _ _
  all_goals exact .quiet (.inl rfl) _ _

/-- A write to CMD resets, is accepted, acknowledges or is rejected (R122). -/
theorem stepCase_writesCmd {s t : State} {v : Word} (hw : writesCmd v s) (h : step s = .next t) : StepCase s t := by
  obtain ⟨tn, hstep⟩ := step_of_writesCmd hw
  cases hstep.symm.trans h
  cases hv : verdict v s with
  | softReset =>
    obtain rfl := eq_of_verdict_softReset hv
    rw [cmdOutcome_softReset (by exact hv)]
    exact .reset (.inr hw) (by simp [hw.1]) tn
  | ack =>
    obtain ⟨rfl, hb⟩ := eq_of_verdict_ack hv
    rw [cmdOutcome_ack (by exact hv)]
    exact .ack hw hb tn
  | accept =>
    rw [cmdOutcome_accepted (by exact hv)]
    exact .accept hw hv tn
  | reject e =>
    rw [cmdOutcome_rejected (by exact hv)]
    exact .rejected hw hv tn

/-- A host write is a write to CMD, refused, or stored (R64). -/
theorem stepCase_write {s t : State} {off : BitVec 12} {v : Word} (hr : s.rst = .released)
    (hnext : nextIn s = .write off v) (h : step s = .next t) : StepCase s t := by
  by_cases hcmd : regAt off = some .cmd
  · obtain rfl : off = 0x004 := regAt_eq_some hcmd
    exact stepCase_writesCmd ⟨hr, hnext⟩ h
  · rw [step_live hr, hnext, eventLive] at h
    cases hreg : regAt off with
    | none =>
      rw [busWrite_unmapped hreg] at h
      cases h
      exact .refusal hr (.inl rfl) s.rdata
    | some r =>
      rw [busWrite_mapped hreg (by rintro rfl; exact hcmd hreg)] at h
      cases h
      by_cases hrw : r.access = .rw
      · cases hb : s.status.busy with
        | true =>
          rw [writeReg_busy hrw (by exact hb)]
          exact .refusal hr (.inr rfl) s.rdata
        | false =>
          rw [writeReg_idle hrw (by exact hb)]
          obtain rfl := regAt_eq_some hreg
          exact .store ⟨hr, hb, v, hnext⟩ hrw hnext
      · rw [writeReg_refused hrw]
        exact .refusal hr (.inl rfl) s.rdata

/-- An engine turn completes a command, steps a compression in progress, or finds MDE idle (R125, R172, R323). -/
theorem stepCase_engine {s t : State} (hr : s.rst = .released) (hnext : nextIn s = .engine)
    (h : step s = .next t) : StepCase s t := by
  have hlive : engineTurn { s with inbox := s.inbox.tail } = .next t := by rw [← h, step_live hr, hnext]; rfl
  cases hphase : s.seq.phase with
  | idle =>
    simp only [engineTurn, hphase] at hlive
    cases hlive
    exact .quiet (.inl rfl) _ _
  | run =>
    cases hblock : s.seq.block with
    | step =>
      simp only [engineTurn, hphase, hblock, exec_decodeSeq] at hlive
      cases hlive
      exact .microStep hr hnext hphase hblock
    | fold =>
      simp only [engineTurn, hphase, hblock] at hlive
      cases hlive
      exact .microFold hr hnext hphase hblock
    | idle =>
      simp only [engineTurn, hphase, hblock, completeCmd] at hlive
      split at hlive
      · next i hdec =>
        split_ifs at hlive with hi
        have hc : completes i s := ⟨hr, hnext, hphase, hblock, hdec, hi⟩
        cases (step_of_completes hc).symm.trans h
        exact .completion hc
      · cases hlive

/-- From the first reset on every step is one of the cases. -/
theorem step_cases {s t : State} (hr : s.rst ≠ .powerUp) (h : step s = .next t) : StepCase s t := by
  cases hrst : s.rst with
  | powerUp => exact absurd hrst hr
  | asserted => exact stepCase_inReset hrst h
  | released =>
    cases he : nextIn s with
    | write off v => exact stepCase_write hrst he h
    | engine => exact stepCase_engine hrst he h
    | rstAssert =>
      obtain ⟨r, tn, hrst', hstep⟩ := step_of_resets (.inl he)
      cases hstep.symm.trans h
      exact .reset (.inl he) hrst' tn
    | rstRelease =>
      rw [step_live hrst, he] at h
      cases h
      exact .quiet (.inl rfl) _ _
    | read off =>
      rw [step_live hrst, he] at h
      cases h
      cases hreg : regAt off with
      | none =>
        rw [busRead_bad hreg]
        exact .refusal hrst (.inl rfl) 0
      | some r =>
        rw [busRead_mapped hreg]
        exact .quiet (.inl rfl) _ _

/-! ## BUSY, DONE and the error fields -/

/-- What changes BUSY (R24). -/
theorem busy_changed {s t : State} (hr : s.rst ≠ .powerUp) (h : step s = .next t)
    (hne : t.status.busy ≠ s.status.busy) :
    (s.status.busy = false ∧ ∃ v, writesCmd v s ∧ verdict v s = .accept) ∨
    (s.status.busy = true ∧ (resets s ∨ ∃ i, completes i s)) := by
  cases step_cases hr h with
  | reset hres _ tn => exact .inr ⟨by simpa [State.reset, Status.reset] using hne, .inl hres⟩
  | accept hw hv tn => exact .inl ⟨by simpa using hne, _, hw, hv⟩
  | completion hc => exact .inr ⟨by simpa using hne, .inr ⟨_, hc⟩⟩
  | ack hw hb tn => simp [Status.clear] at hne
  | microStep _ _ _ _ | microFold _ _ _ _ | store _ _ _ | rejected _ _ _ | quiet _ _ _ => simp at hne
  | refusal _ _ _ => simp [recordError_eq_errored, errored] at hne

/-- What changes DONE (R25). -/
theorem done_changed {s t : State} (hr : s.rst ≠ .powerUp) (h : step s = .next t)
    (hne : t.status.done ≠ s.status.done) :
    (s.status.done = true ∧
      (resets s ∨ ∃ v, writesCmd v s ∧ (verdict v s = .accept ∨ verdict v s = .ack))) ∨
    (s.status.done = false ∧ ∃ i, completes i s) := by
  cases step_cases hr h with
  | reset hres _ tn => exact .inl ⟨by simpa [State.reset, Status.reset] using hne, .inl hres⟩
  | accept hw hv tn => exact .inl ⟨by simpa using hne, .inr ⟨_, hw, .inl hv⟩⟩
  | completion hc => exact .inr ⟨by simpa using hne, _, hc⟩
  | ack hw hb tn => exact .inl ⟨by simpa [Status.clear] using hne, .inr ⟨_, hw, .inr (verdict_ack hb)⟩⟩
  | microStep _ _ _ _ | microFold _ _ _ _ | store _ _ _ | rejected _ _ _ | quiet _ _ _ => simp at hne
  | refusal _ _ _ => simp [recordError_eq_errored, errored] at hne

/-- What changes the error fields (R26). -/
theorem errors_of_step {s t : State} (hr : s.rst ≠ .powerUp) (h : step s = .next t) :
    sameErrors s t ∨ (∃ e : ErrCode, e ≠ .none ∧ sameErrors (errored e s) t) ∨
    ((resets s ∨ (writesCmd 0x0000000E s ∧ s.status.busy = false)) ∧
      t.status.err = false ∧ t.status.errOvf = false ∧ t.status.errCode = .none) := by
  cases step_cases hr h with
  | reset hres _ tn => exact .inr (.inr ⟨.inl hres, rfl, rfl, rfl⟩)
  | ack hw hb tn => exact .inr (.inr ⟨.inr ⟨hw, hb⟩, rfl, rfl, rfl⟩)
  | rejected hw hv tn =>
    exact .inr (.inl ⟨_, ne_none_of_verdict_reject hv, reject_sameErrors _ _⟩)
  | @refusal e _ he x =>
    refine .inr (.inl ⟨e, by rcases he with rfl | rfl <;> decide, ?_⟩)
    simp [sameErrors, recordError_eq_errored, errored]
  | completion hc => exact .inl (commandEffect_sameErrors _ _)
  | accept _ _ _ | quiet _ _ _ => exact .inl (sameErrors_refl s)
  | microStep _ _ _ _ | microFold _ _ _ _ | store _ _ _ => exact .inl (by simp [sameErrors])

/-- Settles O50: the cases of a step one way, the step of each event the other. -/
theorem busyAndDoneWriters : Obligations.BusyAndDoneWriters := by
  refine ⟨fun s t hr h => busy_changed hr h, fun s t hr h => done_changed hr h, ?_, ?_, ?_, ?_⟩
  · intro s v hw hv
    obtain ⟨tn, hstep⟩ := step_of_writesCmd hw
    rw [cmdOutcome_accepted (by exact hv)] at hstep
    exact ⟨_, hstep, rfl, rfl⟩
  · intro s i hc
    exact ⟨_, step_of_completes hc, rfl, rfl⟩
  · intro s hres
    obtain ⟨r, tn, -, hstep⟩ := step_of_resets hres
    exact ⟨_, hstep, rfl, rfl⟩
  · intro s hw hb
    obtain ⟨tn, hstep⟩ := step_of_writesCmd hw
    rw [cmdOutcome_ack (verdict_ack (by exact hb))] at hstep
    exact ⟨_, hstep, hb, rfl⟩

/-- Settles O51: the cases of a step, and the place of the error fields in STATUS. -/
theorem errorFieldWriters : Obligations.ErrorFieldWriters := by
  refine ⟨fun s t hr h => errors_of_step hr h, ?_, ?_⟩
  · intro s hinv herr
    obtain ⟨hcode, hovf⟩ := hinv.status.err_clear herr
    rw [readReg, statusWord_errCode, statusWord_getLsbD_errOvf, hcode, hovf]
    exact ⟨rfl, rfl⟩
  · intro s
    rw [readReg, statusWord_errCode]
    exact errCode_code_lt s.status.errCode

end Sys2Proof.Proofs
end

section
/-!
SUPPORT. Proofs of the register window: which accesses reach MDE (20_memory.md R61), what a host read answers (R63, R65)
and what a host write does (R64).
-/

namespace Sys2Proof.Proofs

open Sys2Proof.Machine Sys2Proof.Claims

/-! ## Routing -/

/-- The page number of a byte address is the upper 20 bits. -/
theorem page_eq_iff (addr : Word) (page : BitVec 20) :
    addr.extractLsb' 12 20 = page ↔ page.toNat * 0x1000 ≤ addr.toNat ∧ addr.toNat < page.toNat * 0x1000 + 0x1000 := by
  have haddr := addr.isLt
  rw [← BitVec.toNat_inj, BitVec.extractLsb'_toNat, Nat.shiftRight_eq_div_pow]
  omega

/-- The low 12 bits of an address inside a page are its distance from the start of the page. -/
theorem pageOffset_eq {addr : Word} {page : Nat} (hlo : page * 0x1000 ≤ addr.toNat)
    (hhi : addr.toNat < page * 0x1000 + 0x1000) :
    addr.extractLsb' 0 12 = BitVec.ofNat 12 (addr.toNat - page * 0x1000) := by
  apply BitVec.eq_of_toNat_eq
  rw [BitVec.extractLsb'_toNat, BitVec.toNat_ofNat, Nat.shiftRight_zero]
  omega

/-- Settles O15: an address is in the window exactly when its page number is that of BASE. -/
theorem windowRoutingFromBase : Obligations.WindowRoutingFromBase := by
  intro addr v base inside
  have hpage : addr.extractLsb' 12 20 = Config.basePage ↔ inside := page_eq_iff addr Config.basePage
  refine ⟨fun hin => ?_, fun hout => ?_⟩
  · have hroute : route addr = some (BitVec.ofNat 12 (addr.toNat - base)) := by
      rw [route, if_pos (hpage.mpr hin), pageOffset_eq hin.1 hin.2]
    simp [BusAccess.event, hroute]
  · have hroute : route addr = none := if_neg (mt hpage.mp hout)
    simp [BusAccess.event, hroute]

/-! ## Bytes and lanes of a word -/

theorem or_shiftLeft_eq_add {x k : Nat} (hx : x < 2 ^ k) (y : Nat) : x ||| y <<< k = x + 2 ^ k * y := by
  rw [Nat.or_comm, ← Nat.shiftLeft_add_eq_or_of_lt hx, Nat.shiftLeft_eq]
  ring

theorem toNat_setWidth_shiftLeft (b : Byte) {k : Nat} (hk : k ≤ 24) :
    (b.setWidth 32 <<< k).toNat = b.toNat <<< k := by
  have hb : b.toNat * 2 ^ k < 2 ^ 8 * 2 ^ 24 :=
    Nat.mul_lt_mul_of_lt_of_le b.isLt (Nat.pow_le_pow_right (by decide) hk) (by decide)
  rw [BitVec.toNat_shiftLeft, BitVec.toNat_setWidth_of_le (by decide), Nat.shiftLeft_eq]
  exact Nat.mod_eq_of_lt hb

/-- The little-endian word of four bytes as a number (R9, R70). -/
theorem wordLe_eq_fourBytes (f : Nat → Byte) : wordLe (f 0) (f 1) (f 2) (f 3) = fourBytes f := by
  have h0 := (f 0).isLt
  have h1 := (f 1).isLt
  have h2 := (f 2).isLt
  have h3 := (f 3).isLt
  apply BitVec.eq_of_toNat_eq
  rw [wordLe, BitVec.toNat_or, BitVec.toNat_or, BitVec.toNat_or, toNat_setWidth_shiftLeft _ (by decide),
    toNat_setWidth_shiftLeft _ (by decide), toNat_setWidth_shiftLeft _ (by decide),
    BitVec.toNat_setWidth_of_le (by decide), or_shiftLeft_eq_add h0, or_shiftLeft_eq_add (k := 16) (by omega),
    or_shiftLeft_eq_add (k := 24) (by omega), fourBytes, BitVec.toNat_ofNat]
  omega

/-- A lane of a word as a number (R70). -/
theorem lane_eq_ofNat (v : Word) (i : Nat) : lane v i = BitVec.ofNat 8 (v.toNat / 2 ^ (8 * i)) := by
  apply BitVec.eq_of_toNat_eq
  simp [lane, Nat.shiftRight_eq_div_pow]

/-- The fields of CONFIG in a written word, as numbers (R30). -/
theorem cfgOfWord_eq (v : Word) :
    cfgOfWord v =
      { hexUpper := v.toNat % 2 == 1, padEn := v.toNat / 2 % 2 == 1, irqEn := v.toNat / 4 % 2 == 1
        padChar := BitVec.ofNat 8 (v.toNat / 2 ^ 8) } := by
  have hpad : v.extractLsb' 8 8 = BitVec.ofNat 8 (v.toNat / 2 ^ 8) := by
    apply BitVec.eq_of_toNat_eq
    simp [Nat.shiftRight_eq_div_pow]
  simp [cfgOfWord, hpad, BitVec.getLsbD, Nat.testBit_eq_decide_div_mod_eq, beq_eq_decide]

/-! ## The offsets of the window -/

theorem offset_lt (r : Reg) : r.offset < 2 ^ 12 := by
  cases r <;> simp only [Reg.offset] <;> omega

theorem toNat_eq_offset {off : BitVec 12} {r : Reg} (h : regAt off = some r) : off.toNat = r.offset := by
  rw [regAt_eq_some h, BitVec.toNat_ofNat, Nat.mod_eq_of_lt (offset_lt r)]

/-- A misaligned offset, or one of the gaps of R20. -/
def Unmapped (o : Nat) : Prop :=
  o % 4 ≠ 0 ∨ (0x024 ≤ o ∧ o < 0x030) ∨ (0x040 ≤ o ∧ o < 0x100) ∨ (0x180 ≤ o ∧ o < 0x200) ∨ 0x300 ≤ o

theorem unmapped_of_regAt_none {off : BitVec 12} (h : regAt off = none) : Unmapped off.toNat := by
  simp only [regAt] at h
  unfold Unmapped
  split_ifs at h with hmis hsingle hdigest hout halpha
  · exact .inl hmis
  · have hlen : singleRegs.length ≤ off.toNat / 4 := List.getElem?_eq_none_iff.mp h
    have h9 : singleRegs.length = 9 := rfl
    omega
  · omega

/-! ## Host reads -/

theorem regValue_unmapped {o : Nat} (h : Unmapped o) (s : State) : regValue o s = none := by
  unfold Unmapped at h
  by_cases hmis : o % 4 ≠ 0
  · exact if_pos hmis
  · simp (disch := omega) only [regValue, if_neg]

theorem regValue_digest {o : Nat} (h4 : o % 4 = 0) (hlo : 0x030 ≤ o) (hhi : o < 0x040) (s : State) :
    regValue o s = some (fourBytes fun i => byteAt s.digest (o - 0x030 + i)) := by
  simp (disch := omega) only [regValue, if_neg, if_pos]

theorem regValue_out {o : Nat} (h4 : o % 4 = 0) (hlo : 0x100 ≤ o) (hhi : o < 0x180) (s : State) :
    regValue o s = some (fourBytes fun i => byteAt s.out (o - 0x100 + i)) := by
  simp (disch := omega) only [regValue, if_neg, if_pos]

theorem regValue_alpha {o : Nat} (h4 : o % 4 = 0) (hlo : 0x200 ≤ o) (hhi : o < 0x300) (s : State) :
    regValue o s = some (fourBytes fun i => Memory.read s.alpha (o + i)) := by
  simp (disch := omega) only [regValue, if_neg, if_pos]

/-- A register reads as the statements say for its offset. -/
theorem regValue_offset (r : Reg) (s : State) : regValue r.offset s = some (readReg r s) := by
  cases r with
  | digest j =>
    rw [Reg.offset, regValue_digest (by omega) (by omega) (by omega), Nat.add_sub_cancel_left, readReg, wordView,
      ← wordLe_eq_fourBytes]
    rfl
  | out j =>
    rw [Reg.offset, regValue_out (by omega) (by omega) (by omega), Nat.add_sub_cancel_left, readReg, wordView,
      ← wordLe_eq_fourBytes]
    rfl
  | alpha j =>
    rw [Reg.offset, regValue_alpha (by omega) (by omega) (by omega), readReg, Memory.readWord, ← wordLe_eq_fourBytes]
    rfl
  | mlenLo => exact congrArg some (BitVec.eq_of_toNat_eq (by simp [readReg]))
  | mlenHi => exact congrArg some (BitVec.eq_of_toNat_eq (by simp [readReg, Nat.shiftRight_eq_div_pow]))
  | alphaLen | outLen => exact congrArg some (BitVec.eq_of_toNat_eq (by simp [readReg]))
  | id | cmd | status | config | dataIn => rfl

theorem step_of_inbox {s : State} {e : Event} {rest : List Event} (hr : s.rst = .released) (h : s.inbox = e :: rest) :
    step s = eventLive e { s with inbox := rest } := by
  rw [step_live hr, nextIn, h]
  rfl

/-- Settles O10: the model's map of the window and the one of the statements agree at every offset. -/
theorem hostReadAnswersRegister : Obligations.HostReadAnswersRegister := by
  intro s off rest hr hin u
  rw [step_of_inbox hr hin, eventLive]
  cases hreg : regAt off with
  | none =>
    rw [regValue_unmapped (unmapped_of_regAt_none hreg), busRead_bad hreg, recordError_eq_errored]
  | some r =>
    have hval : regValue off.toNat s = some (readReg r u) := toNat_eq_offset hreg ▸ regValue_offset r u
    rw [hval, busRead_mapped hreg]

/-! ## Host writes -/

theorem writable_iff (o : Nat) :
    writable o = true ↔ o % 4 = 0 ∧ (o = 0x00C ∨ o = 0x010 ∨ o = 0x014 ∨ (0x200 ≤ o ∧ o < 0x300)) := by
  simp [writable, or_assoc]

theorem writable_unmapped {o : Nat} (h : Unmapped o) : writable o = false := by
  unfold Unmapped at h
  rw [Bool.eq_false_iff, ne_eq, writable_iff]
  omega

/-- The writable offsets are those of the registers with access RW (R20, R64). -/
theorem writable_offset (r : Reg) : writable r.offset = true ↔ r.access = .rw := by
  cases r with
  | digest j | out j | alpha j =>
    revert j
    decide
  | _ => decide

/-- A written word shows in its own four bytes of the alphabet RAM and nowhere else (R35, R70). -/
theorem read_writeWord {m : Memory} (hwf : Memory.wf m = true) (o : Nat) (v : Word) (a : Nat) :
    Memory.read (Memory.writeWord m o v) a =
      if o ≤ a ∧ a < o + 4 then BitVec.ofNat 8 (v.toNat / 2 ^ (8 * (a - o))) else Memory.read m a := by
  split_ifs with ha
  · have hbyte := Memory.read_writeWord_same o v (a - o) hwf (by omega)
    rwa [Nat.add_sub_cancel' ha.1, lane_eq_ofNat] at hbyte
  · exact Memory.read_writeWord_other v hwf (by omega)

/-- The store to a writable register is the one the statements write for its offset (R42, R64). -/
theorem stored_storeReg {r : Reg} (hr : r.access = .rw) (v : Word) {u : State} (hwf : Memory.wf u.alpha = true) :
    Stored r.offset v u (storeReg r v u) := by
  cases r with
  | config =>
    refine ⟨fun _ => ?_, nofun, nofun, fun h => absurd h (by decide)⟩
    rw [storeReg, cfgOfWord_eq]
  | dataIn => exact ⟨nofun, fun _ => rfl, nofun, fun h => absurd h (by decide)⟩
  | alphaLen =>
    refine ⟨nofun, nofun, fun _ => ?_, fun h => absurd h (by decide)⟩
    rw [storeReg, BitVec.ofNat_toNat]
  | alpha j =>
    refine ⟨fun h => ?_, fun h => ?_, fun h => ?_, fun _ =>
      ⟨rfl, storeReg_alpha_wf _ v u hwf, read_writeWord hwf _ v⟩⟩
    all_goals
      rw [Reg.offset] at h
      omega
  | id | cmd | status | mlenLo | mlenHi | outLen | digest _ | out _ => cases hr

/-- Settles O11: CMD by the checks of R122, every other offset by the access its register allows. -/
theorem hostWriteOutcome : Obligations.HostWriteOutcome := by
  intro s off v rest hr hin hwf u
  have hstep : step s = busWrite off v u := step_of_inbox hr hin
  refine ⟨fun hcmd => ?_, fun hcmd => ?_⟩
  · obtain rfl : off = 0x004 := BitVec.eq_of_toNat_eq hcmd
    rw [hstep, busWrite_cmd]
    exact writeCmd_eq_cmdOutcome v u
  · cases hreg : regAt off with
    | none =>
      have hw : writable off.toNat = false := writable_unmapped (unmapped_of_regAt_none hreg)
      rw [hstep, busWrite_unmapped hreg, recordError_eq_errored]
      simp [hw]
    | some r =>
      have hoff := toNat_eq_offset hreg
      have hne : r ≠ .cmd := by rintro rfl; exact hcmd hoff
      rw [hstep, busWrite_mapped hreg hne, hoff]
      refine ⟨_, rfl, fun hw => ?_, fun hw hb => ?_, fun hw hb => ?_⟩
      · have hro : r.access ≠ .rw := fun hrw => by simp [(writable_offset r).mpr hrw] at hw
        rw [writeReg_refused hro, recordError_eq_errored]
      · rw [writeReg_busy (s := u) ((writable_offset r).mp hw) hb, recordError_eq_errored]
      · have hrw := (writable_offset r).mp hw
        rw [writeReg_idle (s := u) hrw hb]
        exact stored_storeReg hrw v hwf

end Sys2Proof.Proofs
end

section
/-!
SUPPORT. Proofs of the command control: the checks of a CMD write (40_command_control.md R122, R123, R130), NOP (R127)
and ACK (R128).
-/

namespace Sys2Proof.Proofs

open Sys2Proof.Machine Sys2Proof.Claims

/-! ## The outcome of a CMD write -/

/-- Settles O9: the next event is the write, and a write to CMD is decided by R122 whatever the word. -/
theorem cmdWriteFollowsCheckOrder : Obligations.CmdWriteFollowsCheckOrder := by
  intro s v rest hr hin
  rw [step_of_inbox hr hin]
  exact writeCmd_eq_cmdOutcome v _

/-- The exact command word is the only word with the opcode of a command without operand that passes the BAD_OP check
(R94 to R96). -/
theorem noCommand_iff_ne_opcode {v : Word} {op : Nat} (hop : op ≤ 0x0A ∨ op = 0x0E) (hpush : op ≠ 0x02)
    (hv : v.toNat % 2 ^ 8 = op) : NoCommand v ↔ v.toNat ≠ op := by
  unfold NoCommand
  omega

/-- A running command turns every word but SOFT_RESET away (R122). -/
theorem verdict_busy {v : Word} (hv : v ≠ 0x0000000F) {s : State} (hb : s.status.busy = true) :
    verdict v s = .reject .busy := by
  simp only [verdict, if_neg hv, hb, if_true]

/-- The verdict on a word with the opcode of an engine command that has no operand check. -/
theorem verdict_of_opcode {v : Word} {op : Nat} (hop : op ≤ 0x0A) (hpush : op ≠ 0x02) (hradix : op ≠ 0x09)
    (hv : v.toNat % 2 ^ 8 = op) (s : State) :
    verdict v s =
      if s.status.busy then .reject .busy
      else if v.toNat ≠ op then .reject .badOp
      else if opValid op s.status then .accept
      else .reject .badSeq := by
  have hsoft : v ≠ 0x0000000F := by
    rintro rfl
    exact absurd (hv ▸ hop) (by decide)
  have hack : op ≠ 0x0E := by omega
  have hbad := noCommand_iff_ne_opcode (.inl hop) hpush hv
  unfold NoCommand at hbad
  rw [hv] at hbad
  simp only [verdict, hv, hbad, hsoft, hpush, hradix, hack]
  cases opValid op s.status <;> simp

/-- The handling of the words of an engine command that has no operand check (R122, R130). -/
theorem cmdLaw_of_opValid {op : Nat} (hop : op ≤ 0x0A) (hpush : op ≠ 0x02) (hradix : op ≠ 0x09)
    {ok : State → Bool} (hok : ∀ s : State, ok s = opValid op s.status) : CmdLaw op ok := by
  intro s v rest hr hin hv
  obtain ⟨tn, hstep⟩ := cmdWriteFollowsCheckOrder s v rest hr hin
  refine ⟨tn, hstep.trans (congrArg _ ?_)⟩
  rw [cmdOutcome, verdict_of_opcode hop hpush hradix hv, hok]
  split_ifs <;> rfl

/-! ## NOP and ACK -/

theorem complete_eq_finished (s : State) : complete s = finished s := rfl

/-- Settles O16: NOP is valid in every mode, and its completion is `complete()` alone. -/
theorem nopCompletesUnchanged : Obligations.NopCompletesUnchanged :=
  ⟨cmdLaw_of_opValid (by decide) (by decide) (by decide) fun _ => rfl,
    fun s ht => (exec_nop_engine ht).trans (congrArg _ (complete_eq_finished s))⟩

/-- After ACK nothing raises `irq` (R128, R289). -/
theorem irq_cleared {s : State} (h : s.rst ≠ .powerUp) : (cleared s).irq = false := by
  unfold State.irq
  cases hr : s.rst with
  | powerUp => exact absurd hr h
  | asserted | released => simp [hr, cleared]

/-- The verdict on a word with the opcode of ACK (R128). -/
theorem verdict_of_ackOpcode {v : Word} (hv : v.toNat % 2 ^ 8 = 0x0E) (s : State) :
    verdict v s =
      if s.status.busy then .reject .busy else if v.toNat ≠ 0x0E then .reject .badOp else .ack := by
  have hsoft : v ≠ 0x0000000F := by
    rintro rfl
    exact absurd hv (by decide)
  have hbad := noCommand_iff_ne_opcode (.inr rfl) (by decide) hv
  unfold NoCommand at hbad
  rw [hv] at hbad
  simp only [verdict, hv, hbad, hsoft, if_true, if_false]

/-- Settles O17: ACK is decided at its write, and clears both sources of `irq`. -/
theorem ackClearsErrorsAndDone : Obligations.AckClearsErrorsAndDone := by
  refine ⟨fun s => ?_, fun s h => irq_cleared h, fun s v rest hr hin hv => ?_⟩
  · refine (execAck_eq_cmdOutcome s).trans (congrArg _ ?_)
    rw [cmdOutcome, verdict_of_ackOpcode rfl]
    cases s.status.busy <;> rfl
  · obtain ⟨tn, hstep⟩ := cmdWriteFollowsCheckOrder s v rest hr hin
    refine ⟨tn, hstep.trans (congrArg _ ?_)⟩
    rw [cmdOutcome, verdict_of_ackOpcode hv]
    split_ifs <;> rfl

end Sys2Proof.Proofs
end

section
/-!
SUPPORT. Proof that a running command is invisible (40_command_control.md R125): no effect of a command reads the error
fields or the last read, and while a command runs a host access changes nothing else.
-/

namespace Sys2Proof.Proofs

open Sys2Proof.Machine Sys2Proof.Claims

/-! ## The parts of a final command

They have names so that a proof about HMAC_FINAL treats its outer stream as one state: the kernel otherwise evaluates the
appends of the inner digest byte by byte. -/

/-- Pad the stream and write its digest: the common part of MD5_FINAL and HMAC_FINAL (R178, R208). -/
def writeDigest (s : State) : State := setDigest (toBytes 16 (finalize s.mlen s).1) (finalize s.mlen s).2

/-- The outer stream of HMAC_FINAL: the opad block, then the inner digest (R208). -/
def outerStream (s : State) : State :=
  md5AppendAll (finalize s.mlen s).1 (setMlen 512 (clearBlock (compress .opad (loadIv (finalize s.mlen s).2))))

theorem md5Final_eq (s : State) : md5Final s = setMode .none (writeDigest s) := rfl

theorem hmacFinal_eq (s : State) : hmacFinal s = setMode .none (clearKbuf (writeDigest (outerStream s))) := rfl

/-! ## What `withErrors` leaves alone -/

section

variable (t s : State)

@[simp] theorem withErrors_khash : (withErrors t s).status.khash = s.status.khash := rfl
@[simp] theorem withErrors_dataIn : (withErrors t s).dataIn = s.dataIn := rfl
@[simp] theorem withErrors_mlen : (withErrors t s).mlen = s.mlen := rfl
@[simp] theorem withErrors_bcnt : (withErrors t s).bcnt = s.bcnt := rfl
@[simp] theorem withErrors_cfg : (withErrors t s).cfg = s.cfg := rfl
@[simp] theorem withErrors_alphaLen : (withErrors t s).alphaLen = s.alphaLen := rfl
@[simp] theorem withErrors_digest : (withErrors t s).digest = s.digest := rfl
@[simp] theorem withErrors_alpha : (withErrors t s).alpha = s.alpha := rfl
@[simp] theorem withErrors_enc : (withErrors t s).enc = s.enc := rfl
@[simp] theorem withErrors_hash : (withErrors t s).hash = s.hash := rfl

/-! ## The operations of the engine do not read the error fields -/

@[simp] theorem complete_withErrors : complete (withErrors t s) = withErrors t (complete s) := rfl
@[simp] theorem setMode_withErrors (m : Mode) : setMode m (withErrors t s) = withErrors t (setMode m s) := rfl
@[simp] theorem setKhash_withErrors (b : Bool) : setKhash b (withErrors t s) = withErrors t (setKhash b s) := rfl
@[simp] theorem setMlen_withErrors (l : BitVec 64) : setMlen l (withErrors t s) = withErrors t (setMlen l s) := rfl
@[simp] theorem setKbuf_withErrors (k : Vector Byte 64) : setKbuf k (withErrors t s) = withErrors t (setKbuf k s) := rfl
@[simp] theorem setDigest_withErrors (d : Vector Byte 16) :
    setDigest d (withErrors t s) = withErrors t (setDigest d s) := rfl
@[simp] theorem setSelftest_withErrors (b : Bool) :
    setSelftest b (withErrors t s) = withErrors t (setSelftest b s) := rfl
@[simp] theorem clearKbuf_withErrors : clearKbuf (withErrors t s) = withErrors t (clearKbuf s) := rfl
@[simp] theorem clearBlock_withErrors : clearBlock (withErrors t s) = withErrors t (clearBlock s) := rfl
@[simp] theorem loadIv_withErrors : loadIv (withErrors t s) = withErrors t (loadIv s) := rfl
@[simp] theorem startSession_withErrors : startSession (withErrors t s) = withErrors t (startSession s) := rfl
@[simp] theorem putByte_withErrors (b : Byte) : putByte b (withErrors t s) = withErrors t (putByte b s) := rfl
@[simp] theorem putLength_withErrors (l : BitVec 64) :
    putLength l (withErrors t s) = withErrors t (putLength l s) := rfl
@[simp] theorem keyStore_withErrors (b : Byte) : keyStore b (withErrors t s) = withErrors t (keyStore b s) := rfl
@[simp] theorem setHash_withErrors (h h' : Hash) : setHash h h' (withErrors t s) = withErrors t (setHash h h' s) := rfl
@[simp] theorem setEnc_withErrors (e : EncWork) : setEnc e (withErrors t s) = withErrors t (setEnc e s) := rfl
@[simp] theorem setOut_withErrors (o : List Byte) : setOut o (withErrors t s) = withErrors t (setOut o s) := rfl

theorem blockWords_withErrors (src : BlockSrc) : blockWords src (withErrors t s) = blockWords src s := by
  cases src <;> rfl

@[simp] theorem compress_withErrors (src : BlockSrc) :
    compress src (withErrors t s) = withErrors t (compress src s) := by
  rw [compress, blockWords_withErrors, withErrors_hash, setHash_withErrors, compress]

@[simp] theorem md5Append_withErrors (b : Byte) : md5Append b (withErrors t s) = withErrors t (md5Append b s) := by
  simp [md5Append, apply_ite (withErrors t)]

@[simp] theorem md5AppendAll_withErrors (bs : List Byte) :
    md5AppendAll bs (withErrors t s) = withErrors t (md5AppendAll bs s) := by
  induction bs generalizing s with
  | nil => rfl
  | cons b bs ih => rw [md5AppendAll_cons, md5Append_withErrors, ih, md5AppendAll_cons]

@[simp] theorem padBlock_withErrors : padBlock (withErrors t s) = withErrors t (padBlock s) := by
  simp [padBlock, apply_ite (withErrors t)]

/-- The padding gives the same digest and leaves the same state. -/
@[simp] theorem finalize_withErrors (l : BitVec 64) :
    finalize l (withErrors t s) = ((finalize l s).1, withErrors t (finalize l s).2) := by
  simp [finalize, lastBlock]

@[simp] theorem writeDigest_withErrors : writeDigest (withErrors t s) = withErrors t (writeDigest s) := by
  simp [writeDigest]

@[simp] theorem outerStream_withErrors : outerStream (withErrors t s) = withErrors t (outerStream s) := by
  simp [outerStream]

@[simp] theorem keyHashStart_withErrors : keyHashStart (withErrors t s) = withErrors t (keyHashStart s) := by
  simp [keyHashStart]

@[simp] theorem keyAppend_withErrors (b : Byte) : keyAppend b (withErrors t s) = withErrors t (keyAppend b s) := by
  simp [keyAppend, apply_ite (withErrors t)]

@[simp] theorem pushByte_withErrors (b : Byte) : pushByte b (withErrors t s) = withErrors t (pushByte b s) := by
  by_cases hm : s.status.mode = .key
  · rw [pushByte_key hm, pushByte_key (s := withErrors t s) hm, keyAppend_withErrors]
  · rw [pushByte_message hm, pushByte_message (s := withErrors t s) hm, md5Append_withErrors]

@[simp] theorem pushAll_withErrors (bs : List Byte) :
    pushAll bs (withErrors t s) = withErrors t (pushAll bs s) := by
  induction bs generalizing s with
  | nil => rfl
  | cons b bs ih => rw [pushAll_cons, pushByte_withErrors, ih, pushAll_cons]

@[simp] theorem normaliseKey_withErrors : normaliseKey (withErrors t s) = withErrors t (normaliseKey s) := by
  simp [normaliseKey, apply_ite (withErrors t)]

/-! ## The effects of the commands do not read the error fields -/

theorem push_withErrors (n : Byte) : push n (withErrors t s) = withErrors t (push n s) := by
  simp [push]

theorem md5Init_withErrors : md5Init (withErrors t s) = withErrors t (md5Init s) := by
  simp [md5Init]

theorem md5Final_withErrors : md5Final (withErrors t s) = withErrors t (md5Final s) := by
  simp [md5Final_eq]

theorem selftest_withErrors : selftest (withErrors t s) = withErrors t (selftest s) := by
  simp [selftest]

theorem hmacKeyInit_withErrors : hmacKeyInit (withErrors t s) = withErrors t (hmacKeyInit s) := by
  simp [hmacKeyInit]

theorem hmacStart_withErrors : hmacStart (withErrors t s) = withErrors t (hmacStart s) := by
  simp [hmacStart]

theorem hmacFinal_withErrors : hmacFinal (withErrors t s) = withErrors t (hmacFinal s) := by
  simp [hmacFinal_eq]

theorem encHex_withErrors : encHex (withErrors t s) = withErrors t (encHex s) := by
  simp [encHex]

theorem encB64_withErrors : encB64 (withErrors t s) = withErrors t (encB64 s) := by
  simp [encB64]

theorem convert_withErrors : convert (withErrors t s) = withErrors t (convert s) := by
  simp [convert]

theorem radixSymbols_withErrors (l : Nat) : radixSymbols l (withErrors t s) = radixSymbols l s := by
  simp [radixSymbols, State.symbol]

theorem encRadix_withErrors : encRadix (withErrors t s) = withErrors t (encRadix s) := by
  simp [encRadix, convert_withErrors, radixSymbols_withErrors]

/-- The effect of a command neither reads nor writes the error fields and the last read (R125). -/
theorem commandEffect_withErrors (i : Instr) :
    commandEffect i (withErrors t s) = withErrors t (commandEffect i s) := by
  cases i with
  | push n => exact push_withErrors t s n
  | md5Init => exact md5Init_withErrors t s
  | md5Final => exact md5Final_withErrors t s
  | hmacKeyInit => exact hmacKeyInit_withErrors t s
  | hmacStart => exact hmacStart_withErrors t s
  | hmacFinal => exact hmacFinal_withErrors t s
  | encHex => exact encHex_withErrors t s
  | encB64 => exact encB64_withErrors t s
  | encRadix => exact encRadix_withErrors t s
  | selftest => exact selftest_withErrors t s
  | nop | ack | softReset | stepFf _ | stepGg _ | stepHh _ | stepIi _ => rfl

end

/-! ## Host accesses while a command runs -/

/-- `t` is `s` but for the error fields, the last read and the model's own turn (log entry 1). -/
def UpToErrors (s t : State) : Prop := t = withErrors t { s with turn := t.turn }

theorem UpToErrors.trans {s t u : State} (hst : UpToErrors s t) (htu : UpToErrors t u) : UpToErrors s u := by
  unfold UpToErrors at *
  rw [htu, hst]
  rfl

theorem upToErrors_recordError (e : ErrCode) (s : State) (x : Word) (tn : Turn) :
    UpToErrors s { recordError e s with rdata := x, turn := tn } := by
  rw [recordError_eq_errored]
  rfl

/-- A host read changes the last read, and the error fields if it is BAD_ADDR (R63). -/
theorem upToErrors_busRead (off : BitVec 12) (s : State) : UpToErrors s (busRead off s) := by
  cases hreg : regAt off with
  | none =>
    rw [busRead_bad hreg]
    exact upToErrors_recordError .badAddr s 0 s.turn
  | some r =>
    rw [busRead_mapped hreg]
    rfl

/-- While a command runs, a host write other than SOFT_RESET records an error and does nothing else (R64, R66, R122). -/
theorem busWrite_running {s : State} (hb : s.status.busy = true) {off : BitVec 12} {v : Word}
    (h : plainAccess (.write off v) = true) :
    ∃ (e : ErrCode) (tn : Turn), busWrite off v s = .next (recordError e { s with turn := tn }) := by
  cases hreg : regAt off with
  | none => exact ⟨.badAddr, s.turn, busWrite_unmapped hreg v s⟩
  | some r =>
    by_cases hcmd : r = .cmd
    · subst hcmd
      obtain rfl : off = 0x004 := regAt_eq_some hreg
      have hv : v ≠ 0x0000000F := by simpa [plainAccess] using h
      obtain ⟨tn, hwrite⟩ := writeCmd_eq_cmdOutcome v s
      rw [cmdOutcome_rejected (verdict_busy hv (by exact hb))] at hwrite
      exact ⟨.busy, tn, hwrite⟩
    · rw [busWrite_mapped hreg hcmd]
      by_cases hrw : r.access = .rw
      · exact ⟨.busy, s.turn, congrArg _ (writeReg_busy hrw hb v)⟩
      · exact ⟨.badAddr, s.turn, congrArg _ (writeReg_refused hrw v s)⟩

/-- A host access to a running MDE, SOFT_RESET apart, shows in the error fields and the last read only. -/
theorem stepOn_running {s : State} (hr : s.rst = .released) (hb : s.status.busy = true) {e : Event}
    (he : plainAccess e = true) : ∃ t : State, stepOn e s = .next t ∧ UpToErrors s t := by
  rw [stepOn_live hr]
  cases e with
  | engine | rstAssert | rstRelease => cases he
  | read off => exact ⟨_, rfl, upToErrors_busRead off s⟩
  | write off v =>
    obtain ⟨e, tn, hwrite⟩ := busWrite_running hb he
    exact ⟨_, hwrite, upToErrors_recordError e s s.rdata tn⟩

/-- So does any number of them. -/
theorem run_running {es : List Event} (hes : ∀ e ∈ es, plainAccess e = true) {s : State} (hr : s.rst = .released)
    (hb : s.status.busy = true) : ∃ t : State, run es s = some t ∧ UpToErrors s t := by
  induction es generalizing s with
  | nil => exact ⟨s, rfl, rfl⟩
  | cons e es ih =>
    rw [List.forall_mem_cons] at hes
    obtain ⟨u, hstep, hu⟩ := stepOn_running hr hb hes.1
    obtain ⟨t, hrun, ht⟩ := ih hes.2 (s := u) (by rw [hu]; exact hr) (by rw [hu]; exact hb)
    exact ⟨t, by rw [run, hstep]; exact hrun, hu.trans ht⟩

/-! ## From acceptance to completion -/

/-- Of what acceptance and refused accesses change, only STATUS is a register of the window (R20, R63). -/
theorem readReg_frame {r : Reg} (hr : r ≠ .status) (s : State) (st : Status) (q : Seq) (tn : Turn) (x : Word) :
    readReg r { s with status := st, seq := q, turn := tn, rdata := x } = readReg r s := by
  cases r with
  | status => exact absurd rfl hr
  | _ => rfl

/-- R122 accepts engine commands only (R123). -/
theorem decode_of_verdict_accept {v : Word} {s : State} (h : verdict v s = .accept) :
    ∃ i : Instr, decode (.cmd v) = .ok i ∧ i.isEngine = true := by
  rcases decodeCmd_cases v with ⟨i, hdec, hcmd, rfl⟩ | ⟨e, -, hbad⟩
  · refine ⟨i, hdec, ?_⟩
    cases i with
    | ack =>
      rw [show cmdWord .ack = 0x0000000E from rfl, verdict_of_ackOpcode rfl] at h
      split_ifs at h
    | softReset => simp [verdict, show cmdWord .softReset = 0x0000000F from rfl] at h
    | _ => exact hcmd
  · rw [verdict_of_noCommand hbad] at h
    cases h

/-- The write of an accepted command (R123). -/
theorem stepOn_accepted {v : Word} {s : State} (hr : s.rst = .released) (h : verdict v s = .accept) :
    ∃ tn : Turn, stepOn (.write 0x004 v) s = .next { accepted v s with turn := tn } := by
  obtain ⟨tn, hwrite⟩ := writeCmd_eq_cmdOutcome v s
  refine ⟨tn, (stepOn_live hr _).trans (hwrite.trans (congrArg _ ?_))⟩
  rw [cmdOutcome_accepted (by exact h)]
  rfl

/-- Outside a compression the engine's turn is the completion of the latched command (R125, R126). -/
theorem stepOn_engine {s : State} (hr : s.rst = .released) (hrun : s.seq.phase = .run) (hblock : s.seq.block = .idle)
    {i : Instr} (hdec : decode (.cmd s.seq.pcmd) = .ok i) (hi : i.isEngine = true) :
    stepOn .engine s = exec i { s with turn := .engine } := by
  rw [stepOn_live hr]
  simp only [eventLive, engineTurn, hrun, hblock, completeCmd, hdec, hi, if_true]

/-- The completion of a command differs in the error fields and the last read only, if that is where the states it
starts from differ. -/
theorem exec_engine_withErrors {i : Instr} (hi : i.isEngine = true) (t : State) {s : State} (ht : s.turn = .engine) :
    ∃ a b : State, exec i s = .next a ∧ exec i (withErrors t s) = .next b ∧ b = withErrors t a := by
  refine ⟨_, _, exec_engine hi ht, exec_engine hi (by exact ht), ?_⟩
  rw [commandEffect_withErrors, complete_withErrors]

/-- Settles O54: the accesses after acceptance keep all but the error fields and the last read, which the effect of the
command neither reads nor writes. -/
theorem runningCommandIsInvisible : Obligations.RunningCommandIsInvisible := by
  intro s v es hr hv hes
  obtain ⟨i, hdec, hi⟩ := decode_of_verdict_accept hv
  obtain ⟨tn, haccept⟩ := stepOn_accepted hr hv
  obtain ⟨t, hrun, ht⟩ := run_running hes (s := { accepted v s with turn := tn }) hr rfl
  have ht : t = withErrors t { accepted v s with turn := t.turn } := ht
  have heng : { t with turn := .engine } = withErrors t { accepted v s with turn := .engine } :=
    congrArg (fun x : State => { x with turn := .engine }) ht
  refine ⟨t, i, by rw [run, haccept]; exact hrun, hdec, ht, fun r hne => ?_, fun hblock => ?_, ?_⟩
  · rw [ht]
    exact readReg_frame hne s _ _ _ _
  · refine stepOn_engine ?_ ?_ ?_ ?_ hi <;> rw [ht]
    exacts [hr, rfl, hblock, hdec]
  · rw [heng]
    exact exec_engine_withErrors hi t rfl

end Sys2Proof.Proofs
end

section
/-!
SUPPORT. Proofs about packing (41_word_packer.md R140, R141): bytes, the words they are packed into, and the bytes
of these words.
-/

namespace Sys2Proof.Proofs

open Sys2Proof.Machine Sys2Proof.Claims

/-! ## Bytes of a word -/

/-- `bytes_le` undoes `word_le` (R9). -/
@[simp] theorem bytesLe_wordLe (a b c d : Byte) : bytesLe (wordLe a b c d) = [a, b, c, d] := by
  have hword := wordLe_eq_fourBytes fun i => [a, b, c, d].getD i 0
  have ha := a.isLt
  have hb := b.isLt
  have hc := c.isLt
  have hd := d.isLt
  have hnat : (wordLe a b c d).toNat = a.toNat + 2 ^ 8 * b.toNat + 2 ^ 16 * c.toNat + 2 ^ 24 * d.toNat := by
    rw [show wordLe a b c d = _ from hword, fourBytes, BitVec.toNat_ofNat]
    exact Nat.mod_eq_of_lt (by simp; omega)
  simp only [bytesLe, lane_eq_ofNat, hnat, List.cons.injEq, ← BitVec.toNat_inj, BitVec.toNat_ofNat, and_true]
  omega

/-! ## Packing and unpacking -/

theorem length_pack (m : List Byte) : (pack m).length = (m.length + 3) / 4 := by simp [pack]

/-- The first four bytes are the first word (R140). -/
theorem pack_cons4 (a b c d : Byte) (m : List Byte) : pack (a :: b :: c :: d :: m) = wordLe a b c d :: pack m := by
  have hlen : ((a :: b :: c :: d :: m).length + 3) / 4 = (m.length + 3) / 4 + 1 := by
    simp only [List.length_cons]
    omega
  rw [pack, hlen, List.range_succ_eq_map]
  simp [pack, Nat.mul_add]

theorem unpack_cons (w : Word) (p : List Word) : unpack (w :: p) = bytesLe w ++ unpack p := rfl

/-- Packing adds only the zero bytes of the last word (R141). -/
theorem unpack_pack : ∀ m : List Byte, unpack (pack m) = m ++ List.replicate ((4 - m.length % 4) % 4) 0
  | [] => rfl
  | [a] | [a, b] | [a, b, c] => by simp [pack, unpack]
  | a :: b :: c :: d :: m => by
    have hmod : (a :: b :: c :: d :: m).length % 4 = m.length % 4 := by simp only [List.length_cons]; omega
    rw [pack_cons4, unpack_cons, bytesLe_wordLe, unpack_pack m, hmod]
    rfl

/-- Settles O33, by recursion on the words of the packing. -/
theorem unpackOfPackIsZeroExtension : Obligations.UnpackOfPackIsZeroExtension :=
  fun m => ⟨length_pack m, unpack_pack m⟩

end Sys2Proof.Proofs
end

section
/-!
SUPPORT. Proofs about the block buffer (41_word_packer.md R142 to R147): a byte OR-ed into it is the packing of one byte
more, and a full buffer is one link of the chain.
-/

namespace Sys2Proof.Proofs

open Sys2Proof.Machine Sys2Proof.Claims

/-! ## The words of a block -/

@[simp] theorem dataWord_nil : dataWord [] = 0 := by decide

/-- The bytes after the fourth are not in the word (R140). -/
theorem dataWord_append {g : List Byte} (h : 4 ≤ g.length) (x : List Byte) : dataWord (g ++ x) = dataWord g := by
  simp (disch := omega) only [dataWord, List.getD_append]

/-- OR-ing the next byte into its lane packs one byte more (R142). -/
theorem dataWord_concat {g : List Byte} (h : g.length < 4) (b : Byte) :
    dataWord (g ++ [b]) = dataWord g ||| (b.setWidth 32 <<< (8 * g.length)) := by
  match g, h with
  | [], _ | [x], _ | [x, y], _ | [x, y, z], _ => simp [dataWord, wordLe]

/-- The bytes of DATA_IN that a push of a group appends are the group (R144). -/
theorem take_bytesLe_dataWord {g : List Byte} (h : g.length ≤ 4) : (bytesLe (dataWord g)).take g.length = g := by
  rw [dataWord, bytesLe_wordLe]
  match g, h with
  | [], _ | [x], _ | [x, y], _ | [x, y, z], _ | [x, y, z, t], _ => rfl

theorem getElem_blockOf (m : List Byte) {i : Nat} (hi : i < 16) : (blockOf m)[i] = dataWord (m.drop (4 * i)) := by
  simp only [blockOf, toBlock, pack, Vector.getElem_ofFn]
  by_cases hlen : i < (m.length + 3) / 4
  · simp [hlen, dataWord]
  · rw [List.drop_of_length_le (by omega)]
    simp [hlen]

@[simp] theorem blockOf_nil : blockOf [] = Vector.replicate 16 0 := by
  ext1 i hi
  simp [getElem_blockOf]

/-- OR-ing the next byte into its word packs one byte more (R142). -/
theorem blockOf_concat (m : List Byte) (b : Byte) :
    blockOf (m ++ [b]) = (blockOf m).setIfInBounds (m.length / 4)
      (wordAt (blockOf m) (m.length / 4) ||| (b.setWidth 32 <<< (8 * (m.length % 4)))) := by
  ext1 i hi
  rw [Vector.getElem_setIfInBounds, getElem_blockOf, getElem_blockOf]
  by_cases hword : m.length / 4 = i
  · have hat : wordAt (blockOf m) i = dataWord (m.drop (4 * i)) := by
      rw [wordAt, Vector.getElem?_eq_getElem hi, getElem_blockOf]
      rfl
    have hlen : (m.drop (4 * i)).length = m.length % 4 := by rw [List.length_drop]; omega
    rw [if_pos hword, hword, hat, List.drop_append_of_le_length (by omega), dataWord_concat (by omega), hlen]
  · rw [if_neg hword]
    by_cases hfull : 4 * i + 4 ≤ m.length
    · rw [List.drop_append_of_le_length (by omega), dataWord_append (by rw [List.length_drop]; omega)]
    · rw [List.drop_of_length_le (by rw [List.length_append, List.length_singleton]; omega),
        List.drop_of_length_le (by omega)]

/-! ## The chain -/

@[simp] theorem chainBlocks_zero (p : List Byte) (h : Hash) : chainBlocks 0 p h = h := rfl

/-- An equation of functions: with the arguments given, the kernel would compare the two chaining values first, and
unfold 64 steps. -/
theorem chainBlocks_succ_fun (n : Nat) :
    chainBlocks (n + 1) = fun p h => chainBlocks n (p.drop 64) (compressHash (toBlock (pack (p.take 64))) h) := rfl

theorem chainBlocks_succ (n : Nat) (p : List Byte) (h : Hash) :
    chainBlocks (n + 1) p h = chainBlocks n (p.drop 64) (compressHash (toBlock (pack (p.take 64))) h) :=
  congrFun₂ (chainBlocks_succ_fun n) p h

theorem chainBlocks_append {n : Nat} {p : List Byte} (hp : p.length = 64 * n) (k : Nat) (q : List Byte) (h : Hash) :
    chainBlocks (n + k) (p ++ q) h = chainBlocks k q (chainBlocks n p h) := by
  induction n generalizing p h with
  | zero =>
    obtain rfl : p = [] := List.eq_nil_of_length_eq_zero hp
    rw [Nat.zero_add, List.nil_append, chainBlocks_zero]
  | succ n ih =>
    have hdrop : (p.drop 64).length = 64 * n := by rw [List.length_drop]; omega
    rw [Nat.add_right_comm, chainBlocks_succ, chainBlocks_succ, List.drop_append_of_le_length (by omega),
      List.take_append_of_le_length (by omega), ih hdrop]

/-- Full blocks chain first (R174). -/
theorem chain_append {p : List Byte} (hp : p.length % 64 = 0) (q : List Byte) (h : Hash) :
    chain h (p ++ q) = chain (chain h p) q := by
  have hlen : (p ++ q).length / 64 = p.length / 64 + q.length / 64 := by rw [List.length_append]; omega
  rw [chain, hlen, chainBlocks_append (by omega)]
  rfl

@[simp] theorem chain_nil (h : Hash) : chain h [] = h := rfl

/-- One block is one compression (R174). -/
theorem chain_block {q : List Byte} (hq : q.length = 64) (h : Hash) : chain h q = compressHash (blockOf q) h := by
  rw [chain, hq, Nat.div_self (by decide), chainBlocks_succ 0, chainBlocks_zero, List.take_of_length_le hq.le, blockOf]

/-! ## The stream in the block buffer -/

/-- The bytes of the full blocks of a stream (R149). -/
def fullBlocks (m : List Byte) : List Byte := m.take (64 * (m.length / 64))

/-- The bytes of a stream after its full blocks (R149). -/
def lastBytes (m : List Byte) : List Byte := m.drop (64 * (m.length / 64))

theorem fullBlocks_append_lastBytes (m : List Byte) : fullBlocks m ++ lastBytes m = m := List.take_append_drop _ _

@[simp] theorem length_fullBlocks (m : List Byte) : (fullBlocks m).length = 64 * (m.length / 64) := by
  rw [fullBlocks, List.length_take]
  omega

@[simp] theorem length_lastBytes (m : List Byte) : (lastBytes m).length = m.length % 64 := by
  rw [lastBytes, List.length_drop]
  omega

/-- A byte that does not fill the block joins the last bytes. -/
theorem blocks_concat_room {m : List Byte} (h : m.length % 64 ≠ 63) (b : Byte) :
    fullBlocks (m ++ [b]) = fullBlocks m ∧ lastBytes (m ++ [b]) = lastBytes m ++ [b] := by
  have hdiv : (m ++ [b]).length / 64 = m.length / 64 := by rw [List.length_append, List.length_singleton]; omega
  rw [fullBlocks, lastBytes, hdiv]
  exact ⟨List.take_append_of_le_length (by omega), List.drop_append_of_le_length (by omega)⟩

/-- A byte that fills the block makes it one of the full ones. -/
theorem blocks_concat_fills {m : List Byte} (h : m.length % 64 = 63) (b : Byte) :
    fullBlocks (m ++ [b]) = fullBlocks m ++ (lastBytes m ++ [b]) ∧ lastBytes (m ++ [b]) = [] := by
  have hlen : (m ++ [b]).length = 64 * ((m ++ [b]).length / 64) := by
    rw [List.length_append, List.length_singleton]
    omega
  refine ⟨?_, List.drop_of_length_le hlen.le⟩
  rw [← List.append_assoc, fullBlocks_append_lastBytes]
  exact List.take_of_length_le hlen.le

/-- A..D, W and BCNT after the bytes `m` have gone through the block buffer from the chaining value `h` (R143, R149). -/
structure Chained (h : Hash) (m : List Byte) (s : State) : Prop where
  hash : s.hash = chain h (fullBlocks m)
  w : s.w = blockOf (lastBytes m)
  bcnt : s.bcnt.toNat = m.length % 64

/-- An empty block buffer begins a stream. -/
theorem chained_nil {h : Hash} {s : State} (hhash : s.hash = h) (hw : s.w = noWords) (hbcnt : s.bcnt = 0) :
    Chained h [] s where
  hash := hhash.trans (chain_nil h).symm
  w := hw.trans blockOf_nil.symm
  bcnt := by rw [hbcnt]; rfl

/-- The byte that `md5_append` puts into the buffer (R142). -/
theorem putByte_w_of_chained {h : Hash} {m : List Byte} {s : State} (hs : Chained h m s) (b : Byte) :
    (putByte b s).w = blockOf (lastBytes m ++ [b]) := by
  rw [blockOf_concat, putByte_w, hs.w, hs.bcnt, length_lastBytes]

theorem md5Append_chained {h : Hash} {m : List Byte} {s : State} (hs : Chained h m s) (b : Byte) :
    Chained h (m ++ [b]) (md5Append b s) := by
  have hw := putByte_w_of_chained hs b
  have hbcnt := hs.bcnt
  have hlen : (m ++ [b]).length = m.length + 1 := List.length_append
  by_cases hfill : m.length % 64 = 63
  · obtain ⟨hfull, hlast⟩ := blocks_concat_fills hfill b
    have hblock : (lastBytes m ++ [b]).length = 64 := by
      rw [List.length_append, length_lastBytes, hfill]
      rfl
    rw [md5Append_fills (BitVec.eq_of_toNat_eq (hbcnt.trans hfill))]
    refine ⟨?_, ?_, ?_⟩
    · rw [hfull, chain_append (by rw [length_fullBlocks]; omega), chain_block hblock, clearBlock_hash, compress_hash,
        blockWords, setMlen_w, hw, setMlen_hash, putByte_hash, hs.hash]
    · rw [hlast, blockOf_nil, clearBlock_w]
    · rw [hlen, clearBlock_bcnt, show (m.length + 1) % 64 = 0 by omega]
      rfl
  · obtain ⟨hfull, hlast⟩ := blocks_concat_room hfill b
    rw [md5Append_room (by bv_omega)]
    refine ⟨?_, ?_, ?_⟩
    · rw [hfull, setMlen_hash, putByte_hash, hs.hash]
    · rw [hlast, setMlen_w, hw]
    · rw [hlen, setMlen_bcnt, putByte_bcnt]
      bv_omega

theorem md5AppendAll_chained {h : Hash} {m : List Byte} {s : State} (hs : Chained h m s) (bs : List Byte) :
    Chained h (m ++ bs) (md5AppendAll bs s) := by
  induction bs generalizing m s with
  | nil => rwa [List.append_nil]
  | cons b bs ih =>
    rw [List.append_cons, md5AppendAll_cons]
    exact ih (md5Append_chained hs b)

/-- Outside MODE KEY every pushed byte goes through the block buffer (R144). -/
theorem pushAll_message {s : State} (h : s.status.mode ≠ .key) (bs : List Byte) : pushAll bs s = md5AppendAll bs s := by
  induction bs generalizing s with
  | nil => rfl
  | cons b bs ih => rw [pushAll_cons, pushByte_message h, ih (by rwa [md5Append_status]), md5AppendAll_cons]

end Sys2Proof.Proofs
end

section
/-!
SUPPORT. Proof that streaming equals packing (41_word_packer.md R149): an accepted command completes at the engine's
next turn, and the pushes of a session append their bytes to the stream.
-/

namespace Sys2Proof.Proofs

open Sys2Proof.Machine Sys2Proof.Claims

/-! ## A command of a session -/

theorem run_append (es fs : List Event) (s : State) : run (es ++ fs) s = (run es s).bind (run fs) := by
  induction es generalizing s with
  | nil => rfl
  | cons e es ih =>
    rw [List.cons_append, run, run]
    cases stepOn e s with
    | next t => exact ih t
    | fault _ | refused _ => rfl

theorem run_cons_next {e : Event} {s t : State} (h : stepOn e s = .next t) (es : List Event) :
    run (e :: es) s = run es t := by
  rw [run, h]

/-- The command word of an engine command decodes to it (R93). -/
theorem decode_cmdWord {i : Instr} (hi : i.isEngine = true) : decode (.cmd (cmdWord i)) = .ok i := by
  cases i with
  | push n => revert n; decide +kernel
  | ack | softReset | stepFf _ | stepGg _ | stepHh _ | stepIi _ => cases hi
  | _ => rfl

/-- An idle MDE accepts a command that passes its checks, and completes it at the next turn (R122 to R126). -/
theorem run_command {i : Instr} (hi : i.isEngine = true) {s : State} (hs : Ready s) (hrej : rejection i s = none) :
    run (command i) s = some (complete (commandEffect i { accepted (cmdWord i) s with turn := .engine })) := by
  obtain ⟨hr, hb, hblock⟩ := hs
  have hv : verdict (cmdWord i) s = .accept := by simp [verdict_cmdWord hi, hb, hrej]
  obtain ⟨tn, haccept⟩ := stepOn_accepted hr hv
  have hengine := stepOn_engine (s := { accepted (cmdWord i) s with turn := tn }) hr rfl hblock (decode_cmdWord hi) hi
  rw [command, show writeTo .cmd (cmdWord i) = .write 0x004 (cmdWord i) from rfl, run_cons_next haccept,
    run_cons_next (hengine.trans (exec_engine hi rfl))]
  rfl

/-! ## The pushes of a message -/

theorem sameErrors_trans {s t u : State} (hst : sameErrors s t) (htu : sameErrors t u) : sameErrors s u := by
  obtain ⟨herr, hovf, hcode⟩ := hst
  obtain ⟨herr', hovf', hcode'⟩ := htu
  exact ⟨herr'.trans herr, hovf'.trans hovf, hcode'.trans hcode⟩

/-- MDE is idle in a session whose bytes go through the block buffer (R144), and the stream so far is `m`, chained from
`h` on. -/
structure Streaming (h : Hash) (m : List Byte) (s : State) : Prop where
  ready : Ready s
  mode : s.status.mode = .md5 ∨ s.status.mode = .hmsg
  chained : Chained h m s
  mlen : s.mlen.toNat = 8 * m.length

/-- What the pushes of a message leave of STATUS and the key buffer: only DONE may differ (R25, R144). -/
structure MessageFrame (s t : State) : Prop where
  status : t.status = { s.status with done := t.status.done }
  kbuf : t.kbuf = s.kbuf

theorem MessageFrame.refl (s : State) : MessageFrame s s := ⟨rfl, rfl⟩

theorem MessageFrame.trans {s t u : State} (hst : MessageFrame s t) (htu : MessageFrame t u) : MessageFrame s u where
  status := by rw [htu.status, hst.status]
  kbuf := htu.kbuf.trans hst.kbuf

theorem MessageFrame.mode {s t : State} (h : MessageFrame s t) : t.status.mode = s.status.mode := by rw [h.status]

theorem MessageFrame.sameErrors {s t : State} (h : MessageFrame s t) : sameErrors s t := by
  unfold Claims.sameErrors
  rw [h.status]
  exact ⟨rfl, rfl, rfl⟩

/-- The count of a group in the operand of its PUSH (R92). -/
theorem toNat_groupCount {g : List Byte} (hg : g.length ≤ 4) : (BitVec.ofNat 8 g.length).toNat = g.length := by
  rw [BitVec.toNat_ofNat]
  omega

/-- A push that the length bound of R148 allows passes its checks. -/
theorem rejection_push {h : Hash} {m g : List Byte} {s : State} (hs : Streaming h m s)
    (hg : 1 ≤ g.length ∧ g.length ≤ 4) (hlen : (m ++ g).length ≤ 2 ^ 61 - 1) :
    rejection (.push (BitVec.ofNat 8 g.length)) s = none := by
  have hvalid : validInMode (.push (BitVec.ofNat 8 g.length)) s.status = true := by
    rcases hs.mode with hmode | hmode <;> simp [validInMode, hmode]
  have hbound : ¬ s.mlen.toNat + 8 * g.length > 2 ^ 64 - 8 := by
    rw [List.length_append] at hlen
    rw [hs.mlen]
    omega
  rw [rejection, if_pos hvalid, operandRejection, pushRejection, toNat_groupCount hg.2,
    if_neg (not_not.mpr hg), if_neg hbound]

/-- Where bytes go through the block buffer, PUSH appends the bytes the host has put into DATA_IN (R144, R145). -/
theorem push_message {g : List Byte} (hg : g.length ≤ 4) {s : State} (hmode : s.status.mode ≠ .key)
    (hdata : s.dataIn = dataWord g) : push (BitVec.ofNat 8 g.length) s = md5AppendAll g s := by
  rw [push, toNat_groupCount hg, hdata, take_bytesLe_dataWord hg, pushAll_message hmode]

/-- MDE at the engine's turn that completes the push of `g`. -/
def pushRunning (g : List Byte) (s : State) : State :=
  { accepted (cmdWord (.push (BitVec.ofNat 8 g.length))) { s with dataIn := dataWord g } with turn := .engine }

/-- Pushing a group appends its bytes one by one (R144). -/
theorem run_pushGroup_eq {h : Hash} {m g : List Byte} {s : State} (hs : Streaming h m s)
    (hg : 1 ≤ g.length ∧ g.length ≤ 4) (hlen : (m ++ g).length ≤ 2 ^ 61 - 1) :
    run (pushGroup g) s = some (complete (md5AppendAll g (pushRunning g s))) := by
  have hrej := rejection_push hs hg hlen
  obtain ⟨⟨hr, hb, hblock⟩, hmode, -, -⟩ := hs
  have hkey : (pushRunning g s).status.mode ≠ .key := by
    rcases hmode with hmode | hmode <;> simp [pushRunning, accepted, hmode]
  have hstore : stepOn (writeTo .dataIn (dataWord g)) s = .next { s with dataIn := dataWord g } :=
    stepOn_store hr hb rfl _
  rw [pushGroup, run_cons_next hstore,
    run_command (s := { s with dataIn := dataWord g }) rfl ⟨hr, hb, hblock⟩ hrej, ← push_message hg.2 hkey rfl]
  rfl

/-- Pushing a group adds its bytes to the stream (R144, R147). -/
theorem run_pushGroup {h : Hash} {m g : List Byte} {s : State} (hs : Streaming h m s)
    (hg : 1 ≤ g.length ∧ g.length ≤ 4) (hlen : (m ++ g).length ≤ 2 ^ 61 - 1) :
    ∃ t : State, run (pushGroup g) s = some t ∧ Streaming h (m ++ g) t ∧ MessageFrame s t := by
  refine ⟨_, run_pushGroup_eq hs hg hlen, ?_, ?_⟩
  · obtain ⟨⟨hr, -, hblock⟩, hmode, ⟨hhash, hw, hbcnt⟩, hmlen⟩ := hs
    obtain ⟨hhash, hw, hbcnt⟩ := md5AppendAll_chained (s := pushRunning g s) ⟨hhash, hw, hbcnt⟩ g
    refine ⟨⟨?_, rfl, ?_⟩, ?_, ⟨hhash, hw, hbcnt⟩, ?_⟩
    · rw [complete_rst, md5AppendAll_rst]
      exact hr
    · rw [complete_seq, md5AppendAll_seq]
      exact hblock
    · rw [complete_status, md5AppendAll_status]
      exact hmode
    · have hbits : (pushRunning g s).mlen.toNat = 8 * m.length := hmlen
      rw [List.length_append] at hlen ⊢
      rw [complete_mlen, md5AppendAll_mlen, BitVec.toNat_add, BitVec.toNat_ofNat, hbits]
      omega
  · obtain ⟨⟨-, hb, -⟩, -, -, -⟩ := hs
    refine ⟨?_, ?_⟩
    · rw [complete_status, md5AppendAll_status, ← hb]
      rfl
    · rw [complete_kbuf, md5AppendAll_kbuf]
      rfl

/-- Pushing a message in any split appends its bytes to the stream (R149). -/
theorem run_pushGroups {gs : List (List Byte)} (hgs : ∀ g ∈ gs, 1 ≤ g.length ∧ g.length ≤ 4) {h : Hash} {m : List Byte}
    {s : State} (hs : Streaming h m s) (hlen : (m ++ gs.flatten).length ≤ 2 ^ 61 - 1) :
    ∃ t : State, run (pushGroups gs) s = some t ∧ Streaming h (m ++ gs.flatten) t ∧ MessageFrame s t := by
  induction gs generalizing m s with
  | nil => exact ⟨s, rfl, by rwa [List.flatten_nil, List.append_nil], .refl s⟩
  | cons g gs ih =>
    rw [List.forall_mem_cons] at hgs
    rw [List.flatten_cons, ← List.append_assoc] at hlen ⊢
    obtain ⟨u, hpush, hu, hframe⟩ := run_pushGroup hs hgs.1 (by rw [List.length_append] at hlen; omega)
    obtain ⟨t, hrun, ht, hframe'⟩ := ih hgs.2 hu hlen
    refine ⟨t, ?_, ht, hframe.trans hframe'⟩
    rw [pushGroups, List.flatMap_cons, run_append, hpush]
    exact hrun

/-- MD5_INIT opens a stream from the initial constants (R177). -/
theorem run_md5Init {s : State} (hs : Ready s) :
    ∃ t : State, run (command .md5Init) s = some t ∧ Streaming iv [] t ∧ t.status.mode = .md5 ∧ sameErrors s t := by
  refine ⟨_, run_command rfl hs rfl, ?_, rfl, rfl, rfl, rfl⟩
  obtain ⟨hr, -, hblock⟩ := hs
  exact ⟨⟨hr, rfl, hblock⟩, .inl rfl, chained_nil rfl rfl rfl, rfl⟩

/-- Settles O44: every push appends its bytes to the stream, so only the concatenation of the pushes counts. -/
theorem streamingEqualsPacking : Obligations.StreamingEqualsPacking := by
  intro s gs hs hgs hlen m
  obtain ⟨u, hinit, hu, hmode, herr⟩ := run_md5Init hs
  obtain ⟨t, hpush, ⟨hready, -, ⟨hhash, hw, hbcnt⟩, hmlen⟩, hframe⟩ := run_pushGroups hgs hu hlen
  refine ⟨t, ?_, hhash, hw, hbcnt, hmlen, hframe.mode.trans hmode, hready, sameErrors_trans herr hframe.sameErrors⟩
  rw [run_append, hinit]
  exact hpush

end Sys2Proof.Proofs
end

section
/-!
SUPPORT. Proofs about padding (42_md5_engine.md R173, R175): what `Pad` appends, and that the hardware path through the
block buffer compresses the padded bytes.
-/

namespace Sys2Proof.Proofs

open Sys2Proof.Machine Sys2Proof.Claims

/-! ## The bytes of the length field -/

/-- A word is the little-endian word of its lanes (R9, R70). -/
theorem wordLe_lanes (v : Word) : wordLe (lane v 0) (lane v 1) (lane v 2) (lane v 3) = v := by
  have hv := v.isLt
  apply BitVec.eq_of_toNat_eq
  rw [wordLe_eq_fourBytes (lane v)]
  simp only [fourBytes, lane_eq_ofNat, BitVec.toNat_ofNat]
  omega

/-- The first word of the bytes of a word and more is that word (R9, R140). -/
theorem dataWord_bytesLe_append (v : Word) (x : List Byte) : dataWord (bytesLe v ++ x) = v := wordLe_lanes v

@[simp] theorem length_bytesLe (v : Word) : (bytesLe v).length = 4 := rfl

@[simp] theorem length_lengthBytes (l : BitVec 64) : (lengthBytes l).length = 8 := rfl

/-- The length field is the 64-bit length, low byte first (R173). -/
theorem lengthBytes_eq (l : BitVec 64) :
    lengthBytes l = (List.range 8).map fun i => BitVec.ofNat 8 (l.toNat / 2 ^ (8 * i)) := by
  simp only [lengthBytes, bytesLe, lane_eq_ofNat, BitVec.toNat_setWidth, BitVec.toNat_ushiftRight,
    Nat.shiftRight_eq_div_pow, List.range_succ, List.range_zero, List.cons_append, List.nil_append, List.map_cons,
    List.map_nil, List.cons.injEq, ← BitVec.toNat_inj, BitVec.toNat_ofNat, and_true]
  omega

/-! ## Words of padded bytes -/

/-- Zero bytes at the end do not show in a word (R140). -/
theorem dataWord_append_zeros (g : List Byte) (z : Nat) : dataWord (g ++ List.replicate z 0) = dataWord g := by
  have hget (i : Nat) : (g ++ List.replicate z 0).getD i 0 = g.getD i 0 := by
    obtain hi | hi := lt_or_ge i g.length
    · exact List.getD_append _ _ _ _ hi
    · rw [List.getD_append_right _ _ _ _ hi, List.getD_eq_default g 0 hi]
      simp
  simp only [dataWord, hget]

/-- Zero bytes at the end do not show in a block (R140, R143). -/
theorem blockOf_append_zeros (m : List Byte) (z : Nat) : blockOf (m ++ List.replicate z 0) = blockOf m := by
  ext1 i hi
  rw [getElem_blockOf, getElem_blockOf, List.drop_append, List.drop_replicate, dataWord_append_zeros]

/-- The length field after 56 bytes is words 14 and 15 (R69, R173). -/
theorem blockOf_append_lengthBytes {p : List Byte} (hp : p.length = 56) (l : BitVec 64) :
    blockOf (p ++ lengthBytes l) =
      ((blockOf p).setIfInBounds 14 (l.setWidth 32)).setIfInBounds 15 ((l >>> 32).setWidth 32) := by
  ext1 i hi
  rw [Vector.getElem_setIfInBounds, Vector.getElem_setIfInBounds, getElem_blockOf, getElem_blockOf]
  by_cases h15 : 15 = i
  · subst h15
    rw [if_pos rfl, List.drop_append, List.drop_of_length_le (by omega), hp]
    exact dataWord_bytesLe_append ((l >>> 32).setWidth 32) []
  by_cases h14 : 14 = i
  · subst h14
    rw [if_neg h15, if_pos rfl, List.drop_append, List.drop_of_length_le (by omega), hp]
    exact dataWord_bytesLe_append (l.setWidth 32) _
  · rw [if_neg h15, if_neg h14, List.drop_append_of_le_length (by omega),
      dataWord_append (by rw [List.length_drop]; omega)]

/-! ## The padding -/

/-- A message with the 1 bit and the zeros of its padding, before the length field (R173). -/
def padZeroed (m : List Byte) : List Byte := m ++ [0x80] ++ List.replicate (padZeros m.length) 0

theorem pad_eq (m : List Byte) (l : BitVec 64) : pad m l = padZeroed m ++ lengthBytes l := rfl

/-- The 1 bit and the zeros leave 8 bytes in the last block (R173). -/
theorem length_padZeroed (m : List Byte) : (padZeroed m).length = 64 * ((m.length + 8) / 64) + 56 := by
  simp only [padZeroed, padZeros, List.length_append, List.length_singleton, List.length_replicate]
  omega

/-- Settles O32: the zeros are the least number that leaves 8 bytes in the last block, and these 8 are the length. -/
theorem paddingShapeAndLength : Obligations.PaddingShapeAndLength := by
  intro m l
  have hl := l.isLt
  have hlen := length_padZeroed m
  refine ⟨padZeros m.length, ?_, ?_, ?_, ?_, ?_⟩
  · rw [← lengthBytes_eq]
    rfl
  · unfold padZeros
    omega
  · unfold padZeros
    omega
  · rw [pad_eq, List.length_append, hlen, length_lengthBytes]
    omega
  · intro lastWords
    have hlast : lastWords = blockOf ((padZeroed m).drop (64 * ((m.length + 8) / 64)) ++ lengthBytes l) := by
      rw [← List.drop_append_of_le_length (by omega), ← pad_eq]
    rw [hlast, blockOf_append_lengthBytes (by rw [List.length_drop]; omega)]
    have hhi : l.toNat / 4294967296 < 4294967296 := by omega
    simp [wordAt, Nat.shiftRight_eq_div_pow, hhi]

/-! ## The padding in the block buffer -/

/-- Bytes that leave the block open join the last bytes. -/
theorem blocks_append_room {m q : List Byte} (h : m.length % 64 + q.length < 64) :
    fullBlocks (m ++ q) = fullBlocks m ∧ lastBytes (m ++ q) = lastBytes m ++ q := by
  have hdiv : (m ++ q).length / 64 = m.length / 64 := by rw [List.length_append]; omega
  rw [fullBlocks, lastBytes, hdiv]
  exact ⟨List.take_append_of_le_length (by omega), List.drop_append_of_le_length (by omega)⟩

/-- A block that fills is one link of the chain (R174). -/
theorem chain_append_fills (h : Hash) {m q : List Byte} (hq : m.length % 64 + q.length = 64) :
    chain h (m ++ q) = compressHash (blockOf (lastBytes m ++ q)) (chain h (fullBlocks m)) := by
  have hblock : (lastBytes m ++ q).length = 64 := by rw [List.length_append, length_lastBytes, hq]
  rw [← chain_block hblock, ← chain_append (by rw [length_fullBlocks]; omega), ← List.append_assoc,
    fullBlocks_append_lastBytes]

/-- Where the length field fits behind the 1 bit, the zeros stay in the block (R175). -/
theorem blocks_padZeroed_room {m : List Byte} (hm : m.length % 64 < 56) :
    fullBlocks (padZeroed m) = fullBlocks m ∧
      lastBytes (padZeroed m) = lastBytes m ++ [0x80] ++ List.replicate (padZeros m.length) 0 := by
  rw [padZeroed, List.append_assoc, List.append_assoc]
  apply blocks_append_room
  rw [List.length_append, List.length_singleton, List.length_replicate, padZeros]
  omega

/-- The 1 bit and the zeros that fill the block (R175). -/
def blockFill (m : List Byte) : List Byte := [0x80] ++ List.replicate (63 - m.length % 64) 0

theorem length_blockFill (m : List Byte) : m.length % 64 + (blockFill m).length = 64 := by
  rw [blockFill, List.length_append, List.length_singleton, List.length_replicate]
  omega

/-- Where the length field does not fit, the zeros fill the block and 56 bytes of the next one (R175). -/
theorem blocks_padZeroed_fills {m : List Byte} (hm : 56 ≤ m.length % 64) :
    fullBlocks (padZeroed m) = m ++ blockFill m ∧ lastBytes (padZeroed m) = List.replicate 56 0 := by
  have hz : padZeros m.length = (63 - m.length % 64) + 56 := by unfold padZeros; omega
  have hsplit : padZeroed m = (m ++ blockFill m) ++ List.replicate 56 0 := by
    rw [padZeroed, hz, List.replicate_add, blockFill]
    simp only [List.append_assoc]
  have hpart : 64 * ((padZeroed m).length / 64) = (m ++ blockFill m).length := by
    have hfill := length_blockFill m
    rw [length_padZeroed, List.length_append]
    omega
  rw [fullBlocks, lastBytes, hpart, hsplit]
  exact ⟨List.take_left, List.drop_left⟩

/-- The 1 bit and the zeros in the block buffer (R175). -/
theorem padBlock_chained {h : Hash} {m : List Byte} {s : State} (hs : Chained h m s) :
    (padBlock s).hash = chain h (fullBlocks (padZeroed m)) ∧ (padBlock s).w = blockOf (lastBytes (padZeroed m)) := by
  have hw := putByte_w_of_chained hs 0x80
  have hbcnt : (putByte 0x80 s).bcnt.toNat = m.length % 64 + 1 := by
    have hs := hs.bcnt
    rw [putByte_bcnt]
    bv_omega
  simp only [padBlock, hbcnt]
  obtain hm | hm := lt_or_ge (m.length % 64) 56
  · obtain ⟨hfull, hlast⟩ := blocks_padZeroed_room hm
    rw [if_neg (by omega), hfull, hlast, blockOf_append_zeros, hw, putByte_hash, hs.hash]
    exact ⟨rfl, rfl⟩
  · obtain ⟨hfull, hlast⟩ := blocks_padZeroed_fills hm
    have hblock : blockOf (lastBytes m ++ blockFill m) = (putByte 0x80 s).w := by
      rw [hw, blockFill, ← List.append_assoc, blockOf_append_zeros]
    rw [if_pos (by omega), hfull, hlast, chain_append_fills h (length_blockFill m), hblock, ← hs.hash, clearBlock_hash,
      clearBlock_w, compress_hash, blockWords, putByte_hash]
    exact ⟨rfl, (blockOf_append_zeros [] 56).symm⟩

/-- The compression of the last block of a stream leaves the chain of its padding (R174, R175). -/
theorem lastBlock_hash_of_chained {h : Hash} {m : List Byte} {s : State} (hs : Chained h m s) (l : BitVec 64) :
    (lastBlock l s).hash = chain h (pad m l) := by
  obtain ⟨hhash, hw⟩ := padBlock_chained hs
  have hlen := length_padZeroed m
  rw [pad_eq, chain_append_fills h (by rw [length_lengthBytes]; omega),
    blockOf_append_lengthBytes (by rw [length_lastBytes]; omega), ← hw, ← hhash, lastBlock, compress_hash, blockWords,
    putLength_w, putLength_hash]

/-- `finalize(L)` of a stream: the digest bytes and the state it leaves (R175, R176). -/
theorem finalize_of_chained {h : Hash} {m : List Byte} {s : State} (hs : Chained h m s) (l : BitVec 64) :
    finalize l s =
      ((chain h (pad m l)).bytes,
       { s with hash := chain h (pad m l), saved := (lastBlock l s).saved, w := noWords, bcnt := 0 }) := by
  have hstate : clearBlock (lastBlock l s) =
      { s with hash := (lastBlock l s).hash, saved := (lastBlock l s).saved, w := noWords, bcnt := 0 } := by
    apply State.ext <;> simp [noWords]
  rw [← lastBlock_hash_of_chained hs, ← hstate]
  rfl

/-! ## The block buffer of a state of the invariant -/

/-- W holds the bytes of the current block and zeros behind them (R143). -/
theorem w_eq_blockOf_blockBytes {s : State} (hs : StreamInv s) : s.w = blockOf (blockBytes s) := by
  ext1 i hi
  have hget : ∀ j < 4, ((blockBytes s).drop (4 * i)).getD j 0 = lane s.w[i] j := by
    intro j hj
    have hbyte : blockByte s.w (4 * i + j) = lane s.w[i] j := by
      rw [blockByte, show (4 * i + j) / 4 = i by omega, show (4 * i + j) % 4 = j by omega, wordAt,
        Vector.getElem?_eq_getElem hi]
      rfl
    rw [← hbyte, blockBytes, List.getD_eq_getElem?_getD, List.getElem?_drop]
    obtain hlt | hge := lt_or_ge (4 * i + j) s.bcnt.toNat
    · simp [hlt]
    · rw [hs.block_tail ⟨4 * i + j, by omega⟩ hge, List.getElem?_eq_none (by simpa using hge), Option.getD_none]
  simp (disch := decide) only [getElem_blockOf, dataWord, hget, wordLe_lanes]

/-- A state of the invariant is in a stream from its own chaining value on (R143). -/
theorem chained_blockBytes {s : State} (hs : StreamInv s) : Chained s.hash (blockBytes s) s := by
  have hlen : (blockBytes s).length = s.bcnt.toNat := by rw [blockBytes, List.length_map, List.length_range]
  have hbcnt := hs.bcnt_lt
  have hdiv : (blockBytes s).length / 64 = 0 := by omega
  refine ⟨?_, ?_, by omega⟩
  · rw [fullBlocks, hdiv, Nat.mul_zero, List.take_zero, chain_nil]
  · rw [lastBytes, hdiv]
    exact w_eq_blockOf_blockBytes hs

end Sys2Proof.Proofs
end

section
/-!
SUPPORT. Proofs about the compression (42_md5_engine.md R162 to R171): the round functions, the step tables, the step and
the 64 steps of a block.
-/

namespace Sys2Proof.Proofs

open Sys2Proof.Machine Sys2Proof.Claims

/-! ## Rounds and tables -/

/-- Settles O26: in FF and GG one bit selects which of the two others is seen. -/
theorem roundFunctionsBitwise : Obligations.RoundFunctionsBitwise := by
  intro b c d k hk
  have hnot (x : Word) : (~~~x).getLsbD k = !x.getLsbD k := by simp [hk]
  refine ⟨?_, ?_, ?_, ?_⟩
  · rw [ff, BitVec.getLsbD_or, BitVec.getLsbD_and, BitVec.getLsbD_and, hnot]
    cases b.getLsbD k <;> simp
  · rw [gg, BitVec.getLsbD_or, BitVec.getLsbD_and, BitVec.getLsbD_and, hnot]
    cases d.getLsbD k <;> simp
  · rw [hh, BitVec.getLsbD_xor, BitVec.getLsbD_xor]
  · rw [ii, BitVec.getLsbD_xor, BitVec.getLsbD_or, hnot]

/-- The message-word index of every step (R167). -/
theorem kOf_eq (n : BitVec 6) :
    kOf n =
      if n.toNat < 16 then n.toNat
      else if n.toNat < 32 then (1 + 5 * (n.toNat - 16)) % 16
      else if n.toNat < 48 then (5 + 3 * (n.toNat - 32)) % 16
      else 7 * (n.toNat - 48) % 16 := by
  revert n
  decide +kernel

/-- Every rotation amount is in 4..23 (R168). -/
theorem sOf_bounds (n : BitVec 6) : 4 ≤ sOf n ∧ sOf n ≤ 23 := by
  revert n
  decide +kernel

/-- Settles O27: the tables have 64 rows, and those of s and T are the printed ones. -/
theorem stepTablesFollowFormulas : Obligations.StepTablesFollowFormulas := fun n =>
  ⟨kOf_eq n, rfl, (sOf_bounds n).1, (sOf_bounds n).2, rfl⟩

/-! ## The step -/

/-- `rotl32` is the rotation of bit vectors where R8 defines it. -/
theorem rotl32_eq_rotateLeft (v : Word) {k : Nat} (hk : k < 32) : rotl32 v k = v.rotateLeft k := by
  rw [BitVec.rotateLeft_def, Nat.mod_eq_of_lt hk]
  rfl

/-- The round of a step number is its quotient by 16 (R101). -/
theorem roundOf_eq_iff (n : BitVec 6) (r : BitVec 2) : roundOf n = r ↔ n.toNat / 16 = r.toNat := by
  have hn := n.isLt
  rw [← BitVec.toNat_inj, roundOf, BitVec.extractLsb'_toNat, Nat.shiftRight_eq_div_pow]
  omega

/-- The function of a step is that of its round (R101, R162). -/
theorem roundFn_eq (n : BitVec 6) :
    roundFn n =
      if n.toNat / 16 = 0 then ff else if n.toNat / 16 = 1 then gg else if n.toNat / 16 = 2 then hh else ii := by
  have h0 : roundOf n = 0 ↔ n.toNat / 16 = 0 := roundOf_eq_iff n 0
  have h1 : roundOf n = 1 ↔ n.toNat / 16 = 1 := roundOf_eq_iff n 1
  have h2 : roundOf n = 2 ↔ n.toNat / 16 = 2 := roundOf_eq_iff n 2
  simp only [roundFn, decodeSeq, h0, h1, h2]
  split_ifs <;> rfl

/-- Settles O28: a step is `stepWith` the function of its round, and its amount is one that `rotl32` is defined for. -/
theorem stepFunctionOfEveryStep : Obligations.StepFunctionOfEveryStep := by
  intro n x h f
  have hf : roundFn n h.b h.c h.d = f := by
    rw [roundFn_eq]
    simp only [f]
    split_ifs <;> rfl
  have hs := (sOf_bounds n).2
  rw [stepHash, stepWith, hf, rotl32_eq_rotateLeft _ (by omega)]

/-! ## The 64 steps -/

theorem stepsFrom0_eq_foldl (n : Nat) (x : Vector Word 16) (h : Hash) :
    stepsFrom0 n x h = (List.range n).foldl (fun y i => stepHash (BitVec.ofNat 6 i) x y) h := by
  induction n with
  | zero => rfl
  | succ n ih => rw [stepsFrom0, ih, List.range_succ, List.foldl_concat]

/-- Settles O29, by the recursion on the number of steps. -/
theorem compressionIs64StepsAndFold : Obligations.CompressionIs64StepsAndFold := by
  refine ⟨fun x h => ?_, fun src s => rfl⟩
  rw [compressHash, addHash, stepsFrom0_eq_foldl, ← List.map_coe_finRange_eq_range, List.foldl_map]

end Sys2Proof.Proofs
end

section
/-!
SUPPORT. Proofs about the commands of the MD5 engine (42_md5_engine.md R176 to R181): MD5_INIT, MD5_FINAL, SELFTEST, the
digest registers and a whole session.
-/

namespace Sys2Proof.Proofs

open Sys2Proof.Machine Sys2Proof.Claims

/-! ## MD5_INIT and MD5_FINAL -/

/-- What a session starts from, field by field (R177, R203). -/
theorem startSession_eq (s : State) :
    startSession s =
      { s with
        hash := iv, w := noWords, bcnt := 0, mlen := 0, kbuf := noKey
        status := { s.status with khash := false } } := by
  apply State.ext <;> simp [iv, Hash.iv, noWords, noKey]

/-- Settles O18: MD5_INIT is valid in every mode, and its effect is the start of a session. -/
theorem md5InitOpensSession : Obligations.Md5InitOpensSession := by
  refine ⟨cmdLaw_of_opValid (by decide) (by decide) (by decide) fun _ => rfl, fun s ht => ?_⟩
  rw [exec_md5Init_engine ht, complete_eq_finished, md5Init, startSession_eq, setMode]

/-- The digest of a stream is the chain of its padding (R175, R178). -/
theorem writeDigest_of_chained {h : Hash} {m : List Byte} {s : State} (hs : Chained h m s) :
    writeDigest s =
      { s with
        hash := chain h (pad m s.mlen), saved := (lastBlock s.mlen s).saved, w := noWords, bcnt := 0
        digest := toBytes 16 (chain h (pad m s.mlen)).bytes
        status := { s.status with dvalid := true } } := by
  rw [writeDigest, finalize_of_chained hs]
  rfl

/-- Settles O23: the block buffer holds the last bytes of the stream, and MD5_FINAL chains their padding. -/
theorem md5FinalWritesDigest : Obligations.Md5FinalWritesDigest := by
  refine ⟨cmdLaw_of_opValid (by decide) (by decide) (by decide) fun _ => rfl,
    fun s ht hs => ⟨(lastBlock s.mlen s).saved, ?_⟩⟩
  rw [exec_md5Final_engine ht, md5Final_eq, writeDigest_of_chained (chained_blockBytes hs)]
  rfl

/-! ## SELFTEST -/

/-- The stream of SELFTEST before its padding (R179). -/
def selftestStream (s : State) : State := md5AppendAll selftestMessage (startSession s)

theorem selftest_eq (s : State) :
    selftest s = setSelftest ((finalize (selftestStream s).mlen (selftestStream s)).1 == selftestDigest)
      (writeDigest (selftestStream s)) := rfl

theorem selftestStream_chained (s : State) : Chained iv selftestMessage (selftestStream s) :=
  md5AppendAll_chained (s := startSession s) (chained_nil rfl rfl rfl) selftestMessage

theorem selftestStream_mlen (s : State) : (selftestStream s).mlen = 24 := by
  rw [selftestStream, md5AppendAll_mlen, startSession_mlen]
  rfl

/-- The registers after "abc" (V2). -/
theorem chain_selftestMessage :
    chain iv (pad selftestMessage 24) = ⟨0x98500190, 0xB04FD23C, 0x7D3F96D6, 0x727FE128⟩ := by
  decide +kernel

/-- The bytes of these registers are the known digest (R176, R179). -/
theorem bytes_selftestRegisters :
    Hash.bytes ⟨0x98500190, 0xB04FD23C, 0x7D3F96D6, 0x727FE128⟩ = selftestDigest := by
  decide

/-- Settles O24: the session starts afresh, so the registers end in the ones of "abc" whatever the state before. -/
theorem selftestPasses : Obligations.SelftestPasses := by
  refine ⟨cmdLaw_of_opValid (by decide) (by decide) (by decide) fun _ => rfl,
    fun s ht => ⟨(lastBlock 24 (selftestStream s)).saved, ?_⟩⟩
  have hs := selftestStream_chained s
  have hdigest : toBytes 16 selftestDigest =
      #v[0x90, 0x01, 0x50, 0x98, 0x3c, 0xd2, 0x4f, 0xb0, 0xd6, 0x96, 0x3f, 0x7d, 0x28, 0xe1, 0x7f, 0x72] := by decide
  rw [exec_selftest_engine ht, complete_eq_finished, selftest_eq, finalize_of_chained hs, writeDigest_of_chained hs,
    selftestStream_mlen, chain_selftestMessage, bytes_selftestRegisters, beq_self_eq_true, hdigest]
  refine congrArg (fun t : State => Host.Outcome.next (finished t)) ?_
  apply State.ext <;> simp [selftestStream, noKey]

/-! ## The digest registers -/

theorem toList_toBytes {n : Nat} {o : List Byte} (ho : o.length = n) : (toBytes n o).toList = o := by
  subst ho
  rw [toBytes, Vector.toList_ofFn]
  exact List.ext_getElem List.length_ofFn fun i _ hi => by rw [List.getElem_ofFn, List.getD_eq_getElem _ _ hi]

theorem byteAt_toBytes {n i : Nat} (hi : i < n) (o : List Byte) : byteAt (toBytes n o) i = o.getD i 0 := by
  rw [byteAt, Vector.getElem?_eq_getElem hi, toBytes, Vector.getElem_ofFn]
  rfl

/-- Four bytes of a byte array as a word (R70). -/
theorem wordView_toBytes {n j : Nat} (hj : 4 * j + 3 < n) (o : List Byte) :
    wordView (toBytes n o) j = dataWord (o.drop (4 * j)) := by
  simp (disch := omega) [wordView, dataWord, byteAt_toBytes]

theorem length_bytes (h : Hash) : h.bytes.length = 16 := rfl

/-- DIGEST holds the bytes of A, B, C, D (R176). -/
def HoldsDigest (s : State) : Prop := s.digest = toBytes 16 s.hash.bytes

theorem writeDigest_holdsDigest (s : State) : HoldsDigest (writeDigest s) := by
  simp [HoldsDigest, writeDigest, finalize]

theorem exec_holdsDigest {i : Instr} (hi : i = .md5Final ∨ i = .hmacFinal ∨ i = .selftest) {s : State}
    (ht : s.turn = .engine) : ∃ t : State, exec i s = .next t ∧ HoldsDigest t := by
  obtain rfl | rfl | rfl := hi
  · refine ⟨_, exec_md5Final_engine ht, ?_⟩
    simpa [HoldsDigest, md5Final_eq] using writeDigest_holdsDigest s
  · refine ⟨_, exec_hmacFinal_engine ht, ?_⟩
    simpa [HoldsDigest, hmacFinal_eq] using writeDigest_holdsDigest (outerStream s)
  · refine ⟨_, exec_selftest_engine ht, ?_⟩
    simpa [HoldsDigest, selftest_eq] using writeDigest_holdsDigest (selftestStream s)

/-- Settles O25: each of the three commands ends with the digest of its stream written, and each register of the hash is
the little-endian word of its four bytes. -/
theorem digestRegistersEqualHash : Obligations.DigestRegistersEqualHash := by
  intro i s ht hi
  obtain ⟨t, hexec, hdigest⟩ := exec_holdsDigest hi ht
  have hread (j : Fin 4) : readReg (.digest j) t = dataWord (t.hash.bytes.drop (4 * j.val)) := by
    rw [readReg, hdigest, wordView_toBytes (by omega)]
  refine ⟨t, hexec, ?_, ?_, ?_, ?_, ?_⟩
  · rw [hdigest, toList_toBytes (length_bytes t.hash)]
    simp [Hash.bytes, unpack]
  · exact (hread 0).trans (dataWord_bytesLe_append t.hash.a _)
  · exact (hread 1).trans (dataWord_bytesLe_append t.hash.b _)
  · exact (hread 2).trans (dataWord_bytesLe_append t.hash.c _)
  · exact (hread 3).trans (dataWord_bytesLe_append t.hash.d [])

/-! ## An MD5 session -/

/-- The length in MLEN is the bit length of the stream (R33, R174). -/
theorem mlen_eq_bitLength {h : Hash} {m : List Byte} {s : State} (hs : Streaming h m s) : s.mlen = bitLength m := by
  apply BitVec.eq_of_toNat_eq
  have hlt := s.mlen.isLt
  rw [bitLength, BitVec.toNat_ofNat, ← hs.mlen, Nat.mod_eq_of_lt hlt]

/-- MD5_FINAL ends a session with the digest of its stream (R178, R180). -/
theorem run_md5Final {m : List Byte} {s : State} (hs : Streaming iv m s) (hmode : s.status.mode = .md5) :
    ∃ t : State, run (command .md5Final) s = some t ∧ t.digest = toBytes 16 (md5 m) ∧ t.status.dvalid = true ∧
      t.status.mode = .none ∧ t.mlen = s.mlen ∧ Ready t ∧ sameErrors s t := by
  have hrej : rejection .md5Final s = none := by simp [rejection, validInMode, operandRejection, hmode]
  have hbits := mlen_eq_bitLength hs
  obtain ⟨⟨hr, hb, hblock⟩, -, ⟨hhash, hw, hbcnt⟩, -⟩ := hs
  refine ⟨_, run_command rfl ⟨hr, hb, hblock⟩ hrej, ?_⟩
  have hrun : Chained iv m { accepted (cmdWord .md5Final) s with turn := .engine } := ⟨hhash, hw, hbcnt⟩
  rw [commandEffect, md5Final_eq, writeDigest_of_chained hrun]
  refine ⟨?_, rfl, rfl, rfl, ⟨hr, rfl, hblock⟩, rfl, rfl, rfl⟩
  rw [md5, ← hbits]
  rfl

/-- Settles O45: the pushes stream the message, and MD5_FINAL digests the stream. -/
theorem md5SessionComputesMd5 : Obligations.Md5SessionComputesMd5 := by
  intro s gs hs hgs hlen
  obtain ⟨u, hinit, hu, hmode, herr⟩ := run_md5Init hs
  obtain ⟨v, hpush, hv, hframe⟩ := run_pushGroups hgs hu hlen
  obtain ⟨t, hfinal, hdigest, hdvalid, hnone, hmlen, hready, herr'⟩ := run_md5Final hv (hframe.mode.trans hmode)
  refine ⟨t, ?_, ?_, hdvalid, hnone, ?_, hready, sameErrors_trans (sameErrors_trans herr hframe.sameErrors) herr'⟩
  · rw [md5Session, run_append, run_append, hinit, Option.bind_some, hpush]
    exact hfinal
  · rw [hdigest, List.nil_append, md5, toList_toBytes (length_bytes _)]
  · rw [hmlen, hv.mlen]
    rfl

end Sys2Proof.Proofs
end

section
/-!
SUPPORT. Proofs about the commands of the HMAC sequencer (43_hmac.md R200 to R208): HMAC_KEY_INIT, HMAC_START and
HMAC_FINAL.
-/

namespace Sys2Proof.Proofs

open Sys2Proof.Machine Sys2Proof.Claims

/-! ## HMAC_KEY_INIT -/

/-- Settles O34: HMAC_KEY_INIT is valid in every mode, and its effect is the start of a session. -/
theorem hmacKeyInitOpensKeySession : Obligations.HmacKeyInitOpensKeySession := by
  refine ⟨cmdLaw_of_opValid (by decide) (by decide) (by decide) fun _ => rfl, fun s ht => ?_⟩
  rw [exec_hmacKeyInit_engine ht, complete_eq_finished, hmacKeyInit, startSession_eq, setMode]

/-! ## The pad blocks -/

/-- A register of a byte array is the word of its four bytes (R70). -/
theorem wordView_eq_dataWord {n : Nat} (v : Vector Byte n) (j : Nat) :
    wordView v j = dataWord (v.toList.drop (4 * j)) := by
  simp [wordView, dataWord, byteAt]

/-- The hardware's packing of a 64-byte block is the packing of its bytes (R68, R140). -/
theorem packBlock_eq_blockOf (k : Vector Byte 64) : packBlock k = blockOf k.toList := by
  ext1 i hi
  rw [getElem_blockOf, packBlock, Vector.getElem_ofFn, wordView_eq_dataWord]

/-- The block compressed for a pad is the padded key with every byte XOR-ed (R200, R202). -/
theorem packBlock_xorEach (k : Vector Byte 64) (c : Byte) :
    packBlock (xorEach k c) = blockOf (k.toList.map (· ^^^ c)) := by
  rw [packBlock_eq_blockOf, xorEach, Vector.toList_map]

/-- A compressed block and an empty block buffer are a stream of that block. -/
theorem chained_block {h : Hash} {q : List Byte} (hq : q.length = 64) {s : State}
    (hhash : s.hash = compressHash (blockOf q) h) (hw : s.w = noWords) (hbcnt : s.bcnt = 0) : Chained h q s where
  hash := by rw [hhash, fullBlocks, hq, List.take_of_length_le hq.le, chain_block hq]
  w := by
    rw [hw, lastBytes, hq, List.drop_of_length_le hq.le, blockOf_nil]
    rfl
  bcnt := by
    rw [hbcnt, hq]
    rfl

/-- A stream that begins with a pad block: the common part of HMAC_START and HMAC_FINAL (R206, R208). -/
def padStream (src : BlockSrc) (s : State) : State := setMlen 512 (clearBlock (compress src (loadIv s)))

theorem padStream_eq (src : BlockSrc) (s : State) :
    padStream src s =
      { s with hash := compressHash (blockWords src s) iv, saved := iv, w := noWords, bcnt := 0, mlen := 512 } := by
  have hwords : blockWords src (loadIv s) = blockWords src s := by cases src <;> rfl
  apply State.ext <;> simp [padStream, hwords, iv, Hash.iv, noWords]

/-! ## HMAC_START -/

/-- The key normalisation writes the key buffer, and uses the hash and the block buffer (R206). -/
theorem normaliseKey_frame (s : State) :
    normaliseKey s =
      { s with
        kbuf := (normaliseKey s).kbuf, hash := (normaliseKey s).hash, saved := (normaliseKey s).saved
        w := (normaliseKey s).w, bcnt := (normaliseKey s).bcnt } := by
  unfold normaliseKey
  split_ifs
  · apply State.ext <;> simp [finalize]
  · rfl

/-- A key of at most 64 bytes is the padded key already (R206). -/
theorem normaliseKey_unhashed {s : State} (hk : s.status.khash = false) : normaliseKey s = s := by
  simp [normaliseKey, hk]

/-- A hashed key is replaced by its digest (R206). -/
theorem normaliseKey_kbuf {h : Hash} {m : List Byte} {s : State} (hs : Chained h m s) :
    (normaliseKey s).kbuf = if s.status.khash then toBytes 64 (chain h (pad m s.mlen)).bytes else s.kbuf := by
  unfold normaliseKey
  split_ifs
  · rw [finalize_of_chained hs]
    rfl
  · rfl

/-- HMAC_START field by field: it compresses the ipad block of the normalised key (R206). -/
theorem hmacStart_eq (s : State) :
    hmacStart s =
      { s with
        kbuf := (normaliseKey s).kbuf
        hash := compressHash (blockOf ((normaliseKey s).kbuf.toList.map (· ^^^ 0x36))) iv, saved := iv
        w := noWords, bcnt := 0, mlen := 512
        status := { s.status with khash := false, mode := .hmsg } } := by
  have hstart : hmacStart s = setMode .hmsg (setKhash false (padStream .ipad (normaliseKey s))) := rfl
  rw [hstart, padStream_eq, blockWords, packBlock_xorEach]
  conv_lhs => rw [normaliseKey_frame]
  rfl

/-- Settles O35: the ipad block of the normalised key is compressed from the initial constants, and AA..DD hold these. -/
theorem hmacStartCompressesIpad : Obligations.HmacStartCompressesIpad := by
  refine ⟨cmdLaw_of_opValid (by decide) (by decide) (by decide) fun _ => rfl, fun s ht hs => ⟨iv, ?_⟩⟩
  rw [exec_hmacStart_engine ht, complete_eq_finished, hmacStart_eq, normaliseKey_kbuf (chained_blockBytes hs)]
  rfl

/-! ## HMAC_FINAL -/

theorem outerStream_eq (s : State) :
    outerStream s = md5AppendAll (finalize s.mlen s).1 (padStream .opad (finalize s.mlen s).2) := rfl

theorem outerStream_chained {h : Hash} {m : List Byte} {s : State} (hs : Chained h m s) :
    Chained iv (s.kbuf.toList.map (· ^^^ 0x5C) ++ (chain h (pad m s.mlen)).bytes) (outerStream s) := by
  rw [outerStream_eq, finalize_of_chained hs, padStream_eq]
  refine md5AppendAll_chained (chained_block ?_ ?_ rfl rfl) _
  · rw [List.length_map, Vector.length_toList]
  · rw [blockWords, packBlock_xorEach]

/-- The outer stream is the opad block and the 16 bytes of the inner digest, 640 bits (R208). -/
theorem outerStream_mlen (s : State) : (outerStream s).mlen = 640 := by
  have hlen : (finalize s.mlen s).1.length = 16 := length_bytes _
  rw [outerStream, md5AppendAll_mlen, hlen, setMlen_mlen]
  rfl

/-- The outer stream writes the length, the hash and the block buffer only. -/
theorem outerStream_frame (s : State) :
    outerStream s =
      { s with
        hash := (outerStream s).hash, saved := (outerStream s).saved, w := (outerStream s).w
        bcnt := (outerStream s).bcnt, mlen := (outerStream s).mlen } := by
  rw [outerStream_eq]
  generalize (finalize s.mlen s).1 = inner
  apply State.ext <;> simp [padStream_eq, finalize]

/-- The registers after the outer hash of a key buffer and an inner digest, 640 bits (R200, R208). -/
def outerHash (k : Vector Byte 64) (inner : List Byte) : Hash :=
  chain iv (pad (k.toList.map (· ^^^ 0x5C) ++ inner) 640)

/-- HMAC_FINAL field by field: the digest is the outer one (R208). -/
theorem hmacFinal_of_chained {h : Hash} {m : List Byte} {s : State} (hs : Chained h m s) :
    hmacFinal s =
      { s with
        hash := outerHash s.kbuf (chain h (pad m s.mlen)).bytes, saved := (lastBlock 640 (outerStream s)).saved
        w := noWords, bcnt := 0, mlen := 640, kbuf := noKey
        digest := toBytes 16 (outerHash s.kbuf (chain h (pad m s.mlen)).bytes).bytes
        status := { s.status with dvalid := true, mode := .none } } := by
  rw [hmacFinal_eq, writeDigest_of_chained (outerStream_chained hs), outerStream_mlen, ← outerHash]
  generalize (lastBlock 640 (outerStream s)).saved = aa
  rw [outerStream_frame, outerStream_mlen]
  rfl

/-- Full blocks do not show in the padding (R173). -/
theorem pad_append {q : List Byte} (hq : q.length % 64 = 0) (m : List Byte) (l : BitVec 64) :
    pad (q ++ m) l = q ++ pad m l := by
  have hmod : (q.length + m.length) % 64 = m.length % 64 := by omega
  simp only [pad, padZeros, List.length_append, hmod, List.append_assoc]

/-- Settles O36: the block buffer holds the last bytes of the message, and the outer stream begins with a full block. -/
theorem hmacFinalWritesOuterDigest : Obligations.HmacFinalWritesOuterDigest := by
  refine ⟨cmdLaw_of_opValid (by decide) (by decide) (by decide) fun _ => rfl,
    fun s ht hs => ⟨(lastBlock 640 (outerStream s)).saved, ?_⟩⟩
  have hpads : (s.kbuf.toList.map (· ^^^ 0x5C)).length % 64 = 0 := by rw [List.length_map, Vector.length_toList]
  rw [exec_hmacFinal_engine ht, complete_eq_finished, hmacFinal_of_chained (chained_blockBytes hs), outerHash,
    pad_append hpads]
  rfl

end Sys2Proof.Proofs
end

section
/-!
SUPPORT. Proof that an HMAC session computes HMAC (43_hmac.md R200, R201, R209): the pushes of the key normalise it, and
the inner and the outer stream begin with its pad blocks.
-/

namespace Sys2Proof.Proofs

open Sys2Proof.Machine Sys2Proof.Claims

/-! ## The pushes of a key -/

/-- A key byte is stored, begins the hash of the key, or continues it (R204). -/
theorem keyAppend_cases (b : Byte) (s : State) :
    keyAppend b s = keyStore b s ∨ keyAppend b s = md5Append b (keyHashStart s) ∨ keyAppend b s = md5Append b s := by
  unfold keyAppend
  split_ifs <;> simp

/-- A key byte leaves the `rst` pin and the sequencer alone. -/
theorem keyAppend_frame (b : Byte) (s : State) :
    (keyAppend b s).rst = s.rst ∧ (keyAppend b s).seq = s.seq := by
  obtain h | h | h := keyAppend_cases b s <;> rw [h] <;> simp

/-- Every key byte counts (R204). -/
theorem keyAppend_mlen (b : Byte) (s : State) : (keyAppend b s).mlen = s.mlen + 8 := by
  obtain h | h | h := keyAppend_cases b s <;> rw [h] <;> simp [md5Append_mlen]

/-- The bytes up to the 64th are stored (R204). -/
theorem keyAppend_store {s : State} (hk : s.status.khash = false) (hm : s.mlen.toNat < 512) (b : Byte) :
    keyAppend b s = keyStore b s := if_pos ⟨hk, hm⟩

/-- The 65th byte begins the hash of the key (R204, R205). -/
theorem keyAppend_start {s : State} (hk : s.status.khash = false) (hm : 512 ≤ s.mlen.toNat) (b : Byte) :
    keyAppend b s = md5Append b (keyHashStart s) := by
  rw [keyAppend, if_neg (by omega), if_pos hk]

/-- The bytes after it continue the hash (R204). -/
theorem keyAppend_hash {s : State} (hk : s.status.khash = true) (b : Byte) : keyAppend b s = md5Append b s := by
  simp [keyAppend, hk]

theorem keyHashStart_khash (s : State) : (keyHashStart s).status.khash = true := by simp [keyHashStart]

/-- The hash of the key begins with the 64 bytes of the key buffer (R205). -/
theorem keyHashStart_chained (s : State) : Chained iv s.kbuf.toList (keyHashStart s) := by
  refine chained_block Vector.length_toList ?_ ?_ ?_
  · simp [keyHashStart, blockWords, packBlock_eq_blockOf, iv, Hash.iv]
  · rw [keyHashStart, clearBlock_w, noWords]
  · rw [keyHashStart, clearBlock_bcnt]

/-- MODE is KEY and the key so far is `k` (R204, R205): up to 64 bytes stand in the key buffer, more go through the
block buffer. -/
structure Keyed (k : List Byte) (s : State) : Prop where
  mode : s.status.mode = .key
  mlen : s.mlen = bitLength k
  khash : s.status.khash = decide (64 < k.length)
  kbuf : k.length ≤ 64 → s.kbuf = toBytes 64 k
  chained : 64 < k.length → Chained iv k s

theorem bitLength_concat (m : List Byte) (b : Byte) : bitLength (m ++ [b]) = bitLength m + 8 := by
  rw [bitLength, List.length_append, Nat.mul_add, BitVec.ofNat_add]
  rfl

theorem toNat_bitLength {m : List Byte} (h : m.length ≤ 2 ^ 61 - 1) : (bitLength m).toNat = 8 * m.length := by
  rw [bitLength, BitVec.toNat_ofNat]
  omega

/-- Storing the next byte of a sequence (R204). -/
theorem toBytes_concat (n : Nat) (m : List Byte) (b : Byte) :
    toBytes n (m ++ [b]) = (toBytes n m).setIfInBounds m.length b := by
  ext1 i hi
  rw [Vector.getElem_setIfInBounds, toBytes, toBytes, Vector.getElem_ofFn, Vector.getElem_ofFn]
  obtain hlt | rfl | hgt := Nat.lt_trichotomy i m.length
  · rw [if_neg hlt.ne', List.getD_append _ _ _ _ hlt]
  · simp
  · rw [if_neg hgt.ne, List.getD_eq_default m 0 hgt.le, List.getD_eq_default _ 0 (by simpa using hgt)]

/-- A pushed key byte joins the key (R204, R205). -/
theorem keyAppend_keyed {k : List Byte} {s : State} (hs : Keyed k s) (b : Byte) : Keyed (k ++ [b]) (keyAppend b s) := by
  obtain ⟨hmode, hmlen, hkhash, hkbuf, hchained⟩ := hs
  have hlen : (k ++ [b]).length = k.length + 1 := List.length_append
  have hbits (h : k.length ≤ 64) : s.mlen.toNat = 8 * k.length := by rw [hmlen, toNat_bitLength (by omega)]
  have hunhashed (h : k.length ≤ 64) : s.status.khash = false := by rw [hkhash, decide_eq_false (by omega)]
  have hmode' : (keyAppend b s).status.mode = .key := by rw [keyAppend_status, hmode]
  have hmlen' : (keyAppend b s).mlen = bitLength (k ++ [b]) := by rw [keyAppend_mlen, hmlen, bitLength_concat]
  obtain hshort | hfull | hlong : k.length < 64 ∨ k.length = 64 ∨ 64 < k.length := by omega
  · have hm := hbits hshort.le
    have hk := hunhashed hshort.le
    rw [keyAppend_store hk (by omega)] at hmode' hmlen' ⊢
    refine ⟨hmode', hmlen', ?_, fun _ => ?_, fun h => by omega⟩
    · rw [keyStore_status, hk, decide_eq_false (by omega)]
    · rw [keyStore_kbuf, hkbuf hshort.le, hm, Nat.mul_div_cancel_left _ (by decide), toBytes_concat]
  · have hm := hbits hfull.le
    rw [keyAppend_start (hunhashed hfull.le) (by omega)] at hmode' hmlen' ⊢
    refine ⟨hmode', hmlen', ?_, fun h => by omega, fun _ => md5Append_chained ?_ b⟩
    · rw [md5Append_status, keyHashStart_khash, decide_eq_true (by omega)]
    · have hkey : s.kbuf.toList = k := by rw [hkbuf hfull.le, toList_toBytes hfull]
      exact hkey ▸ keyHashStart_chained s
  · have hk : s.status.khash = true := by rw [hkhash, decide_eq_true hlong]
    rw [keyAppend_hash hk] at hmode' hmlen' ⊢
    refine ⟨hmode', hmlen', ?_, fun h => by omega, fun _ => md5Append_chained (hchained hlong) b⟩
    rw [md5Append_status, hk, decide_eq_true (by omega)]

/-- In MODE KEY the pushed bytes join the key, and the `rst` pin and the sequencer stay (R144). -/
theorem pushAll_keyed {k : List Byte} {s : State} (hs : Keyed k s) (bs : List Byte) :
    Keyed (k ++ bs) (pushAll bs s) ∧ (pushAll bs s).rst = s.rst ∧ (pushAll bs s).seq = s.seq := by
  induction bs generalizing k s with
  | nil => exact ⟨by rwa [List.append_nil], rfl, rfl⟩
  | cons b bs ih =>
    obtain ⟨hrst, hseq⟩ := keyAppend_frame b s
    rw [List.append_cons, pushAll_cons, pushByte_key hs.mode, ← hrst, ← hseq]
    exact ih (keyAppend_keyed hs b)

/-! ## The commands of a session -/

/-- MDE is idle in a session whose key so far is `k`. -/
structure Keying (k : List Byte) (s : State) : Prop where
  ready : Ready s
  keyed : Keyed k s

/-- What accesses, acceptance and completion change besides a command's effect is no part of the key. -/
theorem Keyed.frame {k : List Byte} {s : State} (hs : Keyed k s) (b d : Bool) (q : Seq) (x : Word) (tn : Turn) :
    Keyed k { s with status := { s.status with busy := b, done := d }, seq := q, dataIn := x, turn := tn } := by
  obtain ⟨hmode, hmlen, hkhash, hkbuf, hchained⟩ := hs
  refine ⟨hmode, hmlen, hkhash, hkbuf, fun hlong => ?_⟩
  obtain ⟨hhash, hw, hbcnt⟩ := hchained hlong
  exact ⟨hhash, hw, hbcnt⟩

/-- The completion of an accepted command keeps the error fields (R26). -/
theorem complete_sameErrors (i : Instr) (v : Word) (s : State) :
    sameErrors s (complete (commandEffect i { accepted v s with turn := .engine })) :=
  commandEffect_sameErrors i { accepted v s with turn := .engine }

/-- HMAC_KEY_INIT opens an empty key (R203). -/
theorem run_hmacKeyInit {s : State} (hs : Ready s) :
    ∃ t : State, run (command .hmacKeyInit) s = some t ∧ Keying [] t ∧ sameErrors s t := by
  refine ⟨_, run_command rfl hs rfl, ⟨?_, ?_⟩, complete_sameErrors _ _ s⟩
  · obtain ⟨hr, -, hblock⟩ := hs
    exact ⟨hr, rfl, hblock⟩
  · exact ⟨rfl, rfl, rfl, fun _ => (by decide : noKey = toBytes 64 []), fun h => absurd h (by decide)⟩

/-- A key push that the length bound of R148 allows passes its checks. -/
theorem rejection_keyPush {k g : List Byte} {s : State} (hs : Keyed k s) (hg : 1 ≤ g.length ∧ g.length ≤ 4)
    (hlen : (k ++ g).length ≤ 2 ^ 61 - 1) : rejection (.push (BitVec.ofNat 8 g.length)) s = none := by
  have hvalid : validInMode (.push (BitVec.ofNat 8 g.length)) s.status = true := by simp [validInMode, hs.mode]
  have hbound : ¬ s.mlen.toNat + 8 * g.length > 2 ^ 64 - 8 := by
    rw [List.length_append] at hlen
    rw [hs.mlen, toNat_bitLength (by omega)]
    omega
  rw [rejection, if_pos hvalid, operandRejection, pushRejection, toNat_groupCount hg.2,
    if_neg (not_not.mpr hg), if_neg hbound]

/-- PUSH pushes the bytes the host has put into DATA_IN (R144). -/
theorem push_eq_pushAll {g : List Byte} (hg : g.length ≤ 4) {s : State} (hdata : s.dataIn = dataWord g) :
    push (BitVec.ofNat 8 g.length) s = pushAll g s := by
  rw [push, toNat_groupCount hg, hdata, take_bytesLe_dataWord hg]

/-- Pushing a group of key bytes adds them to the key (R144, R204). -/
theorem run_pushKeyGroup {k g : List Byte} {s : State} (hs : Keying k s) (hg : 1 ≤ g.length ∧ g.length ≤ 4)
    (hlen : (k ++ g).length ≤ 2 ^ 61 - 1) :
    ∃ t : State, run (pushGroup g) s = some t ∧ Keying (k ++ g) t ∧ sameErrors s t := by
  obtain ⟨⟨hr, hb, hblock⟩, hkey⟩ := hs
  have hrej := rejection_keyPush hkey hg hlen
  have hstore : stepOn (writeTo .dataIn (dataWord g)) s = .next { s with dataIn := dataWord g } :=
    stepOn_store hr hb rfl _
  have hpush : push (BitVec.ofNat 8 g.length) (pushRunning g s) = pushAll g (pushRunning g s) :=
    push_eq_pushAll hg.2 rfl
  have hrun : Keyed k (pushRunning g s) := hkey.frame _ _ _ _ _
  obtain ⟨hkeyed, hrst, hseq⟩ := pushAll_keyed hrun g
  refine ⟨complete (pushAll g (pushRunning g s)), ?_, ⟨⟨?_, rfl, ?_⟩, ?_⟩, ?_⟩
  · rw [pushGroup, run_cons_next hstore, run_command (s := { s with dataIn := dataWord g }) rfl ⟨hr, hb, hblock⟩ hrej,
      ← hpush]
    rfl
  · rw [complete_rst, hrst]
    exact hr
  · rw [complete_seq, hseq]
    exact hblock
  · exact hkeyed.frame _ _ _ _ _
  · rw [← hpush]
    exact complete_sameErrors (.push (BitVec.ofNat 8 g.length)) _ { s with dataIn := dataWord g }

/-- Pushing a key in any split adds its bytes to the key (R209). -/
theorem run_pushKeyGroups {ks : List (List Byte)} (hks : ∀ g ∈ ks, 1 ≤ g.length ∧ g.length ≤ 4) {k : List Byte}
    {s : State} (hs : Keying k s) (hlen : (k ++ ks.flatten).length ≤ 2 ^ 61 - 1) :
    ∃ t : State, run (pushGroups ks) s = some t ∧ Keying (k ++ ks.flatten) t ∧ sameErrors s t := by
  induction ks generalizing k s with
  | nil => exact ⟨s, rfl, by rwa [List.flatten_nil, List.append_nil], sameErrors_refl s⟩
  | cons g ks ih =>
    rw [List.forall_mem_cons] at hks
    rw [List.flatten_cons, ← List.append_assoc] at hlen ⊢
    obtain ⟨u, hpush, hu, herr⟩ := run_pushKeyGroup hs hks.1 (by rw [List.length_append] at hlen; omega)
    obtain ⟨t, hrun, ht, herr'⟩ := ih hks.2 hu hlen
    refine ⟨t, ?_, ht, sameErrors_trans herr herr'⟩
    rw [pushGroups, List.flatMap_cons, run_append, hpush]
    exact hrun

/-- A byte sequence in a longer array is padded with zeros. -/
theorem toList_toBytes_of_le {n : Nat} {o : List Byte} (ho : o.length ≤ n) :
    (toBytes n o).toList = o ++ List.replicate (n - o.length) 0 := by
  rw [toBytes, Vector.toList_ofFn]
  refine List.ext_getElem (by simp; omega) fun i _ _ => ?_
  rw [List.getElem_ofFn, List.getElem_append]
  split_ifs with hi
  · exact List.getD_eq_getElem _ _ hi
  · rw [List.getElem_replicate, List.getD_eq_default _ _ (by simpa using hi)]

theorem length_md5 (m : List Byte) : (md5 m).length = 16 := length_bytes _

/-- The key normalisation leaves the padded key in the key buffer (R201, R206). -/
theorem normaliseKey_kpad {k : List Byte} {s : State} (hs : Keyed k s) : (normaliseKey s).kbuf.toList = kpad k := by
  obtain ⟨-, hmlen, hkhash, hkbuf, hchained⟩ := hs
  rw [kpad]
  by_cases hlong : 64 < k.length
  · have hmd5 : (normaliseKey s).kbuf = toBytes 64 (md5 k) := by
      rw [normaliseKey_kbuf (hchained hlong), hkhash, decide_eq_true hlong, if_pos rfl, hmlen]
      rfl
    rw [if_pos hlong, hmd5, toList_toBytes_of_le (by rw [length_md5]; decide)]
  · have hshort : (normaliseKey s).kbuf = toBytes 64 k := by
      rw [normaliseKey_unhashed (by rw [hkhash, decide_eq_false hlong]), hkbuf (by omega)]
    rw [if_neg hlong, hshort, toList_toBytes_of_le (by omega)]

theorem length_kpad (k : List Byte) : (kpad k).length = 64 := by
  have hlen : (if k.length > 64 then md5 k else k).length ≤ 64 := by
    split_ifs with h
    · rw [length_md5]
      decide
    · omega
  rw [kpad, List.length_append, List.length_replicate]
  omega

/-- HMAC_START opens the inner stream, which begins with the ipad block (R206, R207). -/
theorem run_hmacStart {k : List Byte} {s : State} (hs : Keying k s) :
    ∃ t : State, run (command .hmacStart) s = some t ∧ Streaming iv ((kpad k).map (· ^^^ 0x36)) t ∧
      t.status.mode = .hmsg ∧ t.kbuf.toList = kpad k ∧ sameErrors s t := by
  obtain ⟨⟨hr, hb, hblock⟩, hkey⟩ := hs
  have hrej : rejection .hmacStart s = none := by simp [rejection, validInMode, operandRejection, hkey.mode]
  have hrun : Keyed k { accepted (cmdWord .hmacStart) s with turn := .engine } := hkey.frame _ _ _ _ _
  have hkpad := normaliseKey_kpad hrun
  have hlen : ((kpad k).map (· ^^^ 0x36)).length = 64 := by rw [List.length_map, length_kpad]
  refine ⟨_, run_command rfl ⟨hr, hb, hblock⟩ hrej, ?_, ?_, ?_, complete_sameErrors _ _ s⟩
  all_goals rw [commandEffect, hmacStart_eq]
  · refine ⟨⟨hr, rfl, hblock⟩, .inr rfl, chained_block hlen ?_ rfl rfl, ?_⟩
    · rw [← hkpad]
      rfl
    · rw [hlen]
      rfl
  · rfl
  · exact hkpad

/-- HMAC is the outer hash of the padded key and the inner digest (R200). -/
theorem outerHash_bytes {v : Vector Byte 64} {k : List Byte} (hv : v.toList = kpad k) (m : List Byte) :
    (outerHash v (md5 ((kpad k).map (· ^^^ 0x36) ++ m))).bytes = hmac k m := by
  have hbits (inner : List Byte) (h : inner.length = 16) : bitLength ((kpad k).map (· ^^^ 0x5C) ++ inner) = 640 := by
    rw [bitLength, List.length_append, List.length_map, length_kpad, h]
    rfl
  rw [outerHash, hv, ← hbits _ (length_md5 _)]
  rfl

/-- HMAC_FINAL ends a session with the outer digest over the inner one (R208, R209). -/
theorem run_hmacFinal {k m : List Byte} {s : State} (hs : Streaming iv ((kpad k).map (· ^^^ 0x36) ++ m) s)
    (hmode : s.status.mode = .hmsg) (hkbuf : s.kbuf.toList = kpad k) :
    ∃ t : State, run (command .hmacFinal) s = some t ∧ t.digest = toBytes 16 (hmac k m) ∧ t.status.dvalid = true ∧
      t.status.mode = .none ∧ Ready t ∧ sameErrors s t := by
  have hrej : rejection .hmacFinal s = none := by simp [rejection, validInMode, operandRejection, hmode]
  have hbits := mlen_eq_bitLength hs
  obtain ⟨⟨hr, hb, hblock⟩, -, ⟨hhash, hw, hbcnt⟩, -⟩ := hs
  refine ⟨_, run_command rfl ⟨hr, hb, hblock⟩ hrej, ?_⟩
  have hrun : Chained iv ((kpad k).map (· ^^^ 0x36) ++ m) { accepted (cmdWord .hmacFinal) s with turn := .engine } :=
    ⟨hhash, hw, hbcnt⟩
  rw [commandEffect, hmacFinal_of_chained hrun]
  refine ⟨?_, rfl, rfl, ⟨hr, rfl, hblock⟩, rfl, rfl, rfl⟩
  rw [← outerHash_bytes hkbuf, md5, ← hbits]
  rfl

/-- Settles O46: the key pushes normalise the key, the message joins the inner stream behind the ipad block, and HMAC_FINAL
digests both streams. -/
theorem hmacSessionComputesHmac : Obligations.HmacSessionComputesHmac := by
  intro s ks ms hs hks hms hklen hmlen
  obtain ⟨a, hinit, ha, herr₁⟩ := run_hmacKeyInit hs
  obtain ⟨b, hkey, hb, herr₂⟩ := run_pushKeyGroups hks ha (by rw [List.nil_append]; omega)
  obtain ⟨c, hstart, hc, hmode, hkbuf, herr₃⟩ := run_hmacStart hb
  obtain ⟨d, hpush, hd, hframe⟩ := run_pushGroups hms hc (by
    rw [List.length_append, List.length_map, length_kpad]
    omega)
  obtain ⟨t, hfinal, hdigest, hdvalid, hnone, hready, herr₄⟩ :=
    run_hmacFinal hd (hframe.mode.trans hmode) (hframe.kbuf ▸ hkbuf)
  have herr := sameErrors_trans (sameErrors_trans herr₁ herr₂) (sameErrors_trans herr₃ hframe.sameErrors)
  refine ⟨t, ?_, ?_, hdvalid, hnone, hready, sameErrors_trans herr herr₄⟩
  · simp only [hmacSession, run_append, hinit, hkey, hstart, hpush, Option.bind_some]
    exact hfinal
  · rw [hdigest, List.nil_append, hmac, toList_toBytes (length_md5 _)]

end Sys2Proof.Proofs
end

section
/-!
SUPPORT. Numbers and their digits (44_encoder.md R234, R237, R243): the digits of a number in a base, most significant
first, the bytes of a big-endian number, and the symbols that stand for digits.
-/

namespace Sys2Proof.Proofs

open Sys2Proof.Machine Sys2Proof.Claims

/-! ## Digits -/

/-- The least significant digit is the remainder, and the others are the digits of the quotient. -/
theorem map_radixDigit_succ (r l n : Nat) :
    (List.range (l + 1)).map (radixDigit r (l + 1) n) = (List.range l).map (radixDigit r l (n / r)) ++ [n % r] := by
  rw [List.range_succ, List.map_append]
  congr 1
  · refine List.map_congr_left fun p hp => ?_
    have hexp : l + 1 - 1 - p = (l - 1 - p) + 1 := by rw [List.mem_range] at hp; omega
    rw [radixDigit, radixDigit, hexp, Nat.pow_succ', Nat.div_div_eq_div_mul]
  · simp [radixDigit]

/-! ## Bytes of a big-endian number -/

theorem bigEndian_concat (m : List Byte) (b : Byte) : bigEndian (m ++ [b]) = 256 * bigEndian m + b.toNat := by
  simp [bigEndian]

/-- The bytes of a big-endian number are its digits in base 256 (R243). -/
theorem map_toNat_eq_radixDigits (d : List Byte) :
    d.map BitVec.toNat = (List.range d.length).map (radixDigit 256 d.length (bigEndian d)) := by
  induction d using List.reverseRecOn with
  | nil => rfl
  | append_singleton m b ih =>
    have hb := b.isLt
    rw [List.length_append, List.length_singleton, map_radixDigit_succ, bigEndian_concat,
      show (256 * bigEndian m + b.toNat) / 256 = bigEndian m by omega,
      show (256 * bigEndian m + b.toNat) % 256 = b.toNat by omega, ← ih, List.map_append]
    rfl

/-- Byte `i` of a big-endian number. -/
theorem toNat_getD_eq_radixDigit {d : List Byte} {i : Nat} (hi : i < d.length) :
    (d.getD i 0).toNat = radixDigit 256 d.length (bigEndian d) i := by
  have h := congrArg (·[i]?) (map_toNat_eq_radixDigits d)
  simpa [hi] using h

/-! ## Hex digits -/

/-- `hexchar` is the table of R232. -/
theorem hexChar_eq_getD : ∀ (upper : Bool) (v : Nat), v < 16 → hexChar v upper = (hexDigits upper).getD v 0 := by
  decide +kernel

/-- The hex rendering of bytes is the base-16 rendering of their big-endian number (R233, R244). -/
theorem hexOf_eq_radixDigits (upper : Bool) (d : List Byte) :
    hexOf upper d =
      ((List.range (2 * d.length)).map (radixDigit 16 (2 * d.length) (bigEndian d))).map (hexChar · upper) := by
  induction d using List.reverseRecOn with
  | nil => rfl
  | append_singleton m b ih =>
    have hb := b.isLt
    have hhex : hexOf upper (m ++ [b]) = hexOf upper m ++ hexByte upper b := by simp [hexOf]
    rw [List.length_append, List.length_singleton, Nat.mul_add, map_radixDigit_succ, map_radixDigit_succ,
      bigEndian_concat,
      show (256 * bigEndian m + b.toNat) / 16 / 16 = bigEndian m by omega,
      show (256 * bigEndian m + b.toNat) / 16 % 16 = b.toNat / 16 by omega,
      show (256 * bigEndian m + b.toNat) % 16 = b.toNat % 16 by omega, hhex, ih]
    simp [hexByte]

end Sys2Proof.Proofs
end

section
/-!
SUPPORT. Proofs of the base-radix converter (44_encoder.md R238 to R245): a division iteration divides the value of the
limbs, so that the remainders are the digits of the digest.
-/

namespace Sys2Proof.Proofs

open Sys2Proof.Machine Sys2Proof.Claims

/-! ## One division iteration -/

/-- Limb `i`, 0 beyond the last one. -/
def limbAt (e : EncWork) (i : Nat) : Nat := (e.limb[i]?.getD 0).toNat

/-- The value of the first `n` limbs, limb 0 most significant (R238). -/
def limbsBelow : Nat → EncWork → Nat
  | 0, _ => 0
  | n + 1, e => limbsBelow n e * 2 ^ 16 + limbAt e n

theorem limbsBelow_eq_sum (n : Nat) (e : EncWork) :
    limbsBelow n e = ∑ i ∈ Finset.range n, limbAt e i * 2 ^ (16 * (n - 1 - i)) := by
  induction n with
  | zero => rfl
  | succ n ih =>
    have hshift (i : Nat) (hi : i ∈ Finset.range n) :
        limbAt e i * 2 ^ (16 * (n - 1 - i)) * 2 ^ 16 = limbAt e i * 2 ^ (16 * (n + 1 - 1 - i)) := by
      rw [Finset.mem_range] at hi
      rw [Nat.mul_assoc, ← Nat.pow_add, show 16 * (n - 1 - i) + 16 = 16 * (n + 1 - 1 - i) by omega]
    rw [limbsBelow, ih, Finset.sum_range_succ, Finset.sum_mul, Finset.sum_congr rfl hshift]
    simp

theorem limbsValue_eq_limbsBelow (e : EncWork) : limbsValue e = limbsBelow 8 e := by
  have hlimb (i : Fin 8) : e.limb[i].toNat = limbAt e i := by simp [limbAt]
  simp only [limbsValue, hlimb]
  rw [limbsBelow_eq_sum, ← Fin.sum_univ_def, Fin.sum_univ_eq_sum_range (fun i => limbAt e i * 2 ^ (16 * (7 - i)))]

theorem limbsBelow_congr {e f : EncWork} {n : Nat} (h : ∀ i, i < n → limbAt e i = limbAt f i) :
    limbsBelow n e = limbsBelow n f := by
  induction n with
  | zero => rfl
  | succ n ih => rw [limbsBelow, limbsBelow, ih fun i hi => h i (by omega), h n (by omega)]

/-- The first `n` limbs of a division iteration (R239). -/
def divideLimbs (r n : Nat) (e : EncWork) : EncWork :=
  (List.range n).foldl (fun x i => divideLimb r i x) { e with acc := 0 }

theorem divideLimbs_succ (r n : Nat) (e : EncWork) :
    divideLimbs r (n + 1) e = divideLimb r n (divideLimbs r n e) := by
  simp [divideLimbs, List.range_succ]

/-- One limb of long division: the remainder so far and the limb make the dividend, and the quotient fits the limb
(R239). -/
theorem divideLimb_spec {r i : Nat} {e : EncWork} (hr : r ≤ 256) (hi : i < 8) (hacc : e.acc.toNat < r) :
    limbAt (divideLimb r i e) i = (e.acc.toNat * 2 ^ 16 + limbAt e i) / r ∧
    (divideLimb r i e).acc.toNat = (e.acc.toNat * 2 ^ 16 + limbAt e i) % r := by
  have hlimb : limbAt e i < 2 ^ 16 := (e.limb[i]?.getD 0).isLt
  have hdividend : ((e.acc <<< 16) + (e.limb[i]?.getD 0).setWidth 24).toNat = e.acc.toNat * 2 ^ 16 + limbAt e i := by
    unfold limbAt at *
    rw [BitVec.toNat_add, BitVec.toNat_shiftLeft, BitVec.toNat_setWidth, Nat.shiftLeft_eq]
    omega
  have hquot : (e.acc.toNat * 2 ^ 16 + limbAt e i) / r < 2 ^ 16 := by
    rw [Nat.div_lt_iff_lt_mul (by omega)]
    omega
  have hrem : (e.acc.toNat * 2 ^ 16 + limbAt e i) % r < r := Nat.mod_lt _ (by omega)
  constructor
  · rw [limbAt, divideLimb, hdividend, Vector.getElem?_setIfInBounds_self_of_lt hi, Option.getD_some,
      BitVec.toNat_ofNat, Nat.mod_eq_of_lt hquot]
  · rw [divideLimb, hdividend, BitVec.toNat_ofNat]
    exact Nat.mod_eq_of_lt (by omega)

theorem limbAt_divideLimb_other (r : Nat) {i j : Nat} (h : j ≠ i) (e : EncWork) :
    limbAt (divideLimb r i e) j = limbAt e j := by
  simp [limbAt, divideLimb, h.symm]

/-- Long division by the first `n` limbs: quotient and remainder of their value, and the other limbs as they were. -/
theorem divideLimbs_spec {r : Nat} (hr0 : 0 < r) (hr : r ≤ 256) (e : EncWork) {n : Nat} (hn : n ≤ 8) :
    limbsBelow n (divideLimbs r n e) = limbsBelow n e / r ∧ (divideLimbs r n e).acc.toNat = limbsBelow n e % r ∧
    ∀ i, n ≤ i → limbAt (divideLimbs r n e) i = limbAt e i := by
  induction n with
  | zero => simp [limbsBelow, divideLimbs, limbAt]
  | succ n ih =>
    obtain ⟨hquot, hrem, hrest⟩ := ih (by omega)
    obtain ⟨hlimb, hacc⟩ := divideLimb_spec (e := divideLimbs r n e) hr (show n < 8 by omega)
      (hrem ▸ Nat.mod_lt _ hr0)
    have hbelow : limbsBelow n (divideLimb r n (divideLimbs r n e)) = limbsBelow n (divideLimbs r n e) :=
      limbsBelow_congr fun i hi => limbAt_divideLimb_other r (by omega) _
    have hsplit : limbsBelow n e * 2 ^ 16 + limbAt e n =
        (limbsBelow n e % r * 2 ^ 16 + limbAt e n) + r * (limbsBelow n e / r * 2 ^ 16) := by
      conv_lhs => rw [← Nat.mod_add_div (limbsBelow n e) r]
      ring
    rw [divideLimbs_succ, limbsBelow, limbsBelow, hbelow, hquot, hlimb, hacc, hrem, hrest n le_rfl, hsplit,
      Nat.add_mul_div_left _ _ hr0, Nat.add_mul_mod_self_left, Nat.add_comm]
    exact ⟨rfl, rfl, fun i hi => by rw [limbAt_divideLimb_other r (by omega), hrest i (by omega)]⟩

theorem divideLimbs_frame (r n : Nat) (e : EncWork) :
    (divideLimbs r n e).rem = e.rem ∧ (divideLimbs r n e).iter = e.iter := by
  induction n with
  | zero => exact ⟨rfl, rfl⟩
  | succ n ih => rwa [divideLimbs_succ]

theorem divideOnce_eq (r : Nat) (e : EncWork) :
    divideOnce r e =
      { limb := (divideLimbs r 8 e).limb
        acc := (divideLimbs r 8 e).acc
        rem := e.rem.setIfInBounds e.iter.toNat ((divideLimbs r 8 e).acc.setWidth 8)
        iter := e.iter + 1 } := by
  obtain ⟨hrem, hiter⟩ := divideLimbs_frame r 8 e
  rw [← hrem, ← hiter]
  rfl

theorem byteAt_setIfInBounds {n : Nat} (v : Vector Byte n) {i : Nat} (hi : i < n) (b : Byte) (p : Nat) :
    byteAt (v.setIfInBounds i b) p = if p = i then b else byteAt v p := by
  by_cases hp : p = i
  · subst hp
    simp [byteAt, hi]
  · simp [byteAt, hp, Ne.symm hp]

/-- Settles O41: an iteration is a long division, limb by limb. -/
theorem radixIterationDividesByRadix : Obligations.RadixIterationDividesByRadix := by
  intro r e hr0 hr hiter
  obtain ⟨hquot, hrem, -⟩ := divideLimbs_spec (by omega) hr e (le_refl 8)
  simp only [← limbsValue_eq_limbsBelow] at hquot hrem
  have hlt : limbsValue e % r < r := Nat.mod_lt _ (by omega)
  have hbyte := byteAt_setIfInBounds e.rem hiter ((divideLimbs r 8 e).acc.setWidth 8)
  rw [divideOnce_eq]
  refine ⟨hquot, ?_, hrem, fun p hp => (hbyte p).trans (if_neg hp), rfl⟩
  rw [hbyte, if_pos rfl, BitVec.toNat_setWidth, hrem]
  omega

/-! ## The iteration counts -/

/-- A count is the least one if one digit less is not enough. -/
theorem leastDigits_of_pred {r l : Nat} (hr : 0 < r) (h : 2 ^ 128 ≤ r ^ l) (hpred : r ^ (l - 1) < 2 ^ 128) :
    leastDigits r l :=
  ⟨h, fun _ hk => (Nat.pow_le_pow_right hr (by omega)).trans_lt hpred⟩

/-- The table of R241, radix by radix. -/
theorem iterations_table : ∀ r, r < 257 → 2 ≤ r →
    2 ^ 128 ≤ r ^ iterations r ∧ r ^ (iterations r - 1) < 2 ^ 128 ∧ 16 ≤ iterations r ∧ iterations r ≤ 128 := by
  decide +kernel

/-- Settles O42: powers grow with the exponent, so that one power on either side of 2^128 decides each radix. -/
theorem radixIterationCountIsLeast : Obligations.RadixIterationCountIsLeast := by
  intro r hr0 hr
  obtain ⟨hfits, hpred, hbounds⟩ := iterations_table r (by omega) hr0
  exact ⟨leastDigits_of_pred (by omega) hfits hpred, hbounds⟩

/-! ## The remainders are the digits -/

/-- Iteration `k` from now leaves digit `k` of the value, the least significant first, and the remainders before ITER
stay (R242). -/
theorem divideTimes_rem {r : Nat} (hr0 : 2 ≤ r) (hr : r ≤ 256) {l : Nat} {e : EncWork} (hl : e.iter.toNat + l ≤ 128) :
    (∀ k, k < l → (byteAt (divideTimes r l e).rem (e.iter.toNat + k)).toNat = limbsValue e / r ^ k % r) ∧
    ∀ p, p < e.iter.toNat → byteAt (divideTimes r l e).rem p = byteAt e.rem p := by
  induction l generalizing e with
  | zero => exact ⟨fun k hk => absurd hk (Nat.not_lt_zero k), fun _ _ => rfl⟩
  | succ l ih =>
    obtain ⟨hvalue, hrem, -, hother, hiter⟩ := radixIterationDividesByRadix r e hr0 hr (by omega)
    have hnext : (divideOnce r e).iter.toNat = e.iter.toNat + 1 := by
      rw [hiter, BitVec.toNat_add]
      change (e.iter.toNat + 1) % 2 ^ 8 = _
      omega
    obtain ⟨hdigits, hkept⟩ := ih (e := divideOnce r e) (by omega)
    refine ⟨fun k hk => ?_, fun p hp => ?_⟩
    · cases k with
      | zero => rw [divideTimes, hkept _ (by omega), Nat.add_zero, hrem, Nat.pow_zero, Nat.div_one]
      | succ k =>
        rw [divideTimes, show e.iter.toNat + (k + 1) = (divideOnce r e).iter.toNat + k by omega,
          hdigits k (by omega), hvalue, Nat.div_div_eq_div_mul, Nat.pow_succ']
    · rw [divideTimes, hkept p (by omega), hother p (by omega)]

/-- The limbs of a digest hold two bytes each, most significant first (R238). -/
theorem limbsBelow_limbsOf {e : EncWork} {d : Vector Byte 16} (he : e.limb = limbsOf d) {n : Nat} (hn : n ≤ 8) :
    limbsBelow n e = bigEndian (d.toList.take (2 * n)) := by
  induction n with
  | zero => rfl
  | succ n ih =>
    have hbyte (i : Nat) (hi : i < 16) : d.toList.take (i + 1) = d.toList.take i ++ [byteAt d i] := by
      rw [List.take_add_one]
      simp [byteAt, hi]
    have hlimb : limbAt e n = (byteAt d (2 * n)).toNat * 2 ^ 8 + (byteAt d (2 * n + 1)).toNat := by
      have hget : e.limb[n]? = some (limbOf d n) := by simp [he, limbsOf, show n < 8 by omega]
      rw [limbAt, hget, Option.getD_some, limbOf, BitVec.toNat_append,
        ← Nat.shiftLeft_add_eq_or_of_lt (byteAt d (2 * n + 1)).isLt, Nat.shiftLeft_eq]
    rw [limbsBelow, ih (by omega), hlimb, Nat.mul_add_one, hbyte _ (by omega), hbyte _ (by omega),
      bigEndian_concat, bigEndian_concat]
    omega

/-- The work state that ENC_RADIX starts from (R242). -/
def encStart (s : State) : EncWork := { s.enc with limb := limbsOf s.digest, iter := 0 }

/-- It holds the digest in its limbs (R238, R243). -/
theorem limbsValue_encStart (s : State) : limbsValue (encStart s) = digestValue s := by
  rw [limbsValue_eq_limbsBelow, limbsBelow_limbsOf (d := s.digest) rfl le_rfl, List.take_of_length_le (by simp),
    digestValue]

/-- The remainders of ENC_RADIX are the digits of the digest (R242, R243). -/
theorem convert_rem {s : State} (hr0 : 2 ≤ s.alphaLen.toNat) (hr : s.alphaLen.toNat ≤ 256) {k : Nat}
    (hk : k < iterations s.alphaLen.toNat) :
    (byteAt (convert s).enc.rem k).toNat = digestValue s / s.alphaLen.toNat ^ k % s.alphaLen.toNat := by
  obtain ⟨-, -, hl⟩ := radixIterationCountIsLeast _ hr0 hr
  have hiter : (encStart s).iter.toNat = 0 := rfl
  obtain ⟨hdigits, -⟩ := divideTimes_rem hr0 hr (e := encStart s) (hiter.symm ▸ (Nat.zero_add _).trans_le hl)
  have hdigit := hdigits k hk
  rwa [hiter, Nat.zero_add, limbsValue_encStart] at hdigit

/-- ENC_RADIX writes the digits of the digest, most significant first, through the alphabet (R240, R243). -/
theorem radixSymbols_convert {s : State} (hr0 : 2 ≤ s.alphaLen.toNat) (hr : s.alphaLen.toNat ≤ 256) {l : Nat}
    (hl : iterations s.alphaLen.toNat = l) :
    radixSymbols l (convert s) =
      (List.range l).map fun p => s.symbol (radixDigit s.alphaLen.toNat l (digestValue s) p) := by
  refine List.map_congr_left fun p hp => ?_
  rw [List.mem_range] at hp
  rw [State.symbol, convert_alpha, convert_rem hr0 hr (by omega)]
  rfl

/-! ## What an encoder leaves -/

/-- The end of every encoder: OUT, OUT_LEN and OVALID written, and the command completed (R126, R231). -/
theorem complete_setOut (o : List Byte) (s : State) :
    complete (setOut o s) = outWritten (toBytes 128 o) o.length s := rfl

theorem getElem_toBytes {n i : Nat} (hi : i < n) (o : List Byte) : (toBytes n o)[i] = o.getD i 0 := by
  rw [toBytes, Vector.getElem_ofFn]

/-- ENC_RADIX changes OUT, OUT_LEN, OVALID and the work state (R242). -/
theorem exec_encRadix_eq {s : State} (h : s.turn = .engine) :
    exec .encRadix s = .next (outWritten (toBytes 128 (radixSymbols (iterations s.alphaLen.toNat) (convert s)))
      (iterations s.alphaLen.toNat) { s with enc := (convert s).enc }) := by
  have hlen (l : Nat) : (radixSymbols l (convert s)).length = l := by simp [radixSymbols]
  rw [exec_encRadix_engine h, encRadix, complete_setOut, hlen]
  rfl

/-! ## ENC_RADIX -/

/-- The verdict on a word with the opcode of ENC_RADIX (R122, R130, R245). -/
theorem verdict_of_radixOpcode {v : Word} (hv : v.toNat % 2 ^ 8 = 0x09) (s : State) :
    verdict v s =
      if s.status.busy then .reject .busy
      else if v.toNat ≠ 0x09 then .reject .badOp
      else if s.status.dvalid = false then .reject .badSeq
      else if 2 ≤ s.alphaLen.toNat ∧ s.alphaLen.toNat ≤ 256 then .accept
      else .reject .badRadix := by
  have hsoft : v ≠ 0x0000000F := by
    rintro rfl
    exact absurd hv (by decide)
  have hbad := noCommand_iff_ne_opcode (.inl (by decide)) (by decide) hv
  unfold NoCommand at hbad
  rw [hv] at hbad
  simp only [verdict, hv, hbad, hsoft, opValid]
  by_cases hradix : 2 ≤ s.alphaLen.toNat ∧ s.alphaLen.toNat ≤ 256 <;> cases s.status.dvalid <;> simp [hradix]

/-- Settles O39: the remainders of the divisions are the digits of the digest, and the table gives the least count of
them. -/
theorem encRadixWritesRadixDigits : Obligations.EncRadixWritesRadixDigits := by
  refine ⟨fun s v rest hr hin hv => ?_, fun s ht hr0 hr => ?_⟩
  · obtain ⟨tn, hstep⟩ := cmdWriteFollowsCheckOrder s v rest hr hin
    refine ⟨tn, hstep.trans (congrArg _ ?_)⟩
    rw [cmdOutcome, verdict_of_radixOpcode hv]
    split_ifs <;> rfl
  · obtain ⟨hleast, -, hl128⟩ := radixIterationCountIsLeast _ hr0 hr
    refine ⟨_, _, _, hleast, hl128, exec_encRadix_eq ht, fun p => ?_⟩
    rw [Fin.getElem_fin, getElem_toBytes p.isLt, radixSymbols_convert hr0 hr rfl]
    split_ifs with hp
    · rw [List.getD_eq_getElem _ _ (by simpa using hp), List.getElem_map, List.getElem_range]
      rfl
    · exact List.getD_eq_default _ _ (by simpa using hp)

/-- Settles O40: the check of the radix is the last one of the word. -/
theorem badRadixClearsOutput : Obligations.BadRadixClearsOutput := by
  intro s rest hr hin hbusy hdvalid hradix
  obtain ⟨hwords, -⟩ := encRadixWritesRadixDigits
  obtain ⟨tn, hstep⟩ := hwords s _ rest hr hin rfl
  refine ⟨tn, hstep.trans ?_⟩
  simp only [hbusy, hdvalid, if_neg (show ¬ (2 ≤ s.alphaLen.toNat ∧ s.alphaLen.toNat ≤ 256) by omega)]
  rfl

/-! ## Radix 16 -/

/-- With the hex digits as alphabet the base-16 symbols are the hex rendering (R244). -/
theorem radixSymbols_hex {s : State} (hr : s.alphaLen.toNat = 16)
    (hsym : ∀ v : Fin 16, s.symbol v.val = (hexDigits s.cfg.hexUpper).getD v.val 0) :
    radixSymbols 32 (convert s) = hexOf s.cfg.hexUpper s.digest.toList := by
  rw [radixSymbols_convert (by omega) (by omega) (by rw [hr]; decide), hexOf_eq_radixDigits,
    Vector.length_toList, List.map_map, hr]
  refine List.map_congr_left fun p _ => ?_
  have hdigit : radixDigit 16 32 (digestValue s) p < 16 := Nat.mod_lt _ (by decide)
  exact (hsym ⟨_, hdigit⟩).trans (hexChar_eq_getD s.cfg.hexUpper _ hdigit).symm

/-- Settles O43: both renderings are the base-16 digits of the digest through the same table. -/
theorem radixSixteenEqualsHex : Obligations.RadixSixteenEqualsHex := by
  intro s ht hr hsym
  have hl : iterations s.alphaLen.toNat = 32 := by rw [hr]; decide
  have hlen : (hexOf s.cfg.hexUpper s.digest.toList).length = 32 := by simp [hexOf_eq_radixDigits]
  refine ⟨_, _, exec_encRadix_eq ht, exec_encHex_engine ht, ?_, ?_, ?_⟩
  · rw [hl, radixSymbols_hex hr hsym]
    rfl
  · rw [hl]
    rfl
  · rw [encHex, complete_setOut, hlen]
    rfl

end Sys2Proof.Proofs
end

section
/-!
SUPPORT. Proof of ENC_B64 (44_encoder.md R234 to R236): the symbols of a digest are the base-64 digits of its value and
four zero bits.
-/

namespace Sys2Proof.Proofs

open Sys2Proof.Machine Sys2Proof.Claims

/-- The alphabet of R234. -/
theorem b64Char_eq_getD : ∀ v, v < 64 → b64Char v = b64Alphabet.getD v 0 := by decide +kernel

/-- The six bits at position `p` of the symbols (R235). -/
def b64Digit (d : List Byte) (p : Nat) : Nat := b64Group d (3 * (p / 4)) / 2 ^ (6 * (3 - p % 4)) % 64

/-- Sixteen bytes are 22 symbols and, with PAD_EN, two pads (R236). -/
theorem b64_of_length {d : List Byte} (hd : d.length = 16) (padEn : Bool) (padChar : Byte) :
    b64 d padEn padChar =
      (List.range 22).map (fun p => b64Char (b64Digit d p)) ++ List.replicate (if padEn then 2 else 0) padChar := by
  cases padEn <;> simp [b64, b64Symbol, b64Digit, hd, List.range_succ]

/-- A group is 24 bits of the digest followed by 16 zero bits (R235). -/
theorem b64Group_eq {d : List Byte} (hd : d.length = 16) {i : Nat} (hi : i ≤ 15) :
    b64Group d i = bigEndian d * 2 ^ 16 / 2 ^ (8 * (15 - i)) % 2 ^ 24 := by
  have hzeros : bigEndian (d ++ [0, 0]) = bigEndian d * 2 ^ 16 := by
    rw [List.append_cons, bigEndian_concat, bigEndian_concat, show (0 : Byte).toNat = 0 from rfl]
    omega
  have hlen : (d ++ [0, 0]).length = 18 := by rw [List.length_append, hd]; rfl
  have hbyte (j : Nat) (hj : j < 3) :
      (d.getD (i + j) 0).toNat = bigEndian d * 2 ^ 16 / 2 ^ (8 * (15 - i)) / 2 ^ (8 * (2 - j)) % 256 := by
    have hext : d.getD (i + j) 0 = (d ++ [0, 0]).getD (i + j) 0 := by
      by_cases hlt : i + j < d.length
      · rw [List.getD_append _ _ _ _ hlt]
      · rw [List.getD_eq_default _ _ (by omega), List.getD_append_right _ _ _ _ (by omega)]
        exact (List.getD_replicate (n := 2) _ (by omega)).symm
    have hexp : 256 ^ (18 - 1 - (i + j)) = 2 ^ (8 * (15 - i)) * 2 ^ (8 * (2 - j)) := by
      rw [← Nat.pow_add, ← Nat.mul_add, Nat.pow_mul]
      congr 1
      omega
    rw [hext, toNat_getD_eq_radixDigit (by omega), radixDigit, hzeros, hlen, hexp, Nat.div_div_eq_div_mul]
  have h0 : (d.getD i 0).toNat = _ := hbyte 0 (by omega)
  rw [b64Group, h0, hbyte 1 (by omega), hbyte 2 (by omega)]
  omega

/-- The six bits at position `p` are a base-64 digit of the digest followed by four zero bits (R235, R236). -/
theorem b64Digit_eq {d : List Byte} (hd : d.length = 16) {p : Nat} (hp : p < 22) :
    b64Digit d p = bigEndian d * 2 ^ 4 / 2 ^ (6 * (21 - p)) % 64 := by
  have hgroup (x k : Nat) (hk : k < 4) : x % 2 ^ 24 / 2 ^ (6 * k) % 64 = x / 2 ^ (6 * k) % 64 := by
    interval_cases k <;> omega
  have hexp : 8 * (15 - 3 * (p / 4)) + 6 * (3 - p % 4) = 6 * (21 - p) + 12 := by omega
  rw [b64Digit, b64Group_eq hd (by omega), hgroup _ _ (by omega), Nat.div_div_eq_div_mul, ← Nat.pow_add, hexp,
    Nat.pow_add, show 2 ^ 16 = 2 ^ 4 * 2 ^ 12 by rfl, ← Nat.mul_assoc, Nat.mul_div_mul_right _ _ (by decide)]

/-- Settles O38: each symbol is a base-64 digit through the alphabet, and the pads follow the 22 digits. -/
theorem encB64WritesBase64Digits : Obligations.EncB64WritesBase64Digits := by
  refine ⟨cmdLaw_of_opValid (by decide) (by decide) (by decide) fun _ => rfl, fun s ht => ?_⟩
  have hd : s.digest.toList.length = 16 := Vector.length_toList
  have hb64 := b64_of_length hd s.cfg.padEn s.cfg.padChar
  have hlen : (b64 s.digest.toList s.cfg.padEn s.cfg.padChar).length = if s.cfg.padEn then 24 else 22 := by
    rw [hb64]
    split_ifs <;> simp
  refine ⟨toBytes 128 (b64 s.digest.toList s.cfg.padEn s.cfg.padChar), ?_, fun p => ?_⟩
  · rw [exec_encB64_engine ht, encB64, complete_setOut, hlen]
  rw [Fin.getElem_fin, getElem_toBytes p.isLt]
  refine ⟨fun hp => ?_, fun hlow hhigh => ?_, fun hp => List.getD_eq_default _ _ (hlen ▸ hp)⟩
  · have hdigit : b64Digit s.digest.toList p.val < 64 := Nat.mod_lt _ (by decide)
    rw [hb64, List.getD_append _ _ _ _ (by simpa using hp), List.getD_eq_getElem _ _ (by simpa using hp),
      List.getElem_map, List.getElem_range, b64Char_eq_getD _ hdigit, b64Digit_eq hd hp, digestValue]
  · rw [hb64, List.getD_append_right _ _ _ _ (by simpa using hlow)]
    refine List.getD_replicate _ ?_
    simp only [List.length_map, List.length_range]
    split_ifs at hhigh ⊢ <;> omega

end Sys2Proof.Proofs
end

section
/-!
SUPPORT. Proofs of the host's side (49_host_side.md): the length of normalised text (R265) and the hex round trip (R270).
-/

namespace Sys2Proof.Proofs

open Sys2Proof.Machine Sys2Proof.Claims

/-! ## Length of normalised text -/

/-- A code point has at most four bytes (R262). -/
theorem length_utf8_le_four (x : Nat) : (utf8 x).length ≤ 4 := by
  unfold utf8
  split_ifs <;> simp

/-- A code point of the Basic Multilingual Plane has at most three bytes (R262). -/
theorem length_utf8_le_three {x : Nat} (hx : x ≤ 0xFFFF) : (utf8 x).length ≤ 3 := by
  unfold utf8
  split_ifs <;> simp

/-- A code unit that is its own code point has at most three bytes (R261, R263). -/
theorem length_utf8_unit_le_three (x : BitVec 16) : (utf8 x.toNat).length ≤ 3 :=
  length_utf8_le_three (by omega)

/-- Settles O48: a unit on its own has at most three bytes, and a surrogate pair at most four for its two units. -/
theorem normalizeAtMostTriples : Obligations.NormalizeAtMostTriples := by
  intro u
  induction u using Machine.normalize.induct with
  | case1 => exact Nat.le_refl 0
  | case2 x => simpa [Machine.normalize] using length_utf8_unit_le_three x
  | case3 x y rest hpair ih =>
    have hfour := length_utf8_le_four (pairPoint x.toNat y.toNat)
    rw [Machine.normalize, if_pos hpair, List.length_append, List.length_cons, List.length_cons]
    omega
  | case4 x y rest hpair ih =>
    have hthree := length_utf8_unit_le_three x
    rw [Machine.normalize, if_neg hpair, List.length_append, List.length_cons]
    omega

/-! ## Hex round trip -/

/-- `hexValue` inverts `hexChar` in either case (R270). -/
theorem hexValue_hexChar : ∀ (upper : Bool) (v : Nat), v < 16 → hexValue (hexChar v upper) = some v := by
  decide

/-- The two symbols of a byte, before other symbols, decode to the byte (R233, R270). -/
theorem hexDecode_hexByte_append (upper : Bool) (b : Byte) (l : List Byte) :
    hexDecode (hexByte upper b ++ l) = (hexDecode l).map (b :: ·) := by
  have hb := b.isLt
  have hjoin : BitVec.ofNat 8 (16 * (b.toNat / 16) + b.toNat % 16) = b := by
    rw [Nat.div_add_mod, BitVec.ofNat_toNat, BitVec.setWidth_eq]
  rw [hexByte, List.cons_append, List.cons_append, List.nil_append, hexDecode, hexValue_hexChar _ _ (by omega),
    hexValue_hexChar _ _ (by omega)]
  cases hexDecode l with
  | none => rfl
  | some tail => simp [hjoin]

/-- Decoding the hex rendering of bytes gives the bytes back (R270). -/
theorem hexDecode_hexOf (upper : Bool) (d : List Byte) : hexDecode (hexOf upper d) = some d := by
  induction d with
  | nil => rfl
  | cons b d ih =>
    have hhex : hexOf upper (b :: d) = hexByte upper b ++ hexOf upper d := List.flatMap_cons
    rw [hhex, hexDecode_hexByte_append, ih, Option.map_some]

/-- Settles O49: the rendering decodes to the bytes, so rendering them again is rendering the same bytes. -/
theorem hexRoundTripIdentity : Obligations.HexRoundTripIdentity := fun upper d =>
  ⟨hexDecode_hexOf upper d, by rw [hexDecode_hexOf, Option.map_some]⟩

end Sys2Proof.Proofs
end

section
/-!
SUPPORT. Proof of what drives the `irq` output and what makes it fall (60_exceptions.md R289).
-/

namespace Sys2Proof.Proofs

open Sys2Proof.Machine Sys2Proof.Claims

/-! ## The bits that drive `irq` -/

/-- DONE is bit 1 of STATUS (R23). -/
theorem statusWord_getLsbD_done (t : Status) : (statusWord t).getLsbD 1 = t.done := by
  simp [statusWord, getElem_flagAt]

/-- ERR is bit 2 of STATUS (R23). -/
theorem statusWord_getLsbD_err (t : Status) : (statusWord t).getLsbD 2 = t.err := by
  simp [statusWord, getElem_flagAt]

/-- IRQ_EN is bit 2 of CONFIG (R30). -/
theorem cfgWord_getLsbD_irqEn (c : Cfg) : (cfgWord c).getLsbD 2 = c.irqEn := by
  simp [cfgWord, getElem_flagAt]

/-- From the first reset on `irq` is a level of CONFIG and STATUS (R289). -/
theorem irq_eq_of_ne_powerUp {s : State} (h : s.rst ≠ .powerUp) :
    s.irq = (s.cfg.irqEn && (s.status.done || s.status.err)) := by
  unfold State.irq
  cases hr : s.rst with
  | powerUp => exact absurd hr h
  | asserted | released => rfl

/-- `irq` as the words a host reads give it (R23, R30, R289). -/
theorem irq_eq_readReg {s : State} (h : s.rst ≠ .powerUp) :
    s.irq =
      ((readReg .config s).getLsbD 2 && ((readReg .status s).getLsbD 1 || (readReg .status s).getLsbD 2)) := by
  rw [irq_eq_of_ne_powerUp h, readReg, readReg, cfgWord_getLsbD_irqEn, statusWord_getLsbD_done, statusWord_getLsbD_err]

/-! ## What makes `irq` fall -/

/-- Without IRQ_EN `irq` is low (R289). -/
theorem irq_of_irqEn_false {s : State} (h : s.rst ≠ .powerUp) (hen : s.cfg.irqEn = false) : s.irq = false := by
  rw [irq_eq_of_ne_powerUp h, hen, Bool.false_and]

/-- ACK of an idle MDE clears STATUS by R128. -/
theorem exec_ack_idle {s : State} (hb : s.status.busy = false) : exec .ack s = .next (cleared s) := by
  refine (execAck_eq_cmdOutcome s).trans (congrArg _ ?_)
  rw [cmdOutcome, verdict_ack hb]

/-- Settles O55: `irq` is a function of three bits, ACK clears two of them, a CONFIG write the third and each reset all
three; acceptance writes BUSY and DONE only. -/
theorem irqLevelAndClearing : Obligations.IrqLevelAndClearing := by
  refine ⟨fun s h => irq_eq_readReg h, fun s h hb => ?ack, fun s v h hb hv => ?config, fun s h => ?softReset,
    fun s => ?rstAssert, fun s v h hv => ?accept⟩
  case ack => exact ⟨_, exec_ack_idle hb, irq_cleared h⟩
  case config =>
    have hlive : (storeReg .config v s).rst ≠ .powerUp := by simp [storeReg, h]
    exact ⟨_, stepOn_store h hb rfl v, irq_of_irqEn_false hlive hv⟩
  case softReset => exact ⟨hwReset s, rfl, (atReset_hwReset h).irq⟩
  case rstAssert => exact ⟨_, event_rstAssert s, (atReset_hwReset (by simp)).irq⟩
  case accept =>
    obtain ⟨tn, haccept⟩ := stepOn_accepted h hv
    exact ⟨_, haccept, rfl, rfl⟩

end Sys2Proof.Proofs
end

section
/-!
SUPPORT. Proof that only reset clears the results of MDE (70_reset_and_hazards.md R312). What one step can do to the
results is said once, from the cases of a step.
-/

namespace Sys2Proof.Proofs

open Sys2Proof.Machine Sys2Proof.Claims

/-! ## The results -/

/-- The results R312 speaks of. -/
structure Results where
  dvalid : Bool
  ovalid : Bool
  stDone : Bool
  stPass : Bool
  digest : Vector Byte 16
  alpha : Memory

/-- The results a state holds. -/
def results (s : State) : Results where
  dvalid := s.status.dvalid
  ovalid := s.status.ovalid
  stDone := s.status.stDone
  stPass := s.status.stPass
  digest := s.digest
  alpha := s.alpha

/-- What a step that is no reset can do to the results: one constructor per kind of change, with the event that makes
it. -/
inductive ResultsCase (s : State) : Results → Prop where
  | kept : ResultsCase s (results s)
  /-- MD5_FINAL or HMAC_FINAL writes the digest (R178, R208). -/
  | digested (h : completes .md5Final s ∨ completes .hmacFinal s) (d : Vector Byte 16) :
      ResultsCase s { results s with dvalid := true, digest := d }
  /-- SELFTEST writes the digest and passes (R179). -/
  | selftested (h : completes .selftest s) (d : Vector Byte 16) :
      ResultsCase s { results s with dvalid := true, digest := d, stDone := true, stPass := true }
  /-- An encoder writes OUT (R231). -/
  | encoded (h : completes .encHex s ∨ completes .encB64 s ∨ completes .encRadix s) :
      ResultsCase s { results s with ovalid := true }
  /-- ENC_RADIX is rejected for its radix (R245). -/
  | badRadix (h : ∃ v, writesCmd v s ∧ verdict v s = .reject .badRadix) :
      ResultsCase s { results s with ovalid := false }
  /-- The host writes an ALPHA word (R64). -/
  | alphaWritten (j : Fin 64) (h : writesReg (0x200 + 4 * j.val) s) (m : Memory) :
      ResultsCase s { results s with alpha := m }

/-! ## The results after the effect of a command

These go through the field lemmas and not by `rfl`: a lemma proved by `rfl` leaves the kernel to compare two states
whole, and it then evaluates the compressions in them. -/

@[simp] theorem results_complete (s : State) : results (complete s) = results s := by simp [results]
@[simp] theorem results_setMode (m : Mode) (s : State) : results (setMode m s) = results s := by simp [results]
@[simp] theorem results_setKhash (b : Bool) (s : State) : results (setKhash b s) = results s := by simp [results]
@[simp] theorem results_setMlen (l : BitVec 64) (s : State) : results (setMlen l s) = results s := by simp [results]
@[simp] theorem results_loadIv (s : State) : results (loadIv s) = results s := by simp [results]
@[simp] theorem results_compress (src : BlockSrc) (s : State) : results (compress src s) = results s := by
  simp [results]
@[simp] theorem results_clearBlock (s : State) : results (clearBlock s) = results s := by simp [results]
@[simp] theorem results_clearKbuf (s : State) : results (clearKbuf s) = results s := by simp [results]
@[simp] theorem results_keyStore (b : Byte) (s : State) : results (keyStore b s) = results s := by simp [results]
@[simp] theorem results_convert (s : State) : results (convert s) = results s := by simp [results]
@[simp] theorem results_setOut (o : List Byte) (s : State) :
    results (setOut o s) = { results s with ovalid := true } := by simp [results]
@[simp] theorem results_setDigest (d : Vector Byte 16) (s : State) :
    results (setDigest d s) = { results s with dvalid := true, digest := d } := by simp [results]

@[simp] theorem results_startSession (s : State) : results (startSession s) = results s := by simp [startSession]

@[simp] theorem results_md5Append (b : Byte) (s : State) : results (md5Append b s) = results s := by simp [results]

@[simp] theorem results_md5AppendAll (bs : List Byte) (s : State) : results (md5AppendAll bs s) = results s := by
  simp [results]

@[simp] theorem results_finalize (l : BitVec 64) (s : State) : results (finalize l s).2 = results s := by
  simp [results, finalize]

@[simp] theorem results_keyAppend (b : Byte) (s : State) : results (keyAppend b s) = results s := by
  obtain h | h | h := keyAppend_cases b s <;> rw [h] <;> simp [keyHashStart]

@[simp] theorem results_pushByte (b : Byte) (s : State) : results (pushByte b s) = results s := by
  by_cases hm : s.status.mode = .key
  · rw [pushByte_key hm, results_keyAppend]
  · rw [pushByte_message hm, results_md5Append]

@[simp] theorem results_pushAll (bs : List Byte) (s : State) : results (pushAll bs s) = results s := by
  induction bs generalizing s with
  | nil => rfl
  | cons b bs ih => rw [pushAll_cons, ih, results_pushByte]

@[simp] theorem results_normaliseKey (s : State) : results (normaliseKey s) = results s := by
  rw [normaliseKey_frame]
  rfl

@[simp] theorem results_writeDigest (s : State) :
    results (writeDigest s) = { results s with dvalid := true, digest := toBytes 16 (finalize s.mlen s).1 } := by
  simp [writeDigest]

@[simp] theorem results_outerStream (s : State) : results (outerStream s) = results s := by simp [outerStream]

/-- SELFTEST passes in every state, so it never clears ST_PASS (R179). -/
theorem results_selftest {s : State} (ht : s.turn = .engine) : ∃ d : Vector Byte 16,
    results (selftest s) = { results s with dvalid := true, digest := d, stDone := true, stPass := true } := by
  obtain ⟨-, hpass⟩ := selftestPasses
  obtain ⟨aa, hexec⟩ := hpass s ht
  rw [exec_selftest_engine ht] at hexec
  rw [← results_complete, Host.Outcome.next.inj hexec]
  exact ⟨_, rfl⟩

/-- The effect of the running command on the results (R126). -/
theorem resultsCase_commandEffect {i : Instr} {s u : State} (hc : completes i s) (hu : results u = results s)
    (ht : u.turn = .engine) : ResultsCase s (results (commandEffect i u)) := by
  cases i with
  | md5Final => simpa [commandEffect, md5Final_eq, hu] using ResultsCase.digested (.inl hc) _
  | hmacFinal => simpa [commandEffect, hmacFinal_eq, hu] using ResultsCase.digested (.inr hc) _
  | selftest =>
    obtain ⟨d, hd⟩ := results_selftest ht
    rw [commandEffect, hd, hu]
    exact .selftested hc d
  | encHex => simpa [commandEffect, encHex, hu] using ResultsCase.encoded (.inl hc)
  | encB64 => simpa [commandEffect, encB64, hu] using ResultsCase.encoded (.inr (.inl hc))
  | encRadix => simpa [commandEffect, encRadix, hu] using ResultsCase.encoded (.inr (.inr hc))
  | md5Init | hmacKeyInit => simpa [commandEffect, md5Init, hmacKeyInit, hu] using ResultsCase.kept
  | hmacStart => simpa [commandEffect, hmacStart, hu] using ResultsCase.kept
  | push n => simpa [commandEffect, push, hu] using ResultsCase.kept
  | nop | ack | softReset | stepFf _ | stepGg _ | stepHh _ | stepIi _ => exact hu ▸ .kept

/-! ## The results after a step -/

theorem resultsCase_rejected {v : Word} {e : ErrCode} {s : State} (hw : writesCmd v s)
    (hv : verdict v s = .reject e) (tn : Turn) :
    ResultsCase s (results (reject e { s with inbox := s.inbox.tail, turn := tn })) := by
  by_cases he : e = .badRadix
  · subst he
    rw [reject, recordError_eq_errored]
    exact .badRadix ⟨v, hw, hv⟩
  · rw [reject_eq_recordError he, recordError_eq_errored]
    exact .kept

/-- The alphabet is the only result a host can write (R64). -/
theorem resultsCase_store {r : Reg} {s : State} (hw : writesReg r.offset s) (v : Word) :
    ResultsCase s (results (storeReg r v { s with inbox := s.inbox.tail })) := by
  cases r with
  | alpha j => exact .alphaWritten j hw _
  | _ => exact .kept

/-- A step that is no reset changes the results in one of these ways. -/
theorem resultsCase_of_step {s t : State} (hr : s.rst ≠ .powerUp) (h : step s = .next t) (hn : ¬ resets s) :
    ResultsCase s (results t) := by
  cases step_cases hr h with
  | reset hres _ tn => exact absurd hres hn
  | completion hc =>
    rw [results_complete]
    exact resultsCase_commandEffect hc rfl rfl
  | rejected hw hv tn => exact resultsCase_rejected hw hv tn
  | store hw _ _ => exact resultsCase_store hw _
  | refusal _ _ x =>
    rw [recordError_eq_errored]
    exact .kept
  | accept _ _ _ | ack _ _ _ | microStep _ _ _ _ | microFold _ _ _ _ | quiet _ _ _ => exact .kept

/-- No change clears DVALID, ST_DONE or ST_PASS, and a change of DIGEST, ALPHA or OVALID names its event (R312). -/
theorem ResultsCase.only_reset_clears {s : State} {r : Results} (h : ResultsCase s r) :
    (s.status.dvalid = true → r.dvalid = true) ∧
    (s.status.stDone = true → r.stDone = true) ∧
    (s.status.stPass = true → r.stPass = true) ∧
    (r.digest ≠ s.digest → completes .md5Final s ∨ completes .hmacFinal s ∨ completes .selftest s) ∧
    (r.alpha ≠ s.alpha → ∃ j : Fin 64, writesReg (0x200 + 4 * j.val) s) ∧
    (r.ovalid ≠ s.status.ovalid →
      completes .encHex s ∨ completes .encB64 s ∨ completes .encRadix s ∨
      ∃ v, writesCmd v s ∧ verdict v s = .reject .badRadix) := by
  cases h with
  | kept => exact ⟨id, id, id, absurd rfl, absurd rfl, absurd rfl⟩
  | digested hc d => exact ⟨fun _ => rfl, id, id, fun _ => hc.imp_right .inl, absurd rfl, absurd rfl⟩
  | selftested hc d =>
    exact ⟨fun _ => rfl, fun _ => rfl, fun _ => rfl, fun _ => .inr (.inr hc), absurd rfl, absurd rfl⟩
  | encoded hc => exact ⟨id, id, id, absurd rfl, absurd rfl, fun _ => hc.imp_right (Or.imp_right .inl)⟩
  | badRadix hv => exact ⟨id, id, id, absurd rfl, absurd rfl, fun _ => .inr (.inr (.inr hv))⟩
  | alphaWritten j hw m => exact ⟨id, id, id, absurd rfl, fun _ => ⟨j, hw⟩, absurd rfl⟩

/-- Settles O52: every step that is no reset changes the results in one of the ways of `ResultsCase`. -/
theorem onlyResetClearsResults : Obligations.OnlyResetClearsResults := fun _ _ hr h hn =>
  (resultsCase_of_step hr h hn).only_reset_clears

end Sys2Proof.Proofs
end

section
/-!
SUPPORT. Proofs about the two encodings (30_encoding.md R90 to R101): the decoder and the encoder invert each other, and
a step of the machine runs what the decoder gives.
-/

namespace Sys2Proof.Proofs

open Sys2Proof.Machine Sys2Proof.Claims

/-! ## Instructions and their encodings -/

/-- A command is encoded as its command word (R90, R93). -/
theorem encode_command {i : Instr} (hi : i.isCommand = true) : encode i = .cmd (cmdWord i) := by
  cases i with
  | stepFf _ | stepGg _ | stepHh _ | stepIi _ => cases hi
  | _ => rfl

/-- The command word of every command decodes to it (R93). -/
theorem decode_cmdWord_command {i : Instr} (hi : i.isCommand = true) : decode (.cmd (cmdWord i)) = .ok i := by
  cases i with
  | ack | softReset => rfl
  | _ => exact decode_cmdWord hi

/-- A step number stands for one step, which is well-formed (R101). -/
theorem decodeSeq_wellFormed (n : BitVec 6) : (decodeSeq n).wellFormed = true ∧ encode (decodeSeq n) = .seq n := by
  unfold decodeSeq
  split_ifs with h0 h1 h2
  · exact ⟨decide_eq_true h0, rfl⟩
  · exact ⟨decide_eq_true h1, rfl⟩
  · exact ⟨decide_eq_true h2, rfl⟩
  · refine ⟨decide_eq_true ?_, rfl⟩
    rw [roundOf_eq_iff] at *
    have hn := n.isLt
    change ¬ n.toNat / 16 = 0 at h0
    change ¬ n.toNat / 16 = 1 at h1
    change ¬ n.toNat / 16 = 2 at h2
    change n.toNat / 16 = 3
    omega

/-- A well-formed instruction is a command, or the step its number decodes to. -/
theorem wellFormed_cases {i : Instr} (hi : i.wellFormed = true) :
    i.isCommand = true ∨ ∃ n : BitVec 6, i = decodeSeq n := by
  cases i with
  | stepFf n | stepGg n | stepHh n | stepIi n =>
    have hround := beq_iff_eq.mp hi
    exact .inr ⟨n, by simp [decodeSeq, hround]⟩
  | _ => exact .inl rfl

/-! ## Encodings laid out in bytes -/

theorem toNat_append_byte {k : Nat} (x : BitVec k) (b : Byte) : (x ++ b).toNat = x.toNat * 2 ^ 8 + b.toNat := by
  rw [BitVec.toNat_append, ← Nat.shiftLeft_add_eq_or_of_lt b.isLt, Nat.shiftLeft_eq]

/-- A word is its lanes, the lowest byte first (R70). -/
theorem append_lanes (v : Word) : lane v 3 ++ lane v 2 ++ lane v 1 ++ lane v 0 = v := by
  have hv := v.isLt
  apply BitVec.eq_of_toNat_eq
  simp only [toNat_append_byte, lane_eq_ofNat, BitVec.toNat_ofNat]
  omega

/-- Four bytes hold a command word (R90). -/
theorem decodeBytes_lanes (v : Word) :
    decodeBytes [lane v 0, lane v 1, lane v 2, lane v 3] = decode (.cmd v) := by
  rw [decodeBytes, append_lanes]

/-- One byte below 64 holds a step number (R101). -/
theorem decodeBytes_step (n : BitVec 6) : decodeBytes [n.setWidth 8] = decode (.seq n) := by
  have hn : (n.setWidth 8).toNat < 64 := by
    rw [BitVec.toNat_setWidth_of_le (by decide)]
    exact n.isLt
  rw [decodeBytes, if_pos hn, BitVec.setWidth_setWidth_of_le _ (by decide), BitVec.setWidth_eq]

/-! ## Decoder and encoder -/

/-- Settles O5: a well-formed instruction is a command, whose word decodes to it, or a step that its number names. -/
theorem decodeOfEncodeIsIdentity : Obligations.DecodeOfEncodeIsIdentity := by
  intro i hi
  have hdecode : decode (encode i) = .ok i := by
    obtain hcmd | ⟨n, rfl⟩ := wellFormed_cases hi
    · rw [encode_command hcmd, decode_cmdWord_command hcmd]
    · rw [(decodeSeq_wellFormed n).2, decode]
  refine ⟨hdecode, fun v hv => ?_, fun n hn => ?_⟩
  · rw [decodeBytes_lanes, ← hv, hdecode]
  · rw [decodeBytes_step, ← hn, hdecode]

/-- Settles O6: a word that decodes is the command word of its command, and a step number names one step. -/
theorem encodeOfDecodeIsIdentity : Obligations.EncodeOfDecodeIsIdentity := by
  intro e i hdec
  cases e with
  | cmd w =>
    obtain ⟨j, hj, hcmd, rfl⟩ | ⟨_, herr, -⟩ := decodeCmd_cases w
    · cases hj.symm.trans hdec
      refine ⟨?_, encode_command hcmd⟩
      cases i with
      | stepFf _ | stepGg _ | stepHh _ | stepIi _ => cases hcmd
      | _ => rfl
    · cases herr.symm.trans hdec
  | seq n =>
    cases hdec
    exact decodeSeq_wellFormed n

/-- Settles O7, word by word. -/
theorem commandWordsDecode : Obligations.CommandWordsDecode := by
  unfold Obligations.CommandWordsDecode
  decide

/-- Settles O8: the round of a step number is its quotient by 16. -/
theorem stepNumberSelectsRound : Obligations.StepNumberSelectsRound := by
  intro n
  have h0 : roundOf n = 0 ↔ n.toNat ≤ 15 := (roundOf_eq_iff n 0).trans (by simp; omega)
  have h1 : roundOf n = 1 ↔ 16 ≤ n.toNat ∧ n.toNat ≤ 31 := (roundOf_eq_iff n 1).trans (by simp; omega)
  have h2 : roundOf n = 2 ↔ 32 ≤ n.toNat ∧ n.toNat ≤ 47 := (roundOf_eq_iff n 2).trans (by simp; omega)
  obtain h | h | h | h : n.toNat ≤ 15 ∨ (16 ≤ n.toNat ∧ n.toNat ≤ 31) ∨ (32 ≤ n.toNat ∧ n.toNat ≤ 47) ∨
      48 ≤ n.toNat := by omega
  all_goals simp (disch := omega) only [decode, decodeSeq, h0, h1, h2, if_pos, if_neg]

/-! ## A step runs the decoded instruction -/

/-- The four bytes of a table word are the lanes of its command word. -/
theorem natBytesLe_four (w : Nat) :
    natBytesLe 4 w =
      [lane (BitVec.ofNat 32 w) 0, lane (BitVec.ofNat 32 w) 1, lane (BitVec.ofNat 32 w) 2, lane (BitVec.ofNat 32 w) 3] := by
  simp only [natBytesLe, lane_eq_ofNat, List.range_succ, List.range_zero, List.nil_append, List.cons_append,
    List.map_cons, List.map_nil, List.cons.injEq, ← BitVec.toNat_inj, BitVec.toNat_ofNat, and_true]
  omega

/-- A row of more than 8 bits is a command word, a shorter one a step number. -/
theorem decode_of_decodeTableWord {nbits w : Nat} {i : Instr} (h : decodeTableWord nbits w = some i) :
    (8 < nbits → decode (.cmd (BitVec.ofNat 32 w)) = .ok i) ∧
    (nbits ≤ 8 → decode (.seq (BitVec.ofNat 6 w)) = .ok i) := by
  have hopt {r : Except DecodeError Instr} {p : Instr → Bool} (hr : r.toOption.filter p = some i) : r = .ok i := by
    obtain ⟨hr, -⟩ := Option.filter_eq_some_iff.mp hr
    cases r with
    | error _ => cases hr
    | ok j => cases hr; rfl
  unfold decodeTableWord at h
  split_ifs at h with hbits
  · refine ⟨fun hlong => by omega, fun _ => ?_⟩
    have hdec : decodeBytes [BitVec.ofNat 8 (w / 256 ^ 0)] = .ok i := hopt h
    rw [Nat.pow_zero, Nat.div_one, decodeBytes] at hdec
    split_ifs at hdec
    rwa [BitVec.setWidth_ofNat_of_le (by decide)] at hdec
  · refine ⟨fun _ => ?_, fun hshort => absurd hshort hbits⟩
    rw [← decodeBytes_lanes, ← natBytesLe_four]
    exact hopt h

/-- A CMD write runs the instruction its word decodes to (R120). -/
theorem writeCmd_of_decode {v : Word} {i : Instr} (h : decode (.cmd v) = .ok i) (s : State) :
    writeCmd v s = exec i { s with turn := .host } := by
  rw [writeCmd, h]

/-- The completion runs the latched command (R126). -/
theorem step_completes {s : State} {i : Instr} (h : completes i s) :
    step s = exec i { s with inbox := s.inbox.tail, turn := .engine } := by
  obtain ⟨-, -, -, -, -, hi⟩ := id h
  rw [step_of_completes h, exec_engine hi rfl]

/-- A micro-step runs the step its number decodes to (R101, R172). -/
theorem step_microStep {s : State} {i : Instr} (hr : s.rst = .released) (hnext : nextIn s = .engine)
    (hrun : s.seq.phase = .run) (hblock : s.seq.block = .step) (hdec : decode (.seq s.seq.step) = .ok i) :
    step s = exec i { s with inbox := s.inbox.tail, turn := .engine } := by
  cases hdec
  rw [step_live hr, hnext]
  simp only [eventLive, engineTurn, hrun, hblock]

/-- Settles O4: the next event is the write or the engine's turn, and what `withFetchWord` places is one of them. -/
theorem stepRunsDecodedInstruction : Obligations.StepRunsDecodedInstruction := by
  refine ⟨fun s v rest i hr hin hdec => ?_, fun s i h => step_completes h, fun s i => step_microStep,
    fun s nbits w i h => ⟨fun hlong => ?_, fun hshort => ?_⟩⟩
  · exact (step_of_inbox hr hin).trans (writeCmd_of_decode hdec _)
  · have hdec := (decode_of_decodeTableWord h).1 hlong
    rw [State.withFetchWord, if_neg (by omega), place,
      step_of_inbox (e := .write 0x004 (BitVec.ofNat 32 w)) (rest := s.inbox) rfl rfl]
    exact writeCmd_of_decode hdec _
  · have hdec := (decode_of_decodeTableWord h).2 hshort
    rw [State.withFetchWord, if_pos hshort]
    exact step_microStep rfl rfl rfl rfl hdec

end Sys2Proof.Proofs
end

section
/-!
SUPPORT. Proofs about PUSH (41_word_packer.md R142 to R148, 43_hmac.md R204, R205): which words are accepted, and where
the pushed bytes go.
-/

namespace Sys2Proof.Proofs

open Sys2Proof.Machine Sys2Proof.Claims

/-! ## Acceptance and the length bound -/

/-- The verdict on a word with the opcode of PUSH (R122, R130, R148). -/
theorem verdict_of_pushOpcode {v : Word} (hv : v.toNat % 2 ^ 8 = 0x02) (s : State) :
    verdict v s =
      if s.status.busy then .reject .busy
      else if 2 ^ 8 ≤ v.toNat / 2 ^ 8 then .reject .badOp
      else if s.status.mode = .none then .reject .badSeq
      else if v.toNat / 2 ^ 8 = 0 ∨ 5 ≤ v.toNat / 2 ^ 8 then .reject .badArg
      else if s.mlen.toNat + 8 * (v.toNat / 2 ^ 8) > 2 ^ 64 - 8 then .reject .lenOvf
      else .accept := by
  have hsoft : v ≠ 0x0000000F := by
    rintro rfl
    exact absurd hv (by decide)
  have hbad : NoCommand v ↔ 2 ^ 8 ≤ v.toNat / 2 ^ 8 := by
    unfold NoCommand
    omega
  have hvalid : opValid 0x02 s.status = false ↔ s.status.mode = .none := by
    cases hm : s.status.mode <;> simp [opValid, hm]
  unfold NoCommand at hbad
  rw [hv] at hbad
  simp only [verdict, hv, hbad, hsoft, hvalid, if_false]
  by_cases hlong : 2 ^ 8 ≤ v.toNat / 2 ^ 8
  · simp only [if_pos hlong]
  · have harg : v.toNat / 2 ^ 8 % 2 ^ 8 = v.toNat / 2 ^ 8 := Nat.mod_eq_of_lt (by omega)
    have hcount : ¬ (1 ≤ v.toNat / 2 ^ 8 ∧ v.toNat / 2 ^ 8 ≤ 4) ↔ v.toNat / 2 ^ 8 = 0 ∨ 5 ≤ v.toNat / 2 ^ 8 := by omega
    simp only [if_neg hlong, harg, hcount, true_and, Nat.reduceEqDiff, false_and, if_false]

/-- Settles O19: the checks of R122 on a word with the opcode of PUSH, and 2^64 - 8 is the last multiple of 8. -/
theorem pushAcceptanceAndLengthBound : Obligations.PushAcceptanceAndLengthBound := by
  refine ⟨fun s v rest hr hin hv => ?_, fun s hinv => ?_⟩
  · obtain ⟨tn, hstep⟩ := cmdWriteFollowsCheckOrder s v rest hr hin
    refine ⟨tn, hstep.trans (congrArg _ ?_)⟩
    rw [cmdOutcome, verdict_of_pushOpcode hv]
    split_ifs <;> rfl
  · have hbytes := hinv.stream.mlen_bytes
    have hlt := s.mlen.isLt
    omega

/-! ## The pushed bytes -/

/-- The bytes of DATA_IN that PUSH appends, as numbers (R144). -/
theorem take_bytesLe_eq_pushed {n : Byte} (hn : n.toNat ≤ 4) (s : State) :
    (bytesLe s.dataIn).take n.toNat = pushed n s := by
  have hbytes : bytesLe s.dataIn = (List.range 4).map fun i => BitVec.ofNat 8 (s.dataIn.toNat / 2 ^ (8 * i)) := by
    simp [bytesLe, lane_eq_ofNat, List.range_succ]
  rw [hbytes, ← List.map_take, List.take_range, Nat.min_eq_left hn, pushed]

@[simp] theorem length_pushed (n : Byte) (s : State) : (pushed n s).length = n.toNat := by simp [pushed]

/-- The completion of a PUSH (R126, R144). -/
theorem exec_push_eq {n : Byte} (hn : n.toNat ≤ 4) {s : State} (ht : s.turn = .engine) :
    exec (.push n) s = .next (finished (pushAll (pushed n s) s)) := by
  rw [exec_push_engine n ht, push, take_bytesLe_eq_pushed hn, complete_eq_finished]

theorem pushAll_append (xs ys : List Byte) (s : State) : pushAll (xs ++ ys) s = pushAll ys (pushAll xs s) :=
  List.foldl_append

/-! ## PUSH through the block buffer -/

/-- Bytes that are not stored in the key buffer go through the block buffer (R144, R204). -/
theorem pushAll_stream {s : State} (h : s.status.mode = .key → s.status.khash = true) (bs : List Byte) :
    pushAll bs s = md5AppendAll bs s := by
  induction bs generalizing s with
  | nil => rfl
  | cons b bs ih =>
    have hbyte : pushByte b s = md5Append b s := by
      by_cases hm : s.status.mode = .key
      · rw [pushByte_key hm, keyAppend_hash (h hm)]
      · exact pushByte_message hm b
    rw [pushAll_cons, hbyte, ih (by rwa [md5Append_status]), md5AppendAll_cons]

/-- Appended bytes write the hash, the block buffer and the length only. -/
theorem md5AppendAll_frame (bs : List Byte) (s : State) :
    md5AppendAll bs s =
      { s with
        hash := (md5AppendAll bs s).hash, saved := (md5AppendAll bs s).saved, w := (md5AppendAll bs s).w
        bcnt := (md5AppendAll bs s).bcnt, mlen := s.mlen + BitVec.ofNat 64 (8 * bs.length) } := by
  apply State.ext <;> simp [md5AppendAll_mlen]

/-- While the block does not fill, nothing is compressed (R142). -/
theorem md5AppendAll_saved_room {bs : List Byte} {s : State} (h : s.bcnt.toNat + bs.length < 64) :
    (md5AppendAll bs s).saved = s.saved := by
  induction bs generalizing s with
  | nil => rfl
  | cons b bs ih =>
    rw [List.length_cons] at h
    have hbyte : md5Append b s = setMlen (s.mlen + 8) (putByte b s) := md5Append_room (by bv_omega)
    have hbcnt : (md5Append b s).bcnt.toNat = s.bcnt.toNat + 1 := by
      rw [hbyte, setMlen_bcnt, putByte_bcnt]
      bv_omega
    rw [md5AppendAll_cons, ih (by omega), hbyte, setMlen_saved, putByte_saved]

/-- Fewer than 64 bytes are no full block. -/
theorem blocks_of_short {m : List Byte} (h : m.length < 64) : fullBlocks m = [] ∧ lastBytes m = m := by
  rw [fullBlocks, lastBytes, Nat.div_eq_of_lt h]
  exact ⟨rfl, rfl⟩

/-- Between 64 and 127 bytes are one full block. -/
theorem blocks_of_one {m : List Byte} (h : 64 ≤ m.length) (h' : m.length < 128) :
    fullBlocks m = m.take 64 ∧ lastBytes m = m.drop 64 := by
  rw [fullBlocks, lastBytes, show m.length / 64 = 1 by omega]
  exact ⟨rfl, rfl⟩

theorem chained_bcnt {h : Hash} {m : List Byte} {s : State} (hs : Chained h m s) :
    s.bcnt = BitVec.ofNat 7 (m.length % 64) := by
  rw [← hs.bcnt, BitVec.ofNat_toNat, BitVec.setWidth_eq]

theorem length_blockBytes (s : State) : (blockBytes s).length = s.bcnt.toNat := by simp [blockBytes]

/-- Settles O20: the bytes continue the stream in the block buffer, which has room for them or becomes one link of the
chain. -/
theorem pushJoinsBlockAndCompresses : Obligations.PushJoinsBlockAndCompresses := by
  intro s n ht _ hn hs hmode m
  have hkey : s.status.mode = .key → s.status.khash = true := by
    intro hm
    rcases hmode with h | h | ⟨-, h⟩
    · simp [h] at hm
    · simp [h] at hm
    · exact h
  have hlen : m.length = s.bcnt.toNat + n.toNat := by rw [List.length_append, length_blockBytes, length_pushed]
  have hbcnt := hs.bcnt_lt
  have hc : Chained s.hash m (md5AppendAll (pushed n s) s) := md5AppendAll_chained (chained_blockBytes hs) _
  rw [exec_push_eq hn ht, pushAll_stream hkey, md5AppendAll_frame, length_pushed, hc.hash, hc.w, chained_bcnt hc]
  refine ⟨fun hroom => ?_, fun hfull => ⟨(md5AppendAll (pushed n s) s).saved, ?_⟩⟩
  · obtain ⟨hblocks, hlast⟩ := blocks_of_short hroom
    rw [hblocks, hlast, chain_nil, Nat.mod_eq_of_lt hroom, md5AppendAll_saved_room (by rw [length_pushed]; omega)]
  · obtain ⟨hblocks, hlast⟩ := blocks_of_one hfull (by omega)
    rw [hblocks, hlast, chain_block (by rw [List.length_take]; omega), show m.length % 64 = m.length - 64 by omega]

/-! ## PUSH of a key -/

/-- A key buffer after the bytes `bs` are stored from place `c` on (R204). -/
def kbufStored (k : Vector Byte 64) (c : Nat) (bs : List Byte) : Vector Byte 64 :=
  Vector.ofFn fun i : Fin 64 => if c ≤ i.val ∧ i.val < c + bs.length then bs.getD (i.val - c) 0 else k[i]

@[simp] theorem kbufStored_nil (k : Vector Byte 64) (c : Nat) : kbufStored k c [] = k := by
  ext1 i hi
  rw [kbufStored, Vector.getElem_ofFn, List.length_nil, if_neg (by omega)]
  rfl

/-- Storing bytes is storing the first one and then the others. -/
theorem kbufStored_cons (k : Vector Byte 64) (c : Nat) (b : Byte) (bs : List Byte) :
    kbufStored k c (b :: bs) = kbufStored (k.setIfInBounds c b) (c + 1) bs := by
  ext1 i hi
  simp only [kbufStored, Vector.getElem_ofFn, List.length_cons, Fin.getElem_fin, Vector.getElem_setIfInBounds]
  obtain hlt | rfl | hgt := Nat.lt_trichotomy i c
  · simp (disch := omega) only [if_neg]
  · simp
  · by_cases hin : i < c + 1 + bs.length
    · rw [if_pos (by omega), if_pos (by omega), show i - c = (i - (c + 1)) + 1 by omega, List.getD_cons_succ]
    · simp (disch := omega) only [if_neg]

/-- The bytes up to the 64th of a key are stored one after another (R204). -/
theorem pushAll_store {bs : List Byte} {s : State} (hm : s.status.mode = .key) (hk : s.status.khash = false)
    (h8 : s.mlen.toNat % 8 = 0) (hlen : s.mlen.toNat / 8 + bs.length ≤ 64) :
    pushAll bs s =
      { s with
        kbuf := kbufStored s.kbuf (s.mlen.toNat / 8) bs, mlen := s.mlen + BitVec.ofNat 64 (8 * bs.length) } := by
  induction bs generalizing s with
  | nil => simp [pushAll]
  | cons b bs ih =>
    rw [List.length_cons] at hlen
    have hmlen : (keyStore b s).mlen.toNat = s.mlen.toNat + 8 := by
      rw [keyStore_mlen]
      bv_omega
    have hcount : (keyStore b s).mlen.toNat / 8 = s.mlen.toNat / 8 + 1 := by omega
    have hbits : BitVec.ofNat 64 (8 * (b :: bs).length) = 8 + BitVec.ofNat 64 (8 * bs.length) := by
      rw [List.length_cons, Nat.mul_add, BitVec.ofNat_add, BitVec.add_comm]
      rfl
    rw [pushAll_cons, pushByte_key hm, keyAppend_store hk (by omega),
      ih (by simpa using hm) (by simpa using hk) (by omega) (by omega), hcount, keyStore_kbuf, keyStore_mlen,
      ← kbufStored_cons, hbits, BitVec.add_assoc]
    rfl

/-- Settles O21: every byte finds room in the key buffer. -/
theorem pushStoresShortKey : Obligations.PushStoresShortKey := by
  intro s n ht _ hn hm hk h8 hlen
  rw [exec_push_eq hn ht, pushAll_store hm hk h8 (by rwa [length_pushed]), kbufStored, length_pushed]

/-- Bytes that fill the key buffer come behind the ones it holds. -/
theorem kbufStored_fills {c : Nat} {bs : List Byte} (hc : c + bs.length = 64) (k : Vector Byte 64) :
    kbufStored k c bs = toBytes 64 (k.toList.take c ++ bs) := by
  ext1 i hi
  have htake : (k.toList.take c).length = c := by rw [List.length_take, Vector.length_toList]; omega
  simp only [kbufStored, Vector.getElem_ofFn, getElem_toBytes hi]
  by_cases hlow : i < c
  · rw [if_neg (by omega), List.getD_append _ _ _ _ (by omega), List.getD_eq_getElem _ _ (by omega)]
    simp
  · rw [if_pos (by omega), List.getD_append_right _ _ _ _ (by omega), htake]

/-- The 65th key byte starts the hash of the key, and the bytes from it on go through the block buffer (R204, R205). -/
theorem pushAll_start {bs : List Byte} (hbs : bs ≠ []) {s : State} (hm : s.status.mode = .key)
    (hk : s.status.khash = false) (hlen : 512 ≤ s.mlen.toNat) :
    pushAll bs s = md5AppendAll bs (keyHashStart s) := by
  obtain ⟨b, bs, rfl⟩ := List.exists_cons_of_ne_nil hbs
  rw [pushAll_cons, pushByte_key hm, keyAppend_start hk hlen, md5AppendAll_cons]
  exact pushAll_stream (fun _ => by rw [md5Append_status, keyHashStart_khash]) bs

/-- The key-hash transition writes KHASH, the hash and the block buffer only (R205). -/
theorem keyHashStart_frame (s : State) :
    keyHashStart s =
      { s with
        status := { s.status with khash := true }
        hash := (keyHashStart s).hash, saved := (keyHashStart s).saved
        w := (keyHashStart s).w, bcnt := (keyHashStart s).bcnt } := by
  apply State.ext <;> simp [keyHashStart]

/-- Settles O22: the bytes up to the 64th fill the key buffer, which is the first block of the hash, and the rest follow
in the block buffer. -/
theorem pushOfKeyByte65StartsHash : Obligations.PushOfKeyByte65StartsHash := by
  intro s n ht _ hn hm hk h8 hc hpass c key more
  have hfirst : ((pushed n s).take (64 - c)).length = 64 - c := by rw [List.length_take, length_pushed]; omega
  have hmore : more.length = n.toNat - (64 - c) := by rw [List.length_drop, length_pushed]
  have hkey : key.length = 64 := by rw [List.length_append, List.length_take, Vector.length_toList, hfirst]; omega
  have hbits : s.mlen + BitVec.ofNat 64 (8 * (64 - c)) = 512 := by
    apply BitVec.eq_of_toNat_eq
    rw [BitVec.toNat_add, BitVec.toNat_ofNat]
    change _ = 512
    omega
  have hcount : s.mlen + BitVec.ofNat 64 (8 * n.toNat) = 512 + BitVec.ofNat 64 (8 * more.length) := by
    rw [← hbits, BitVec.add_assoc, ← BitVec.ofNat_add]
    congr 2
    omega
  have hstore : pushAll ((pushed n s).take (64 - c)) s = { s with kbuf := toBytes 64 key, mlen := 512 } := by
    rw [pushAll_store hm hk h8 (by omega), kbufStored_fills (by omega), hfirst, hbits]
  let t : State := { s with kbuf := toBytes 64 key, mlen := 512 }
  have hpush : pushAll (pushed n s) s = md5AppendAll more (keyHashStart t) := by
    rw [← List.take_append_drop (64 - c) (pushed n s), pushAll_append, hstore]
    exact pushAll_start (List.ne_nil_of_length_pos (by rw [hmore]; omega)) hm hk (Nat.le_of_eq rfl)
  have hstart : Chained iv key (keyHashStart t) := toList_toBytes hkey ▸ keyHashStart_chained t
  have hchained := md5AppendAll_chained hstart more
  have hlen : (key ++ more).length = 64 + more.length := by rw [List.length_append, hkey]
  obtain ⟨hblocks, hlast⟩ := blocks_of_one (m := key ++ more) (by omega) (by omega)
  refine ⟨(md5AppendAll more (keyHashStart t)).saved, ?_⟩
  rw [exec_push_eq hn ht, hpush, md5AppendAll_frame, hchained.hash, hchained.w, chained_bcnt hchained, hblocks, hlast,
    List.take_left' hkey, List.drop_left' hkey, chain_block hkey, hlen,
    show (64 + more.length) % 64 = more.length by omega, hcount, keyHashStart_frame]

end Sys2Proof.Proofs
end

section
/-!
SUPPORT. Proofs about the micro-steps of the sequencer (42_md5_engine.md R170 to R172) and ENC_HEX (44_encoder.md R232,
R233).
-/

namespace Sys2Proof.Proofs

open Sys2Proof.Machine Sys2Proof.Claims

/-! ## One micro-step -/

/-- The words a compression reads, as the statements write them (R171, R202). -/
theorem blockWords_eq_sourceWords (s : State) : blockWords s.seq.src s = sourceWords s := by
  unfold blockWords sourceWords
  cases s.seq.src with
  | w => rfl
  | key => exact packBlock_eq_blockOf s.kbuf
  | ipad | opad => exact packBlock_xorEach s.kbuf _

/-- A micro-step with the value of its round function (R170, R172). -/
theorem microStep_eq_afterStep (f : Word → Word → Word → Word) (n : BitVec 6) (s : State) :
    microStep f n s = afterStep n (f s.hash.b s.hash.c s.hash.d) s := by
  have hrot (v : Word) : rotl32 v (sOf n) = v.rotateLeft (sOf n) :=
    rotl32_eq_rotateLeft v (by have h := (sOf_bounds n).2; omega)
  have hnext : n + 1 = BitVec.ofNat 6 (n.toNat + 1) := by
    rw [BitVec.ofNat_add, BitVec.ofNat_toNat, BitVec.setWidth_eq]
    rfl
  have hfirst : n = 0 ↔ n.toNat = 0 := BitVec.toNat_inj.symm
  have hlast : n = 63 ↔ n.toNat = 63 := BitVec.toNat_inj.symm
  simp only [microStep, stepWith, blockWords_eq_sourceWords, hrot, hnext, hfirst, hlast]
  rfl

/-- Settles O30: each kind of step is the micro-step with its round function. -/
theorem sequencerStepsComplete : Obligations.SequencerStepsComplete := by
  intro s n
  have hnext (f : Word → Word → Word → Word) :=
    congrArg (Host.Outcome.next (φ := Fault) (ρ := Refusal)) (microStep_eq_afterStep f n s)
  exact ⟨hnext ff, hnext gg, hnext hh, hnext ii⟩

/-! ## The micro-steps of a compression -/

/-- Before one of the 64 steps, the engine's turn is that step (R101, R172). -/
theorem stepOn_engine_microStep {s : State} (hr : s.rst = .released) (hrun : s.seq.phase = .run)
    (hblock : s.seq.block = .step) :
    stepOn .engine s = .next (microStep (roundFn s.seq.step) s.seq.step { s with turn := .engine }) := by
  rw [stepOn_live hr]
  simp only [eventLive, engineTurn, hrun, hblock, exec_decodeSeq]

/-- After the 64 steps, the engine's turn is the fold (R172). -/
theorem stepOn_engine_microFold {s : State} (hr : s.rst = .released) (hrun : s.seq.phase = .run)
    (hblock : s.seq.block = .fold) : stepOn .engine s = .next (microFold s) := by
  rw [stepOn_live hr]
  simp only [eventLive, engineTurn, hrun, hblock]

/-- A compression in progress, from `s` on, after its steps 0 to `k` (R172). -/
def afterSteps (k : Nat) (s : State) : State :=
  { s with
    hash := stepsFrom0 (k + 1) (blockWords s.seq.src s) s.hash, saved := s.hash, turn := .engine
    seq := { s.seq with step := BitVec.ofNat 6 (k + 1), block := if k = 63 then .fold else .step } }

/-- Step `k + 1` follows step `k`. -/
theorem microStep_afterSteps {k : Nat} (hk : k < 63) (s : State) :
    microStep (roundFn (BitVec.ofNat 6 (k + 1))) (BitVec.ofNat 6 (k + 1)) (afterSteps k s) = afterSteps (k + 1) s := by
  have hnat : (BitVec.ofNat 6 (k + 1)).toNat = k + 1 := by rw [BitVec.toNat_ofNat]; omega
  have hfirst : BitVec.ofNat 6 (k + 1) ≠ 0 := by
    intro h
    rw [h] at hnat
    exact absurd hnat (by simp)
  have hlast : BitVec.ofNat 6 (k + 1) = 63 ↔ k + 1 = 63 := by
    rw [← BitVec.toNat_inj, hnat]
    rfl
  have hwords : blockWords s.seq.src (afterSteps k s) = blockWords s.seq.src s := by cases s.seq.src <;> rfl
  have hstep : BitVec.ofNat 6 (k + 1) + 1 = BitVec.ofNat 6 (k + 1 + 1) := (BitVec.ofNat_add _ 1).symm
  have hsrc : (afterSteps k s).seq.src = s.seq.src := rfl
  simp only [microStep, if_neg hfirst, hlast, hsrc, hwords, hstep]
  rfl

/-- The steps 0 to `k` of a compression, one engine's turn each (R172). -/
theorem run_microSteps {s : State} (hr : s.rst = .released) (hrun : s.seq.phase = .run) (hblock : s.seq.block = .step)
    (hstep : s.seq.step = 0) {k : Nat} (hk : k < 64) :
    run (List.replicate (k + 1) .engine) s = some (afterSteps k s) := by
  induction k with
  | zero =>
    rw [List.replicate_one, run_cons_next (stepOn_engine_microStep hr hrun hblock), run, hstep]
    have hwords : blockWords s.seq.src { s with turn := .engine } = blockWords s.seq.src s := by
      cases s.seq.src <;> rfl
    simp only [microStep, hwords]
    rfl
  | succ k ih =>
    have hnext : stepOn .engine (afterSteps k s) = .next (afterSteps (k + 1) s) := by
      rw [stepOn_engine_microStep (by exact hr) (by exact hrun) (if_neg (by omega)), ← microStep_afterSteps (by omega)]
      rfl
    rw [List.replicate_succ', run_append, ih (by omega), Option.bind_some, run_cons_next hnext]
    rfl

/-- The steps 0 to 63 and the fold are a compression (R171). The last step number is a variable here, since the kernel
unfolds the steps to compare two literals. -/
theorem addHash_stepsFrom0 {k : Nat} (hk : k + 1 = 64) (x : Vector Word 16) (h : Hash) :
    addHash (stepsFrom0 (k + 1) x h) h = compressHash x h := by
  rw [compressHash, hk]

/-- The fold adds the saved registers to what the steps have left (R171, R172). -/
theorem microFold_afterSteps (k : Nat) (s : State) :
    microFold (afterSteps k s) =
      { s with
        hash := addHash (stepsFrom0 (k + 1) (blockWords s.seq.src s) s.hash) s.hash, saved := s.hash, turn := .engine
        seq := { s.seq with step := 0, block := .idle } } := rfl

/-- Settles O31: the 64 steps one by one, and then the fold. -/
theorem microStepsEqualCompression : Obligations.MicroStepsEqualCompression := by
  intro s hr hrun hblock hstep
  obtain ⟨k, hk⟩ : ∃ k, 65 = k + 1 + 1 := ⟨63, rfl⟩
  have hfold := stepOn_engine_microFold (s := afterSteps k s) hr hrun (if_pos (by omega))
  rw [hk, List.replicate_succ', run_append, run_microSteps hr hrun hblock hstep (by omega), Option.bind_some,
    run_cons_next hfold, microFold_afterSteps, run, addHash_stepsFrom0 (by omega), blockWords_eq_sourceWords]

/-! ## ENC_HEX -/

/-- Byte `i` of a byte sequence is symbols `2 i` and `2 i + 1` of its hex rendering (R233). -/
theorem getD_hexOf (upper : Bool) {d : List Byte} {i : Nat} (hi : i < d.length) :
    (hexOf upper d).getD (2 * i) 0 = hexChar ((d.getD i 0).toNat / 16) upper ∧
    (hexOf upper d).getD (2 * i + 1) 0 = hexChar ((d.getD i 0).toNat % 16) upper := by
  induction d generalizing i with
  | nil => exact absurd hi (Nat.not_lt_zero i)
  | cons b d ih =>
    have hcons : hexOf upper (b :: d) =
        hexChar (b.toNat / 16) upper :: hexChar (b.toNat % 16) upper :: hexOf upper d := List.flatMap_cons
    rw [hcons]
    cases i with
    | zero => exact ⟨rfl, rfl⟩
    | succ i => exact ih (Nat.lt_of_succ_lt_succ hi)

@[simp] theorem length_hexOf (upper : Bool) (d : List Byte) : (hexOf upper d).length = 2 * d.length := by
  simp [hexOf_eq_radixDigits]

/-- ENC_HEX changes OUT, OUT_LEN and OVALID (R233). -/
theorem exec_encHex_eq {s : State} (ht : s.turn = .engine) :
    exec .encHex s = .next (outWritten (toBytes 128 (hexOf s.cfg.hexUpper s.digest.toList)) 32 s) := by
  rw [exec_encHex_engine ht, encHex, complete_setOut, length_hexOf, Vector.length_toList]

/-- Settles O37: the symbols are the hex digits of the bytes through the table of R232. -/
theorem encHexWritesHexDigits : Obligations.EncHexWritesHexDigits := by
  refine ⟨cmdLaw_of_opValid (by decide) (by decide) (by decide) fun _ => rfl,
    fun s ht => ⟨_, exec_encHex_eq ht, fun i => ?_, fun p hp => ?_⟩⟩
  · have hbyte : s.digest.toList.getD i.val 0 = s.digest[i] := by simp
    have hb := s.digest[i].isLt
    obtain ⟨hhigh, hlow⟩ := getD_hexOf s.cfg.hexUpper (d := s.digest.toList) (i := i.val) (by simp)
    rw [byteAt_toBytes (by omega), byteAt_toBytes (by omega), hhigh, hlow, hbyte, hexChar_eq_getD _ _ (by omega),
      hexChar_eq_getD _ _ (by omega)]
    exact ⟨rfl, rfl⟩
  · rw [Fin.getElem_fin, getElem_toBytes p.isLt, List.getD_eq_default _ _ (by simpa using hp)]

end Sys2Proof.Proofs
end

section
/-!
SUPPORT. Proofs about reset and the `rst` input (40_command_control.md R129, 70_reset_and_hazards.md R310 to R313), the
fields of STATUS and CONFIG (10_state.md R23, R30), repeated writes (20_memory.md R67) and the WAIT loop (30_encoding.md
R100).
-/

namespace Sys2Proof.Proofs

open Sys2Proof.Machine Sys2Proof.Claims

/-! ## The invariant after reset -/

/-- An empty block buffer has no byte (R143). -/
theorem blockByte_noWords {p : Nat} (hp : p < 64) : blockByte noWords p = 0 := by
  have hword : wordAt noWords (p / 4) = 0 := by simp [wordAt, noWords, show p / 4 < 16 by omega]
  rw [blockByte, hword]
  simp [lane]

/-- Between sessions, and at the start of one, the buffers are empty and the stream keeps the invariant (R143, R175,
R177). -/
theorem streamInv_of_empty {s : State} (hw : s.w = noWords) (hbcnt : s.bcnt = 0) (hkbuf : s.kbuf = noKey)
    (hkhash : s.status.khash = false) (hmlen : s.mlen.toNat % 8 = 0)
    (hmode : s.status.mode = .none ∨ (s.status.mode ≠ .hmsg ∧ s.mlen = 0)) : StreamInv s where
  mlen_bytes := hmlen
  bcnt_lt := by rw [hbcnt]; decide
  block_tail p _ := by rw [hw, blockByte_noWords p.isLt]
  bcnt_mlen h := by
    rw [hkhash] at h
    obtain hnone | ⟨-, hzero⟩ := hmode
    · simp [hnone] at h
    · rw [hbcnt, hzero]
      rfl
  bcnt_zero _ := by rw [hbcnt]; rfl
  hmsg_mlen h := by
    obtain hnone | ⟨hne, -⟩ := hmode
    · cases hnone.symm.trans h
    · exact absurd h hne
  key_tail _ _ i _ := by simp [byteAt, hkbuf, noKey]
  kbuf_zero _ := hkbuf

/-- A reset leads into the invariant, from every state past power-up (R43, R44). -/
theorem inv_hwReset {s : State} (h : s.rst ≠ .powerUp) : Inv (hwReset s) where
  seq :=
    { busy_iff_run := ⟨nofun, nofun⟩, idle_pcmd := fun _ => rfl, idle_block := fun _ => rfl
      no_block_step := fun _ => rfl, run_accepted := nofun }
  status :=
    { busy_not_done := nofun, err_clear := fun _ => ⟨rfl, rfl⟩, err_code := nofun
      khash_iff := ⟨nofun, fun hk => nomatch hk.1⟩, pass_done := nofun, done_dvalid := nofun }
  stream := streamInv_of_empty rfl rfl rfl rfl rfl (.inl rfl)
  data :=
    { digest_zero := fun _ => rfl, out_len_zero := fun _ => rfl, out_len_le := Nat.zero_le _
      out_tail := nofun, alpha_wf := rfl, alpha_within := rfl }
  since_reset := h
  in_reset _ := rfl

/-- Settles O56: the reset values are what a reset leaves. -/
theorem invariantAtReset : Obligations.InvariantAtReset := inv_hwReset (s := State.reset) nofun

/-! ## SOFT_RESET and the `rst` input -/

/-- A word with the opcode of SOFT_RESET that is not its exact word is no command (R94 to R96). -/
theorem noCommand_of_softResetOpcode {v : Word} (hv : v.toNat % 2 ^ 8 = 0x0F) (hne : v ≠ 0x0000000F) :
    NoCommand v := by
  have hnat : v.toNat ≠ 15 := fun h => hne (BitVec.eq_of_toNat_eq h)
  unfold NoCommand
  omega

/-- Settles O2: only the exact word passes the first check of R122. -/
theorem softResetExactWordResets : Obligations.SoftResetExactWordResets := by
  refine ⟨fun s h => ⟨hwReset s, rfl, atReset_hwReset h, rfl, rfl, rfl, rfl⟩, fun s v rest hr hin hv => ?_⟩
  obtain ⟨tn, hstep⟩ := cmdWriteFollowsCheckOrder s v rest hr hin
  refine ⟨_, hstep, fun hexact => ?_, fun hne => ⟨tn, ?_⟩⟩
  · subst hexact
    rw [cmdOutcome_softReset rfl]
    exact ⟨atReset_hwReset (by simp [hr]), rfl⟩
  · have hverdict := verdict_of_noCommand (noCommand_of_softResetOpcode hv hne) { s with inbox := rest, turn := tn }
    rw [cmdOutcome_rejected hverdict, reject_eq_recordError (by split_ifs <;> decide), recordError_eq_errored]

/-- MDE takes an event at the head of the inbox and keeps the events behind it. -/
theorem stepOn_eq_event (e : Event) (s : State) : stepOn e s = event e s := step_eq _

/-- Before the first reset every other event leaves an unspecified state, with a canonical alphabet RAM (R310). -/
theorem event_powerUp_next {s : State} {e : Event} (hr : s.rst = .powerUp) (he : e ≠ .rstAssert) :
    ∃ t, event e s = .next t ∧ t.rst = .powerUp ∧ t.inbox = s.inbox ∧ Memory.wf t.alpha = true := by
  have hwf := (powerUpAlpha_wf s.freeCount).1
  rw [event_powerUp hr]
  obtain h | h := eventAtPowerUp_cases he s
  · exact ⟨_, h, hr, rfl, hwf⟩
  · exact ⟨_, h, hr, rfl, hwf⟩

/-- Asserting and releasing `rst` is a reset, from every state (R311, R313). -/
theorem run_rst (s : State) : run [.rstAssert, .rstRelease] s = some (hwReset { s with rst := .released }) := by
  have hassert : stepOn .rstAssert s = .next (hwReset { s with rst := .asserted }) :=
    (stepOn_eq_event _ s).trans (event_rstAssert s)
  have hrelease : stepOn .rstRelease (hwReset { s with rst := .asserted }) =
      .next (hwReset { s with rst := .released }) :=
    (stepOn_eq_event _ _).trans (event_inReset rfl _)
  rw [run_cons_next hassert, run_cons_next hrelease, run]

/-- Settles O3: an event finds `rst` at power-up, asserted or released, and its assertion resets in all three. -/
theorem rstInputResetsAndIgnoresAccesses : Obligations.RstInputResetsAndIgnoresAccesses := by
  refine ⟨fun s => ?assert, fun s hr => ?inReset, fun s h => ?softReset, fun s e => event_powerUp_next,
    fun s => ?boot⟩
  case assert => exact ⟨_, event_rstAssert s, atReset_hwReset (by simp), rfl, rfl⟩
  case inReset =>
    exact ⟨fun off => ⟨_, _, event_inReset hr _⟩, fun off v => event_inReset hr _, event_inReset hr _,
      event_inReset hr _⟩
  case softReset => exact ⟨hwReset s, rfl, atReset_hwReset h⟩
  case boot => exact ⟨_, run_rst s, atReset_hwReset (by simp), inv_hwReset (by simp), rfl⟩

/-! ## The fields of STATUS and CONFIG -/

/-- Nothing of CONFIG stands above bit 15 (R30). -/
theorem cfgWord_lt (c : Cfg) : (cfgWord c).toNat < 2 ^ 16 := by
  apply Nat.lt_pow_two_of_testBit
  intro k hk
  have hflag : ∀ j, j < 16 → k ≠ j := by omega
  rw [← BitVec.getLsbD]
  simp (disch := omega) [cfgWord, getLsbD_flagAt, hflag]

/-- A word that fits 16 bits has no bit above them. -/
theorem getLsbD_of_toNat_lt {v : Word} (hv : v.toNat < 2 ^ 16) {k : Nat} (hk : 16 ≤ k) : v.getLsbD k = false :=
  Nat.testBit_lt_two_pow (hv.trans_le (Nat.pow_le_pow_right (by decide) hk))

/-- The bits of CONFIG (R30). -/
theorem cfgWord_getLsbD (c : Cfg) (k : Nat) :
    (cfgWord c).getLsbD k =
      (if k = 0 then c.hexUpper else if k = 1 then c.padEn else if k = 2 then c.irqEn
       else if 8 ≤ k ∧ k ≤ 15 then c.padChar.getLsbD (k - 8) else false) := by
  obtain hk | hk := lt_or_ge k 16
  · interval_cases k <;> simp [cfgWord, getElem_flagAt]
  · simp (disch := omega) only [getLsbD_of_toNat_lt (cfgWord_lt c) hk, if_neg]

/-- Settles O14, bit by bit up to bit 15; above it both words are 0. -/
theorem statusAndConfigBitLayout : Obligations.StatusAndConfigBitLayout := by
  refine ⟨fun t k => ?_, cfgWord_getLsbD, rfl, rfl⟩
  obtain hk | hk := lt_or_ge k 16
  · interval_cases k <;> simp [statusWord, getElem_flagAt]
  · obtain ⟨j, rfl⟩ := Nat.exists_eq_add_of_le' hk
    exact getLsbD_of_toNat_lt (statusWord_lt t) hk

/-! ## Writing twice -/

/-- Writing a word of the alphabet RAM twice is writing it once (R67). -/
theorem writeWord_writeWord {m : Memory} (hwf : Memory.wf m = true) (a : Nat) (v : Word) :
    Memory.writeWord (Memory.writeWord m a v) a v = Memory.writeWord m a v := by
  have hwf' := Memory.writeWord_wf a v hwf
  refine Memory.eq_of_read (Memory.writeWord_wf a v hwf') hwf' fun c => ?_
  rw [read_writeWord hwf', read_writeWord hwf]
  split_ifs <;> rfl

/-- Storing twice is storing once (R67). -/
theorem storeReg_storeReg (r : Reg) (v : Word) {s : State} (hwf : Memory.wf s.alpha = true) :
    storeReg r v (storeReg r v s) = storeReg r v s := by
  cases r with
  | alpha j => simp only [storeReg, writeWord_writeWord hwf]
  | _ => rfl

theorem storeReg_rst (r : Reg) (v : Word) (s : State) : (storeReg r v s).rst = s.rst := by
  rw [storeReg_frame]

/-- Settles O13: both writes are stores to the same register. -/
theorem dataWritesAreIdempotent : Obligations.DataWritesAreIdempotent := by
  intro s t r v hreg hr hb hwf hstep
  have hrw : r.access = .rw := by rcases hreg with rfl | rfl | rfl | ⟨j, rfl⟩ <;> rfl
  cases (stepOn_store hr hb hrw v).symm.trans hstep
  rw [stepOn_store (by rwa [storeReg_rst]) (by rwa [storeReg_status]) hrw, storeReg_storeReg r v hwf]

/-! ## The WAIT loop -/

/-- A host read of a register (R63). -/
theorem stepOn_readFrom {s : State} (hr : s.rst = .released) (r : Reg) :
    stepOn (readFrom r) s = .next { s with rdata := readReg r s } := by
  rw [readFrom, stepOn_live hr, eventLive, busRead_mapped (regAt_offset r)]

/-- BUSY is bit 0 of STATUS (R23). -/
theorem statusWord_getLsbD_busy (t : Status) : (statusWord t).getLsbD 0 = t.busy :=
  statusAndConfigBitLayout.1 t 0

/-- A host variable reads as the last value put into it (R99). -/
theorem var_gotRead (h : HostState) (t : Nat) (s : State) : (h.gotRead t s).var t = s.rdata := by
  simp [HostState.var, HostState.gotRead]

/-- The `RD` of a host program (R99). -/
theorem hostTurn_rd {prog : List HostStmt} {h : HostState} {s : State} {r : Reg} {t : Nat} (hr : s.rst = .released)
    (hh : h.halted = false) (hpc : prog[h.pc]? = some (.rd r t)) :
    hostTurn prog h s = .next (h.gotRead t { s with rdata := readReg r s }, { s with rdata := readReg r s }) := by
  simp [hostTurn, hh, hpc, stepOn_readFrom hr]

/-- The `BBS` of a host program (R99). -/
theorem hostTurn_bbs {prog : List HostStmt} {h : HostState} {s : State} {t bit label : Nat} (hh : h.halted = false)
    (hpc : prog[h.pc]? = some (.bbs t bit label)) :
    hostTurn prog h s = .next (h.branch ((h.var t).getLsbD bit) label, s) := by
  simp [hostTurn, hh, hpc]

/-- A turn of the host, then the rest of the schedule (R75). -/
theorem runHost_host {prog : List HostStmt} {h h' : HostState} {s s' : State} (hturn : hostTurn prog h s = .next (h', s'))
    (rest : List Turn) : runHost prog (.host :: rest) h s = runHost prog rest h' s' := by
  rw [runHost, hturn]

/-- Settles O60: the poll reads STATUS, and the branch looks at BUSY. -/
theorem waitLoopPolls : Obligations.WaitLoopPolls := by
  intro prog h s hr hh hread hbranch
  let u : State := { s with rdata := readReg .status s }
  have hpoll : hostTurn prog h s = .next (h.gotRead pollVar u, u) := hostTurn_rd hr hh hread
  have hloop := hostTurn_bbs (h := h.gotRead pollVar u) (s := u) hh hbranch
  have hbusy : ((h.gotRead pollVar u).var pollVar).getLsbD 0 = s.status.busy := by
    rw [var_gotRead]
    exact statusWord_getLsbD_busy s.status
  rw [hbusy] at hloop
  refine ⟨(h.gotRead pollVar u).branch s.status.busy h.pc, ?_, rfl, hh⟩
  rw [runHost_host hpoll, runHost_host hloop, runHost]

end Sys2Proof.Proofs
end

section
/-!
SUPPORT. Proofs of what a command's effect leaves alone, of who writes each register (10_state.md R27 to R39), and that
nothing fails once MDE runs (42_md5_engine.md R181, 60_exceptions.md R280).
-/

namespace Sys2Proof.Proofs

open Sys2Proof.Machine Sys2Proof.Claims

/-! ## What the effect of a command leaves alone -/

/-- `t` differs from `s` at most in STATUS, the session, the digest and the work registers. Every command but the
encoders keeps to these (R125, R231). -/
structure WorkOnly (s t : State) : Prop where
  cfg : t.cfg = s.cfg
  dataIn : t.dataIn = s.dataIn
  alphaLen : t.alphaLen = s.alphaLen
  alpha : t.alpha = s.alpha
  out : t.out = s.out
  outLen : t.outLen = s.outLen
  seq : t.seq = s.seq
  rst : t.rst = s.rst
  inbox : t.inbox = s.inbox

theorem WorkOnly.trans {s t u : State} (hst : WorkOnly s t) (htu : WorkOnly t u) : WorkOnly s u where
  cfg := htu.cfg.trans hst.cfg
  dataIn := htu.dataIn.trans hst.dataIn
  alphaLen := htu.alphaLen.trans hst.alphaLen
  alpha := htu.alpha.trans hst.alpha
  out := htu.out.trans hst.out
  outLen := htu.outLen.trans hst.outLen
  seq := htu.seq.trans hst.seq
  rst := htu.rst.trans hst.rst
  inbox := htu.inbox.trans hst.inbox

theorem WorkOnly.refl (s : State) : WorkOnly s s := ⟨rfl, rfl, rfl, rfl, rfl, rfl, rfl, rfl, rfl⟩

theorem workOnly_keyAppend (b : Byte) (s : State) : WorkOnly s (keyAppend b s) := by
  obtain h | h | h := keyAppend_cases b s <;> rw [h] <;> constructor <;> simp

theorem workOnly_pushByte (b : Byte) (s : State) : WorkOnly s (pushByte b s) := by
  by_cases hm : s.status.mode = .key
  · rw [pushByte_key hm]
    exact workOnly_keyAppend b s
  · rw [pushByte_message hm]
    constructor <;> simp

theorem workOnly_pushAll (bs : List Byte) (s : State) : WorkOnly s (pushAll bs s) := by
  induction bs generalizing s with
  | nil => exact .refl s
  | cons b bs ih => exact (workOnly_pushByte b s).trans (ih _)

theorem workOnly_writeDigest (s : State) : WorkOnly s (writeDigest s) := by
  constructor <;> simp [writeDigest, finalize]

theorem workOnly_outerStream (s : State) : WorkOnly s (outerStream s) := by
  rw [outerStream_frame]
  constructor <;> rfl

theorem workOnly_selftestStream (s : State) : WorkOnly s (selftestStream s) := by
  constructor <;> simp [selftestStream]

theorem workOnly_setSelftest (b : Bool) (s : State) : WorkOnly s (setSelftest b s) := by constructor <;> simp

theorem workOnly_setMode (m : Mode) (s : State) : WorkOnly s (setMode m s) := by constructor <;> simp

theorem workOnly_clearKbuf (s : State) : WorkOnly s (clearKbuf s) := by constructor <;> simp

/-- An encoder: the commands that write OUT (R231). -/
def IsEncoder (i : Instr) : Prop := i = .encHex ∨ i = .encB64 ∨ i = .encRadix

theorem workOnly_commandEffect {i : Instr} (hi : ¬ IsEncoder i) (s : State) : WorkOnly s (commandEffect i s) := by
  cases i with
  | encHex | encB64 | encRadix => exact absurd (by simp [IsEncoder]) hi
  | push n => exact workOnly_pushAll _ s
  | md5Init | hmacKeyInit => constructor <;> simp [commandEffect, md5Init, hmacKeyInit]
  | md5Final =>
    rw [commandEffect, md5Final_eq]
    exact (workOnly_writeDigest s).trans (workOnly_setMode _ _)
  | hmacStart =>
    rw [commandEffect, hmacStart_eq]
    constructor <;> rfl
  | hmacFinal =>
    have houter := (workOnly_outerStream s).trans (workOnly_writeDigest (outerStream s))
    rw [commandEffect, hmacFinal_eq]
    exact (houter.trans (workOnly_clearKbuf _)).trans (workOnly_setMode _ _)
  | selftest =>
    have hdigest := (workOnly_selftestStream s).trans (workOnly_writeDigest (selftestStream s))
    rw [commandEffect, selftest_eq]
    exact hdigest.trans (workOnly_setSelftest _ _)
  | nop | ack | softReset | stepFf _ | stepGg _ | stepHh _ | stepIi _ => exact .refl s

/-- The encoders write OUT, OUT_LEN, OVALID and their work state only (R231, R242). -/
theorem commandEffect_encoder {i : Instr} (hi : IsEncoder i) (s : State) :
    ∃ (o : List Byte) (e : EncWork), commandEffect i s = setOut o { s with enc := e } := by
  obtain rfl | rfl | rfl := hi
  · exact ⟨_, s.enc, rfl⟩
  · exact ⟨_, s.enc, rfl⟩
  · exact ⟨_, (convert s).enc, rfl⟩

/-- No command writes a register of the host, the alphabet, the sequencer, `rst` or the inbox. -/
theorem commandEffect_frame (i : Instr) (s : State) :
    WorkOnly s { commandEffect i s with out := s.out, outLen := s.outLen } := by
  by_cases hi : IsEncoder i
  · obtain ⟨o, e, h⟩ := commandEffect_encoder hi s
    rw [h]
    constructor <;> rfl
  · obtain ⟨hcfg, hdata, hlen, halpha, -, -, hseq, hrst, hinbox⟩ := workOnly_commandEffect hi s
    exact ⟨hcfg, hdata, hlen, halpha, rfl, rfl, hseq, hrst, hinbox⟩

/-- The commands that change MODE, and what they make of it (R27). -/
theorem commandEffect_mode (i : Instr) (s : State) :
    (commandEffect i s).status.mode = s.status.mode ∨
    (i = .md5Init ∧ (commandEffect i s).status.mode = .md5) ∨
    (i = .hmacKeyInit ∧ (commandEffect i s).status.mode = .key) ∨
    (i = .hmacStart ∧ (commandEffect i s).status.mode = .hmsg) ∨
    ((i = .md5Final ∨ i = .hmacFinal) ∧ (commandEffect i s).status.mode = .none) := by
  cases i with
  | md5Init => exact .inr (.inl ⟨rfl, rfl⟩)
  | hmacKeyInit => exact .inr (.inr (.inl ⟨rfl, rfl⟩))
  | hmacStart => exact .inr (.inr (.inr (.inl ⟨rfl, rfl⟩)))
  | md5Final => exact .inr (.inr (.inr (.inr ⟨.inl rfl, rfl⟩)))
  | hmacFinal =>
    refine .inr (.inr (.inr (.inr ⟨.inr rfl, ?_⟩)))
    rw [commandEffect, hmacFinal_eq, setMode_status]
  | push n =>
    left
    rw [commandEffect, push, pushAll_status]
  | selftest => exact .inl (by simp [commandEffect, selftest, finalize])
  | encHex | encB64 | encRadix => exact .inl (by simp [commandEffect, encHex, encB64, encRadix])
  | nop | ack | softReset | stepFf _ | stepGg _ | stepHh _ | stepIi _ => exact .inl rfl

/-! ## Who writes which register -/

/-- Each register that a step from `s` to `t` changes has one of its writers at work (R27, R30 to R35, R38, R39). -/
structure WritersNamed (s t : State) : Prop where
  cfg : t.cfg = s.cfg ∨ writesReg 0x00C s
  dataIn : t.dataIn = s.dataIn ∨ writesReg 0x010 s
  alphaLen : t.alphaLen = s.alphaLen ∨ writesReg 0x014 s
  out : t.out = s.out ∨ completes .encHex s ∨ completes .encB64 s ∨ completes .encRadix s
  outLen : t.outLen = s.outLen ∨ completes .encHex s ∨ completes .encB64 s ∨ completes .encRadix s ∨
    ∃ v, writesCmd v s ∧ verdict v s = .reject .badRadix
  mode : t.status.mode = s.status.mode ∨
    (completes .md5Init s ∧ t.status.mode = .md5) ∨ (completes .hmacKeyInit s ∧ t.status.mode = .key) ∨
    (completes .hmacStart s ∧ t.status.mode = .hmsg) ∨
    ((completes .md5Final s ∨ completes .hmacFinal s) ∧ t.status.mode = .none)
  session : (t.status.khash = s.status.khash ∧ t.mlen = s.mlen ∧ t.kbuf = s.kbuf ∧ t.w = s.w ∧ t.bcnt = s.bcnt) ∨
    ∃ i, completes i s

theorem WritersNamed.refl (s : State) : WritersNamed s s where
  cfg := .inl rfl
  dataIn := .inl rfl
  alphaLen := .inl rfl
  out := .inl rfl
  outLen := .inl rfl
  mode := .inl rfl
  session := .inl ⟨rfl, rfl, rfl, rfl, rfl⟩

/-- A completion writes the session, MODE by four kinds of command, and OUT and OUT_LEN by the encoders. -/
theorem writersNamed_completion {i : Instr} {s : State} (hc : completes i s) :
    WritersNamed s (complete (commandEffect i { s with inbox := s.inbox.tail, turn := .engine })) := by
  let u : State := { s with inbox := s.inbox.tail, turn := .engine }
  obtain ⟨hcfg, hdata, hlen, -, -, -, -, -, -⟩ := commandEffect_frame i u
  have hmode := commandEffect_mode i u
  refine ⟨.inl hcfg, .inl hdata, .inl hlen, ?_, ?_, hmode.imp_right ?_, .inr ⟨i, hc⟩⟩
  · by_cases hi : IsEncoder i
    · exact .inr (by rcases hi with rfl | rfl | rfl <;> simp [hc])
    · exact .inl (workOnly_commandEffect hi u).out
  · by_cases hi : IsEncoder i
    · exact .inr (by rcases hi with rfl | rfl | rfl <;> simp [hc])
    · exact .inl (workOnly_commandEffect hi u).outLen
  · rintro (⟨rfl, h⟩ | ⟨rfl, h⟩ | ⟨rfl, h⟩ | ⟨rfl | rfl, h⟩)
    · exact .inl ⟨hc, h⟩
    · exact .inr (.inl ⟨hc, h⟩)
    · exact .inr (.inr (.inl ⟨hc, h⟩))
    · exact .inr (.inr (.inr ⟨.inl hc, h⟩))
    · exact .inr (.inr (.inr ⟨.inr hc, h⟩))

/-- A rejection writes STATUS, and OUT_LEN if it is BAD_RADIX (R245, R282). -/
theorem writersNamed_rejected {v : Word} {e : ErrCode} {s : State} (hw : writesCmd v s)
    (hv : verdict v s = .reject e) (tn : Turn) :
    WritersNamed s (reject e { s with inbox := s.inbox.tail, turn := tn }) := by
  by_cases he : e = .badRadix
  · subst he
    rw [reject, recordError_eq_errored]
    exact { WritersNamed.refl s with outLen := .inr (.inr (.inr (.inr ⟨v, hw, hv⟩))) }
  · rw [reject_eq_recordError he, recordError_eq_errored]
    exact { WritersNamed.refl s with }

/-- A store writes its register (R64). -/
theorem writersNamed_store {r : Reg} {s : State} (hw : writesReg r.offset s) (v : Word) :
    WritersNamed s (storeReg r v { s with inbox := s.inbox.tail }) := by
  cases r with
  | config => exact { WritersNamed.refl s with cfg := .inr hw }
  | dataIn => exact { WritersNamed.refl s with dataIn := .inr hw }
  | alphaLen => exact { WritersNamed.refl s with alphaLen := .inr hw }
  | _ => exact { WritersNamed.refl s with }

theorem writersNamed_of_step {s t : State} (hr : s.rst ≠ .powerUp) (h : step s = .next t) (hn : ¬ resets s) :
    WritersNamed s t := by
  cases step_cases hr h with
  | reset hres _ tn => exact absurd hres hn
  | completion hc => exact writersNamed_completion hc
  | rejected hw hv tn => exact writersNamed_rejected hw hv tn
  | store hw _ _ => exact writersNamed_store hw _
  | refusal _ _ x =>
    rw [recordError_eq_errored]
    exact { WritersNamed.refl s with }
  | accept _ _ _ | ack _ _ _ | microStep _ _ _ _ | microFold _ _ _ _ | quiet _ _ _ =>
    exact { WritersNamed.refl s with }

/-- Settles O53: the cases of a step, register by register. -/
theorem registerWritersByEvent : Obligations.RegisterWritersByEvent := by
  intro s t hr h hn
  obtain ⟨hcfg, hdata, hlen, hout, houtLen, hmode, hsession⟩ := writersNamed_of_step hr h hn
  refine ⟨hcfg.resolve_left, hdata.resolve_left, hlen.resolve_left, hout.resolve_left, houtLen.resolve_left,
    hmode.resolve_left, fun hne => hsession.resolve_left ?_⟩
  rintro ⟨hkhash, hmlen, hkbuf, hw, hbcnt⟩
  simp [hkhash, hmlen, hkbuf, hw, hbcnt] at hne

/-! ## Nothing fails -/

/-- Every instruction answers a next state, at either turn. -/
theorem exec_total (i : Instr) (s : State) : ∃ t, exec i s = .next t := by
  by_cases hi : i.isEngine = true
  · cases ht : s.turn with
    | host => exact ⟨_, exec_host hi ht⟩
    | engine => exact ⟨_, exec_engine hi ht⟩
  · cases i with
    | ack | softReset | stepFf _ | stepGg _ | stepHh _ | stepIi _ => exact ⟨_, rfl⟩
    | _ => exact absurd rfl hi

theorem busWrite_total (off : BitVec 12) (v : Word) (s : State) : ∃ t, busWrite off v s = .next t := by
  by_cases hcmd : regAt off = some .cmd
  · obtain rfl : off = 0x004 := regAt_eq_some hcmd
    obtain ⟨tn, hwrite⟩ := writeCmd_eq_cmdOutcome v s
    exact ⟨_, hwrite⟩
  · exact ⟨_, busWrite_other v s hcmd⟩

/-- A running command of the invariant is one the engine can complete (R121, R123). -/
theorem engineTurn_total {s : State} (hs : SeqInv s) : ∃ t, engineTurn s = .next t := by
  cases hphase : s.seq.phase with
  | idle => exact ⟨s, by simp [engineTurn, hphase]⟩
  | run =>
    cases hblock : s.seq.block with
    | step =>
      simp only [engineTurn, hphase, hblock]
      exact exec_total _ _
    | fold => exact ⟨microFold s, by simp only [engineTurn, hphase, hblock]⟩
    | idle =>
      obtain ⟨i, hdec, hi, -⟩ := hs.run_accepted hphase
      have hdec : decode (.cmd s.seq.pcmd) = .ok i := hdec
      simp only [engineTurn, hphase, hblock, completeCmd, hdec, hi, if_true]
      exact exec_total _ _

/-- Out of reset every event of a state of the invariant has a next state. -/
theorem eventLive_total {s : State} (hs : SeqInv s) (e : Event) : ∃ t, eventLive e s = .next t := by
  cases e with
  | write off v => exact busWrite_total off v s
  | engine => exact engineTurn_total hs
  | read _ | rstAssert | rstRelease => exact ⟨_, rfl⟩

/-- At power-up every event has a next state (R310). -/
theorem event_powerUp_total {s : State} (hr : s.rst = .powerUp) (e : Event) : ∃ t, event e s = .next t := by
  by_cases he : e = .rstAssert
  · subst he
    exact ⟨_, event_rstAssert s⟩
  · obtain ⟨t, ht, -⟩ := event_powerUp_next hr he
    exact ⟨t, ht⟩

/-- The inbox is no part of the invariant of the sequencer. -/
theorem seqInv_setInbox {s : State} (hs : SeqInv s) (es : List Event) : SeqInv { s with inbox := es } where
  busy_iff_run := hs.busy_iff_run
  idle_pcmd := hs.idle_pcmd
  idle_block := hs.idle_block
  no_block_step := hs.no_block_step
  run_accepted h := by
    obtain ⟨i, hdec, hi, hrej⟩ := hs.run_accepted h
    exact ⟨i, hdec, hi, by rw [← hrej]; cases i <;> rfl⟩

/-- Settles O58: an instruction has both its turns, and the running command of the invariant is an engine command. -/
theorem nothingFailsOnceRunning : Obligations.NothingFailsOnceRunning := by
  refine ⟨exec_total, fun s hinv => ?_, fun s hr => ?_⟩
  · cases hrst : s.rst with
    | powerUp => exact absurd hrst hinv.since_reset
    | asserted =>
      rw [step_inReset hrst]
      exact eventInReset_next _ _
    | released =>
      rw [step_live hrst]
      exact eventLive_total (seqInv_setInbox hinv.seq _) _
  · rw [step_eq]
    exact event_powerUp_total (by exact hr) _

end Sys2Proof.Proofs
end

section
/-!
SUPPORT. Proof that every step keeps the invariant (10_state.md R23 to R41, 41_word_packer.md R143, R149,
70_reset_and_hazards.md R311), and that an engine left alone comes to rest (R323).
-/

namespace Sys2Proof.Proofs

open Sys2Proof.Machine Sys2Proof.Claims

/-! ## The block buffer -/

/-- Lane `i` of a word of bytes is byte `i` (R70). -/
theorem lane_dataWord (g : List Byte) {i : Nat} (hi : i < 4) : lane (dataWord g) i = g.getD i 0 := by
  have hbytes := bytesLe_wordLe (g.getD 0 0) (g.getD 1 0) (g.getD 2 0) (g.getD 3 0)
  simp only [bytesLe, List.cons.injEq, and_true] at hbytes
  obtain ⟨h0, h1, h2, h3⟩ := hbytes
  interval_cases i
  exacts [h0, h1, h2, h3]

/-- Byte `p` of a packed block is byte `p` of the sequence, 0 beyond its end (R140, R143). -/
theorem blockByte_blockOf (m : List Byte) {p : Nat} (hp : p < 64) : blockByte (blockOf m) p = m.getD p 0 := by
  have hword : wordAt (blockOf m) (p / 4) = dataWord (m.drop (4 * (p / 4))) := by
    rw [wordAt, Vector.getElem?_eq_getElem (by omega), getElem_blockOf _ (by omega)]
    rfl
  rw [blockByte, hword, lane_dataWord _ (Nat.mod_lt _ (by decide)), List.getD_eq_getElem?_getD, List.getElem?_drop,
    Nat.div_add_mod, List.getD_eq_getElem?_getD]

/-- A stream that goes through the block buffer keeps the invariant while its last bytes stand there (R143, R149). -/
theorem streamInv_of_block {m : List Byte} {s : State} (hm : m.length < 64) (hw : s.w = blockOf m)
    (hbcnt : s.bcnt = BitVec.ofNat 7 m.length) (hmlen : s.mlen.toNat % 512 = 8 * m.length)
    (hmode : s.status.mode = .md5 ∨ s.status.mode = .hmsg ∨ (s.status.mode = .key ∧ s.status.khash = true))
    (hhmsg : s.status.mode = .hmsg → 512 ≤ s.mlen.toNat) (hkbuf : s.status.mode = .md5 → s.kbuf = noKey) :
    StreamInv s := by
  have hcount : s.bcnt.toNat = m.length := by
    rw [hbcnt, BitVec.toNat_ofNat]
    omega
  have hopen : s.status.mode ≠ .none ∧ (s.status.mode = .key → s.status.khash = true) := by
    rcases hmode with h | h | ⟨h, hk⟩ <;> simp_all
  obtain ⟨hnone, hkey⟩ := hopen
  refine ⟨by omega, by omega, fun p hp => ?_, fun _ => by omega, ?_, hhmsg, ?_, fun h => hkbuf (h.resolve_left hnone)⟩
  · rw [hw, blockByte_blockOf _ p.isLt, List.getD_eq_default _ _ (by omega)]
  · rintro (h | ⟨h, hk⟩)
    · exact absurd h hnone
    · simp [hkey h] at hk
  · intro h hk
    simp [hkey h] at hk

/-! ## The invariant apart from the sequencer -/

/-- The parts of the invariant a command can break: STATUS, the stream and the results. -/
structure RegisterInv (s : State) : Prop where
  status : StatusInv s
  stream : StreamInv s
  data : DataInv s

/-- Outside MODE KEY KHASH is 0 (R27). -/
theorem khash_false_of_mode {s : State} (hs : StatusInv s) (hm : s.status.mode ≠ .key) : s.status.khash = false := by
  rw [Bool.eq_false_iff]
  exact fun hk => hm (hs.khash_iff.mp hk).1

/-- A completed command is the instruction's answer at the engine's turn. -/
theorem complete_commandEffect_eq {i : Instr} (hi : i.isEngine = true) {s t : State} (ht : s.turn = .engine)
    (h : exec i s = .next t) : complete (commandEffect i s) = t :=
  Host.Outcome.next.inj ((exec_engine hi ht).symm.trans h)

/-- STATUS keeps its invariant at a completion that changes no result (R25 to R28). -/
theorem statusInv_finished {s : State} (hs : StatusInv s) : StatusInv (finished s) :=
  { hs with busy_not_done := nofun }

/-- A session opens with empty buffers (R177, R203). -/
theorem registerInv_opened {s : State} (hs : RegisterInv s) {m : Mode} (hm : m ≠ .hmsg) :
    RegisterInv (finished
      { s with
        hash := iv, w := noWords, bcnt := 0, mlen := 0, kbuf := noKey
        status := { s.status with khash := false, mode := m } }) where
  status := { hs.status with busy_not_done := nofun, khash_iff := ⟨nofun, fun h => absurd h.2 (by simp [finished])⟩ }
  stream := streamInv_of_empty rfl rfl rfl rfl rfl (.inr ⟨hm, rfl⟩)
  data := { hs.data with }

/-- A final command leaves a digest and closes the session (R178, R208). -/
theorem registerInv_digested {s : State} (hs : RegisterInv s) (hk : s.status.khash = false) (h aa : Hash)
    {l : BitVec 64} (hl : l.toNat % 8 = 0) (d : Vector Byte 16) :
    RegisterInv (finished
      { s with
        hash := h, saved := aa, w := noWords, bcnt := 0, mlen := l, kbuf := noKey, digest := d
        status := { s.status with dvalid := true, mode := .none } }) where
  status :=
    { hs.status with
      busy_not_done := nofun, done_dvalid := fun _ => rfl
      khash_iff := ⟨fun h => (Bool.false_ne_true (hk.symm.trans h)).elim, nofun⟩ }
  stream := streamInv_of_empty rfl rfl rfl hk hl (.inl rfl)
  data := { hs.data with digest_zero := nofun }

/-- SELFTEST leaves its digest and its verdict (R179). -/
theorem registerInv_selftested {s : State} (hs : RegisterInv s) (hm : s.status.mode = .none) (h aa : Hash)
    (d : Vector Byte 16) :
    RegisterInv (finished
      { s with
        hash := h, saved := aa, w := noWords, bcnt := 0, mlen := 24, kbuf := noKey, digest := d
        status := { s.status with khash := false, dvalid := true, stDone := true, stPass := true } }) where
  status :=
    { hs.status with
      busy_not_done := nofun, done_dvalid := fun _ => rfl, pass_done := fun _ => rfl
      khash_iff := ⟨nofun, fun h => by cases hm.symm.trans h.1⟩ }
  stream := streamInv_of_empty rfl rfl rfl rfl (by rfl : (24 : BitVec 64).toNat % 8 = 0) (.inl hm)
  data := { hs.data with digest_zero := nofun }

/-- HMAC_START opens the message with the ipad block (R206, R207). -/
theorem registerInv_hmacStarted {s : State} (hs : RegisterInv s) (k : Vector Byte 64) (h aa : Hash) :
    RegisterInv (finished
      { s with
        kbuf := k, hash := h, saved := aa, w := noWords, bcnt := 0, mlen := 512
        status := { s.status with khash := false, mode := .hmsg } }) where
  status := { hs.status with busy_not_done := nofun, khash_iff := ⟨nofun, nofun⟩ }
  stream := streamInv_of_block (m := []) (by decide) blockOf_nil.symm rfl (by rfl : (512 : BitVec 64).toNat % 512 = 0)
    (.inr (.inl rfl)) (fun _ => le_refl 512) nofun
  data := { hs.data with }

/-- An encoder leaves its symbols and zeros behind them (R231). -/
theorem registerInv_outWritten {s : State} (hs : RegisterInv s) {o : Vector Byte 128} {n : Nat} (hn : n ≤ 128)
    (ho : ∀ p : Fin 128, n ≤ p.val → o[p] = 0) : RegisterInv (outWritten o n s) where
  status := { statusInv_finished hs.status with }
  stream := { hs.stream with }
  data := by
    have hlen : (outWritten o n s).outLen.toNat = n := by
      change (BitVec.ofNat 8 n).toNat = n
      rw [BitVec.toNat_ofNat]
      omega
    refine { hs.data with out_len_zero := nofun, out_len_le := by omega, out_tail := fun _ p hp => ?_ }
    rw [byteAt, Vector.getElem?_eq_getElem p.isLt]
    exact ho p (by omega)

/-! ## PUSH -/

/-- What acceptance has checked of a PUSH (R122, R148). -/
theorem of_rejection_push {n : Byte} {s : State} (h : rejection (.push n) s = none) :
    s.status.mode ≠ .none ∧ (1 ≤ n.toNat ∧ n.toNat ≤ 4) ∧ s.mlen.toNat + 8 * n.toNat ≤ 2 ^ 64 - 8 := by
  rw [rejection, operandRejection, pushRejection] at h
  split_ifs at h with hvalid hcount hbound
  refine ⟨fun hm => ?_, hcount, not_lt.mp hbound⟩
  simp [validInMode, hm] at hvalid

/-- MLEN counts the pushed bytes, and the bound of R148 keeps it from wrapping. -/
theorem toNat_mlen_pushed {l : BitVec 64} {n : Nat} (h : l.toNat + 8 * n ≤ 2 ^ 64 - 8) :
    (l + BitVec.ofNat 64 (8 * n)).toNat = l.toNat + 8 * n := by
  rw [BitVec.toNat_add, BitVec.toNat_ofNat]
  omega

/-- Key bytes that find room in the key buffer keep the invariant (R39, R204). -/
theorem registerInv_keyStored {s : State} (hs : RegisterInv s) {n : Nat} (hm : s.status.mode = .key)
    (hk : s.status.khash = false) (hroom : s.mlen.toNat / 8 + n ≤ 64) (hbound : s.mlen.toNat + 8 * n ≤ 2 ^ 64 - 8)
    {k : Vector Byte 64} (htail : ∀ i : Fin 64, s.mlen.toNat / 8 + n ≤ i.val → byteAt k i.val = byteAt s.kbuf i.val) :
    RegisterInv (finished { s with kbuf := k, mlen := s.mlen + BitVec.ofNat 64 (8 * n) }) := by
  have hbytes := hs.stream.mlen_bytes
  have hmlen := toNat_mlen_pushed hbound
  refine ⟨?_, ?_, { hs.data with }⟩
  · refine { hs.status with busy_not_done := nofun, khash_iff := ⟨fun h => ?_, fun ⟨_, h⟩ => ?_⟩ }
    · exact (Bool.false_ne_true (hk.symm.trans h)).elim
    · have hlong : 512 < (s.mlen + BitVec.ofNat 64 (8 * n)).toNat := h
      omega
  · have hempty := hs.stream.bcnt_zero (.inr ⟨hm, hk⟩)
    refine ⟨?_, hs.stream.bcnt_lt, hs.stream.block_tail, ?_, fun _ => hempty, ?_, fun _ _ i hi => ?_, ?_⟩
    · change (s.mlen + BitVec.ofNat 64 (8 * n)).toNat % 8 = 0
      omega
    · rintro (h | h | h)
      · cases hm.symm.trans h
      · cases hm.symm.trans h
      · exact (Bool.false_ne_true (hk.symm.trans h)).elim
    · exact fun h => by cases hm.symm.trans h
    · have hi : (s.mlen + BitVec.ofNat 64 (8 * n)).toNat / 8 ≤ i.val := hi
      exact (htail i (by omega)).trans (hs.stream.key_tail hm hk i (by omega))
    · rintro (h | h) <;> cases hm.symm.trans h

/-- The key byte that starts the hash of the key, and those with it, keep the invariant (R204, R205). -/
theorem registerInv_keyHashed {s : State} (hs : RegisterInv s) {n : Nat} (hm : s.status.mode = .key)
    (hbound : s.mlen.toNat + 8 * n ≤ 2 ^ 64 - 8) (hpass : 64 < s.mlen.toNat / 8 + n) {more : List Byte}
    (hmore : more.length = s.mlen.toNat / 8 + n - 64) (hshort : more.length < 64) (k : Vector Byte 64) (h aa : Hash) :
    RegisterInv (finished
      { s with
        kbuf := k, hash := h, saved := aa, w := blockOf more, bcnt := BitVec.ofNat 7 more.length
        mlen := s.mlen + BitVec.ofNat 64 (8 * n), status := { s.status with khash := true } }) := by
  have hbytes := hs.stream.mlen_bytes
  have hmlen : (s.mlen + BitVec.ofNat 64 (8 * n)).toNat = s.mlen.toNat + 8 * n := toNat_mlen_pushed hbound
  refine ⟨{ hs.status with busy_not_done := nofun, khash_iff := ⟨fun _ => ⟨hm, ?_⟩, fun _ => rfl⟩ }, ?_,
    { hs.data with }⟩
  · change 512 < (s.mlen + BitVec.ofNat 64 (8 * n)).toNat
    omega
  · refine streamInv_of_block hshort rfl rfl ?_ (.inr (.inr ⟨hm, rfl⟩)) ?_ ?_
    · change (s.mlen + BitVec.ofNat 64 (8 * n)).toNat % 512 = 8 * more.length
      omega
    · exact fun h => by cases hm.symm.trans h
    · exact fun h => by cases hm.symm.trans h

/-- Bytes that go through the block buffer keep the invariant (R142 to R145). -/
theorem registerInv_streamed {s : State} (hs : RegisterInv s) {n : Nat}
    (hmode : s.status.mode = .md5 ∨ s.status.mode = .hmsg ∨ (s.status.mode = .key ∧ s.status.khash = true))
    (hbound : s.mlen.toNat + 8 * n ≤ 2 ^ 64 - 8) {m : List Byte} (hm : m.length < 64)
    (hlen : m.length = (s.bcnt.toNat + n) % 64) (h aa : Hash) :
    RegisterInv (finished
      { s with
        hash := h, saved := aa, w := blockOf m, bcnt := BitVec.ofNat 7 m.length
        mlen := s.mlen + BitVec.ofNat 64 (8 * n) }) := by
  have hmlen := toNat_mlen_pushed hbound
  have hkhash := hs.status.khash_iff
  have hcount := hs.stream.bcnt_mlen (hmode.imp_right (Or.imp_right And.right))
  refine ⟨{ hs.status with busy_not_done := nofun, khash_iff := ⟨fun hk => ?_, fun ⟨hkey, _⟩ => ?_⟩ }, ?_,
    { hs.data with }⟩
  · obtain ⟨hkey, hlong⟩ := hkhash.mp hk
    refine ⟨hkey, ?_⟩
    change 512 < (s.mlen + BitVec.ofNat 64 (8 * n)).toNat
    omega
  · have hkey : s.status.mode = .key := hkey
    exact (by simpa [hkey] using hmode : s.status.khash = true)
  · refine streamInv_of_block hm rfl rfl ?_ hmode (fun hmsg => ?_) (fun hmd5 => hs.stream.kbuf_zero (.inr hmd5))
    · change (s.mlen + BitVec.ofNat 64 (8 * n)).toNat % 512 = 8 * m.length
      omega
    · have hlong := hs.stream.hmsg_mlen hmsg
      change 512 ≤ (s.mlen + BitVec.ofNat 64 (8 * n)).toNat
      omega

/-- An accepted PUSH keeps the invariant: it stores key bytes, starts the hash of the key, or continues a stream (R144,
R204, R205). -/
theorem registerInv_push {n : Byte} {s : State} (hs : RegisterInv s) (ht : s.turn = .engine)
    (hrej : rejection (.push n) s = none) : RegisterInv (complete (commandEffect (.push n) s)) := by
  obtain ⟨hopen, ⟨hn1, hn4⟩, hbound⟩ := of_rejection_push hrej
  have hbytes := hs.stream.mlen_bytes
  by_cases hshort : s.status.mode = .key ∧ s.status.khash = false
  · obtain ⟨hm, hk⟩ := hshort
    have hlow : s.mlen.toNat ≤ 512 := by
      by_contra hlong
      exact Bool.false_ne_true (hk.symm.trans (hs.status.khash_iff.mpr ⟨hm, by omega⟩))
    obtain hroom | hpass := le_or_gt (s.mlen.toNat / 8 + n.toNat) 64
    · rw [complete_commandEffect_eq rfl ht (pushStoresShortKey s n ht hn1 hn4 hm hk hbytes hroom)]
      refine registerInv_keyStored hs hm hk hroom hbound fun i hi => ?_
      simp only [byteAt, Vector.getElem?_eq_getElem i.isLt, Vector.getElem_ofFn]
      rw [if_neg (by omega)]
      rfl
    · obtain ⟨aa, hexec⟩ := pushOfKeyByte65StartsHash s n ht hn1 hn4 hm hk hbytes (by omega) hpass
      have hmore : ((pushed n s).drop (64 - s.mlen.toNat / 8)).length = s.mlen.toNat / 8 + n.toNat - 64 := by
        rw [List.length_drop, length_pushed]
        omega
      rw [complete_commandEffect_eq rfl ht hexec]
      exact registerInv_keyHashed hs hm hbound hpass hmore (by omega) _ _ aa
  · have hmode : s.status.mode = .md5 ∨ s.status.mode = .hmsg ∨ (s.status.mode = .key ∧ s.status.khash = true) := by
      cases hm : s.status.mode <;> simp_all
    have hlen : (blockBytes s ++ pushed n s).length = s.bcnt.toNat + n.toNat := by
      rw [List.length_append, length_blockBytes, length_pushed]
    have hbcnt := hs.stream.bcnt_lt
    obtain ⟨hroom, hfill⟩ := pushJoinsBlockAndCompresses s n ht hn1 hn4 hs.stream hmode
    obtain hlt | hge := lt_or_ge (blockBytes s ++ pushed n s).length 64
    · rw [complete_commandEffect_eq rfl ht (hroom hlt)]
      exact registerInv_streamed hs hmode hbound hlt (by omega) s.hash s.saved
    · obtain ⟨aa, hexec⟩ := hfill hge
      have hdrop : ((blockBytes s ++ pushed n s).drop 64).length = (blockBytes s ++ pushed n s).length - 64 :=
        List.length_drop
      rw [complete_commandEffect_eq rfl ht hexec, ← hdrop]
      exact registerInv_streamed hs hmode hbound (by omega) (by omega) _ aa

/-! ## Completion -/

/-- The completion of an accepted command keeps the invariant of the registers. -/
theorem registerInv_complete {i : Instr} (hi : i.isEngine = true) {s : State} (hs : RegisterInv s)
    (ht : s.turn = .engine) (hrej : rejection i s = none) : RegisterInv (complete (commandEffect i s)) := by
  have hvalid : validInMode i s.status = true := by
    by_contra h
    simp [rejection, h] at hrej
  cases i with
  | ack | softReset | stepFf _ | stepGg _ | stepHh _ | stepIi _ => cases hi
  | nop => exact ⟨statusInv_finished hs.status, { hs.stream with }, { hs.data with }⟩
  | md5Init =>
    rw [complete_commandEffect_eq rfl ht (md5InitOpensSession.2 s ht)]
    exact registerInv_opened hs (by decide)
  | hmacKeyInit =>
    rw [complete_commandEffect_eq rfl ht (hmacKeyInitOpensKeySession.2 s ht)]
    exact registerInv_opened hs (by decide)
  | push n => exact registerInv_push hs ht hrej
  | md5Final =>
    have hm : s.status.mode = .md5 := by simpa [validInMode] using hvalid
    have hkbuf : s.kbuf = noKey := hs.stream.kbuf_zero (.inr hm)
    obtain ⟨aa, hexec⟩ := md5FinalWritesDigest.2 s ht hs.stream
    rw [complete_commandEffect_eq rfl ht hexec, hkbuf]
    exact registerInv_digested hs (khash_false_of_mode hs.status (by simp [hm])) _ aa hs.stream.mlen_bytes _
  | hmacStart =>
    obtain ⟨aa, hexec⟩ := hmacStartCompressesIpad.2 s ht hs.stream
    rw [complete_commandEffect_eq rfl ht hexec]
    exact registerInv_hmacStarted hs _ _ aa
  | hmacFinal =>
    have hm : s.status.mode = .hmsg := by simpa [validInMode] using hvalid
    obtain ⟨aa, hexec⟩ := hmacFinalWritesOuterDigest.2 s ht hs.stream
    rw [complete_commandEffect_eq rfl ht hexec]
    exact registerInv_digested hs (khash_false_of_mode hs.status (by simp [hm])) _ aa rfl _
  | selftest =>
    have hm : s.status.mode = .none := by simpa [validInMode] using hvalid
    obtain ⟨aa, hexec⟩ := selftestPasses.2 s ht
    rw [complete_commandEffect_eq rfl ht hexec]
    exact registerInv_selftested hs hm _ aa _
  | encHex =>
    obtain ⟨o, hexec, -, htail⟩ := encHexWritesHexDigits.2 s ht
    rw [complete_commandEffect_eq rfl ht hexec]
    exact registerInv_outWritten hs (by decide) htail
  | encB64 =>
    obtain ⟨o, hexec, hsymbols⟩ := encB64WritesBase64Digits.2 s ht
    rw [complete_commandEffect_eq rfl ht hexec]
    exact registerInv_outWritten hs (by split_ifs <;> decide) fun p => (hsymbols p).2.2
  | encRadix =>
    have hradix : 2 ≤ s.alphaLen.toNat ∧ s.alphaLen.toNat ≤ 256 := by
      by_contra h
      rw [rejection, if_pos hvalid, operandRejection, radixRejection, if_pos h] at hrej
      cases hrej
    obtain ⟨l, o, e, -, hl, hexec, hdigits⟩ := encRadixWritesRadixDigits.2 s ht hradix.1 hradix.2
    have henc : RegisterInv { s with enc := e } := ⟨{ hs.status with }, { hs.stream with }, { hs.data with }⟩
    rw [complete_commandEffect_eq rfl ht hexec]
    exact registerInv_outWritten henc hl fun p hp => by rw [hdigits p, if_neg (by omega)]

/-! ## The other steps -/

/-- What the checks of R122 read of a state. -/
def checkInputs (s : State) : Mode × Bool × BitVec 64 × BitVec 9 :=
  (s.status.mode, s.status.dvalid, s.mlen, s.alphaLen)

theorem rejection_congr {s t : State} (h : checkInputs t = checkInputs s) (i : Instr) :
    rejection i t = rejection i s := by
  simp only [checkInputs, Prod.mk.injEq] at h
  obtain ⟨hmode, hdvalid, hmlen, hlen⟩ := h
  have hvalid : validInMode i t.status = validInMode i s.status := by
    cases i <;> simp [validInMode, hmode, hdvalid]
  have hoperand : operandRejection i t = operandRejection i s := by
    cases i <;> simp [operandRejection, pushRejection, radixRejection, hmlen, hlen]
  rw [rejection, rejection, hvalid, hoperand]

/-- What a running command was checked on does not change while it runs (R121). -/
theorem seqInv_congr {s t : State} (hs : SeqInv s) (hbusy : t.status.busy = s.status.busy) (hseq : t.seq = s.seq)
    (hchecks : checkInputs t = checkInputs s) : SeqInv t where
  busy_iff_run := by rw [hbusy, hseq]; exact hs.busy_iff_run
  idle_pcmd := by rw [hseq]; exact hs.idle_pcmd
  idle_block := by rw [hseq]; exact hs.idle_block
  no_block_step := by rw [hseq]; exact hs.no_block_step
  run_accepted := by simp only [hseq, rejection_congr hchecks]; exact hs.run_accepted

/-- The sequencer of an idle MDE (R40). -/
theorem seqInv_idle {s : State} (hbusy : s.status.busy = false) (hphase : s.seq.phase = .idle)
    (hpcmd : s.seq.pcmd = 0) (hblock : s.seq.block = .idle) (hstep : s.seq.step = 0) : SeqInv s where
  busy_iff_run := by simp [hbusy, hphase]
  idle_pcmd _ := hpcmd
  idle_block _ := hblock
  no_block_step _ := hstep
  run_accepted h := by cases hphase.symm.trans h

theorem phase_of_busy_false {s : State} (hs : SeqInv s) (hb : s.status.busy = false) : s.seq.phase = .idle := by
  cases hp : s.seq.phase with
  | idle => rfl
  | run => exact (Bool.false_ne_true (hb.symm.trans (hs.busy_iff_run.mpr hp))).elim

/-- Recording an error keeps the error fields consistent (R26, R282). -/
theorem statusInv_errored {s : State} (hs : StatusInv s) {e : ErrCode} (he : e ≠ .none) :
    StatusInv (errored e s) := by
  refine { hs with err_clear := nofun, err_code := fun _ => ?_ }
  change (if s.status.err then s.status.errCode else e) ≠ .none
  split_ifs with h
  · exact hs.err_code h
  · exact he

/-- A refused access keeps the invariant of the registers (R282). -/
theorem registerInv_errored {s : State} (hs : RegisterInv s) {e : ErrCode} (he : e ≠ .none) :
    RegisterInv (errored e s) :=
  ⟨statusInv_errored hs.status he, { hs.stream with }, { hs.data with }⟩

/-- So does a rejected command, which may clear OUT_LEN and OVALID (R245). -/
theorem registerInv_reject {s : State} (hs : RegisterInv s) {e : ErrCode} (he : e ≠ .none) :
    RegisterInv (reject e s) := by
  by_cases hradix : e = .badRadix
  · subst hradix
    rw [reject, recordError_eq_errored]
    refine registerInv_errored (s := { s with outLen := 0, status := { s.status with ovalid := false } })
      ⟨{ hs.status with }, { hs.stream with }, ?_⟩ he
    exact { hs.data with out_len_zero := fun _ => rfl, out_len_le := Nat.zero_le _, out_tail := nofun }
  · rw [reject_eq_recordError hradix, recordError_eq_errored]
    exact registerInv_errored hs he

theorem checkInputs_reject (e : ErrCode) (s : State) : checkInputs (reject e s) = checkInputs s := by
  have hstatus := reject_status e s
  rw [reject_frame, hstatus]
  rfl

theorem reject_seq (e : ErrCode) (s : State) : (reject e s).seq = s.seq := by rw [reject_frame]

/-- An accepted word is the one of an engine command that passes every check (R122, R123). -/
theorem accepted_of_verdict {v : Word} {s : State} (h : verdict v s = .accept) :
    ∃ i : Instr, decodeCmd v = .ok i ∧ i.isEngine = true ∧ rejection i s = none ∧ s.status.busy = false := by
  obtain ⟨i, hdec, hi⟩ := decode_of_verdict_accept h
  have hword : cmdWord i = v := by rw [cmdWord, (encodeOfDecodeIsIdentity _ _ hdec).2]
  rw [← hword, verdict_cmdWord hi] at h
  split_ifs at h with hb
  cases hr : rejection i s with
  | none => exact ⟨i, hdec, hi, hr, Bool.eq_false_iff.mpr hb⟩
  | some e => simp [hr] at h

/-! ## Every step keeps the invariant -/

/-- Out of reset the invariant is that of the sequencer and that of the registers. -/
theorem inv_of_released {s : State} (hr : s.rst = .released) (hseq : SeqInv s) (hregs : RegisterInv s) : Inv s :=
  ⟨hseq, hregs.status, hregs.stream, hregs.data, by simp [hr], fun h => by cases hr.symm.trans h⟩

theorem registerInv_of_inv {s : State} (h : Inv s) : RegisterInv s := ⟨h.status, h.stream, h.data⟩

/-- The inbox, the turn and what the bus answered are no part of it. -/
theorem registerInv_frame {s : State} (hs : RegisterInv s) (es : List Event) (tn : Turn) (x : Word) :
    RegisterInv { s with inbox := es, turn := tn, rdata := x } :=
  ⟨{ hs.status with }, { hs.stream with }, { hs.data with }⟩

theorem inv_accept {s : State} (hs : Inv s) {v : Word} (hw : writesCmd v s) (hv : verdict v s = .accept) (tn : Turn) :
    Inv (accept v { s with inbox := s.inbox.tail, turn := tn }) := by
  obtain ⟨i, hdec, hi, hrej, hb⟩ := accepted_of_verdict hv
  have hidle := phase_of_busy_false hs.seq hb
  have hblock := hs.seq.idle_block hidle
  refine inv_of_released hw.1 ?_ ⟨{ hs.status with busy_not_done := fun _ => rfl }, { hs.stream with }, { hs.data with }⟩
  exact
    { busy_iff_run := ⟨fun _ => rfl, fun _ => rfl⟩, idle_pcmd := nofun, idle_block := nofun
      no_block_step := hs.seq.no_block_step
      run_accepted := fun _ => ⟨i, hdec, hi, (rejection_congr (by rfl) i).trans hrej⟩ }

theorem inv_completion {s : State} (hs : Inv s) {i : Instr} (hc : completes i s) :
    Inv (complete (commandEffect i { s with inbox := s.inbox.tail, turn := .engine })) := by
  obtain ⟨hr, -, hrun, hblock, hdec, hi⟩ := hc
  obtain ⟨j, hdec', -, hrej⟩ := hs.seq.run_accepted hrun
  obtain rfl : i = j := Except.ok.inj (hdec.symm.trans hdec')
  let u : State := { s with inbox := s.inbox.tail, turn := .engine }
  obtain ⟨-, -, -, -, -, -, hseq, hrst, -⟩ := commandEffect_frame i u
  have hseq : (commandEffect i u).seq = s.seq := hseq
  have hu : RegisterInv u := registerInv_frame (registerInv_of_inv hs) _ _ _
  refine inv_of_released (hrst.trans hr) ?_
    (registerInv_complete hi hu rfl ((rejection_congr (by rfl) i).trans hrej))
  refine seqInv_idle rfl rfl rfl ?_ ?_
  · rw [complete_seq, hseq]
    exact hblock
  · rw [complete_seq, hseq]
    exact hs.seq.no_block_step (by simp [hblock])

theorem inv_microStep {s : State} (hs : Inv s) (hr : s.rst = .released) (hrun : s.seq.phase = .run) :
    Inv (microStep (roundFn s.seq.step) s.seq.step { s with inbox := s.inbox.tail, turn := .engine }) := by
  refine inv_of_released hr ?_ ⟨{ hs.status with }, { hs.stream with }, { hs.data with }⟩
  refine ⟨hs.seq.busy_iff_run, hs.seq.idle_pcmd, fun h => (by cases hrun.symm.trans h), fun h => ?_, fun h => ?_⟩
  · have hlast : s.seq.step = 63 := by
      by_contra hne
      exact h (if_neg hne)
    change s.seq.step + 1 = 0
    rw [hlast]
    rfl
  · obtain ⟨i, hdec, hi, hrej⟩ := hs.seq.run_accepted hrun
    exact ⟨i, hdec, hi, (rejection_congr (by rfl) i).trans hrej⟩

theorem inv_microFold {s : State} (hs : Inv s) (hr : s.rst = .released) :
    Inv (microFold { s with inbox := s.inbox.tail }) := by
  refine inv_of_released hr ?_ ⟨{ hs.status with }, { hs.stream with }, { hs.data with }⟩
  refine ⟨hs.seq.busy_iff_run, hs.seq.idle_pcmd, fun _ => rfl, fun _ => rfl, fun h => ?_⟩
  obtain ⟨i, hdec, hi, hrej⟩ := hs.seq.run_accepted h
  exact ⟨i, hdec, hi, (rejection_congr (by rfl) i).trans hrej⟩

theorem inv_store {s : State} (hs : Inv s) {r : Reg} (hw : writesReg r.offset s) (v : Word) :
    Inv (storeReg r v { s with inbox := s.inbox.tail }) := by
  obtain ⟨hr, hb, -⟩ := hw
  have hidle := phase_of_busy_false hs.seq hb
  have hblock := hs.seq.idle_block hidle
  have hwf := storeReg_alpha_wf r v { s with inbox := s.inbox.tail } hs.data.alpha_wf
  have hwithin := storeReg_alpha_within r v { s with inbox := s.inbox.tail } hs.data.alpha_within
  rw [storeReg_frame]
  refine inv_of_released hr ?_ ⟨{ hs.status with }, { hs.stream with }, ?_⟩
  · exact seqInv_idle hb hidle (hs.seq.idle_pcmd hidle) hblock (hs.seq.no_block_step (by simp [hblock]))
  · exact { hs.data with alpha_wf := hwf, alpha_within := hwithin }

theorem inv_quiet {s : State} (hs : Inv s) {r : RstInput} (hr : r = s.rst ∨ r = .released) (x : Word) (n : Nat) :
    Inv { s with rst := r, inbox := s.inbox.tail, rdata := x, freeCount := n } := by
  refine ⟨seqInv_congr hs.seq rfl rfl rfl, { hs.status with },
    { hs.stream with }, { hs.data with }, ?_, fun h => ?_⟩
  · rcases hr with rfl | rfl
    · exact hs.since_reset
    · exact nofun
  · have hasserted : s.rst = .asserted := by
      rcases hr with rfl | rfl
      · exact h
      · cases h
    have hreset := hs.in_reset hasserted
    conv_rhs => rw [← hreset]
    rfl

/-- Settles O57: from the first reset on a step resets, takes a write, refuses an access or lets the engine work, and each
of these keeps the invariant. -/
theorem stepKeepsInvariant : Obligations.StepKeepsInvariant := by
  intro s t hs h
  cases step_cases hs.since_reset h with
  | reset _ hr tn => exact inv_hwReset hr
  | accept hw hv tn => exact inv_accept hs hw hv tn
  | completion hc => exact inv_completion hs hc
  | microStep hr _ hrun _ => exact inv_microStep hs hr hrun
  | microFold hr _ _ _ => exact inv_microFold hs hr
  | store hw _ _ => exact inv_store hs hw _
  | quiet hr x n => exact inv_quiet hs hr x n
  | ack hw hb tn =>
    refine inv_of_released hw.1 (seqInv_congr hs.seq rfl rfl rfl)
      ⟨?_, { hs.stream with }, { hs.data with }⟩
    exact { hs.status with busy_not_done := fun _ => rfl, err_clear := fun _ => ⟨rfl, rfl⟩, err_code := nofun }
  | @rejected v e hw hv tn =>
    let u : State := { s with inbox := s.inbox.tail, turn := tn }
    have hrst : (reject e u).rst = .released := by
      rw [reject_frame]
      exact hw.1
    refine inv_of_released hrst (seqInv_congr hs.seq (reject_busy e u) (reject_seq e u) (checkInputs_reject e u))
      (registerInv_reject (registerInv_frame (registerInv_of_inv hs) _ _ _) (ne_none_of_verdict_reject hv))
  | @refusal e hr he x =>
    have hne : e ≠ .none := by rcases he with rfl | rfl <;> decide
    have hregs : RegisterInv (errored e { s with inbox := s.inbox.tail, rdata := x }) :=
      registerInv_errored (registerInv_frame (registerInv_of_inv hs) _ s.turn x) hne
    rw [recordError_eq_errored]
    exact inv_of_released hr (seqInv_congr hs.seq rfl rfl rfl) hregs

/-! ## An engine left alone comes to rest -/

/-- The turns the engine still needs: the steps of a compression in progress, its fold, and the completion (R172, R126). -/
def turnsLeft (q : Machine.Seq) : Nat :=
  match q.phase, q.block with
  | .idle, _ => 0
  | .run, .idle => 1
  | .run, .fold => 2
  | .run, .step => 66 - q.step.toNat

theorem turnsLeft_le (q : Machine.Seq) : turnsLeft q ≤ 66 := by
  unfold turnsLeft
  split <;> omega

theorem turnsLeft_le_one {q : Machine.Seq} (h : q.block = .idle) : turnsLeft q ≤ 1 := by
  rw [turnsLeft, h]
  cases q.phase
  · exact Nat.zero_le 1
  · exact le_refl 1

/-- A step of the compression takes one turn off (R172). -/
theorem turnsLeft_step {q : Machine.Seq} (hrun : q.phase = .run) (hblock : q.block = .step) :
    turnsLeft q = turnsLeft { q with step := q.step + 1, block := if q.step = 63 then .fold else .step } + 1 := by
  have hlt := q.step.isLt
  simp only [turnsLeft, hrun, hblock]
  by_cases hlast : q.step = 63
  · rw [if_pos hlast, hlast]
    rfl
  · have hne : q.step.toNat ≠ 63 := fun h => hlast (BitVec.eq_of_toNat_eq h)
    rw [if_neg hlast, BitVec.toNat_add]
    change _ = 66 - (q.step.toNat + 1) % 64 + 1
    omega

/-- With no input to come, a turn of a running engine takes one off. -/
theorem step_turnsLeft {s : State} (hs : Inv s) (hr : s.rst = .released) (hin : s.inbox = [])
    (hrun : s.seq.phase = .run) :
    ∃ t, step s = .next t ∧ t.rst = .released ∧ t.inbox = [] ∧ turnsLeft s.seq = turnsLeft t.seq + 1 := by
  have hnext : nextIn s = .engine := by rw [nextIn, hin]; rfl
  have htail : s.inbox.tail = [] := by rw [hin]; rfl
  cases hblock : s.seq.block with
  | idle =>
    obtain ⟨i, hdec, hi, -⟩ := hs.seq.run_accepted hrun
    obtain ⟨-, -, -, -, -, -, -, hrst, hinbox⟩ := commandEffect_frame i { s with inbox := s.inbox.tail, turn := .engine }
    refine ⟨_, step_of_completes ⟨hr, hnext, hrun, hblock, hdec, hi⟩, hrst.trans hr, hinbox.trans htail, ?_⟩
    simp only [turnsLeft, hrun, hblock, complete_seq]
  | fold =>
    have hstep : step s = .next (microFold { s with inbox := s.inbox.tail }) := by
      rw [step_live hr, hnext]
      simp only [eventLive, engineTurn, hrun, hblock]
    refine ⟨_, hstep, hr, htail, ?_⟩
    change turnsLeft s.seq = turnsLeft { s.seq with step := 0, block := .idle } + 1
    simp only [turnsLeft, hrun, hblock]
  | step =>
    exact ⟨_, (step_microStep hr hnext hrun hblock rfl).trans (exec_decodeSeq _ _), hr, htail,
      turnsLeft_step hrun hblock⟩

/-- With no input to come and nothing to do, MDE stays as it is (R323). -/
theorem step_idle {s : State} (hr : s.rst = .released) (hin : s.inbox = []) (hidle : s.seq.phase = .idle) :
    step s = .next s := by
  have hstep : step s = event .engine s := by rw [step, nextEvent, hin]
  rw [hstep, event_live hr]
  simp only [eventLive, engineTurn, hidle]

/-- An engine left alone comes to rest after the turns it still needs, and stays there (R124, R323). -/
theorem steps_turnsLeft {n : Nat} {s : State} (hs : Inv s) (hr : s.rst = .released) (hin : s.inbox = [])
    (hn : turnsLeft s.seq = n) : ∃ t, steps n s = some t ∧ t.status.busy = false ∧ step t = .next t := by
  induction n generalizing s with
  | zero =>
    have hidle : s.seq.phase = .idle := by
      cases hphase : s.seq.phase with
      | idle => rfl
      | run =>
        obtain ⟨t, -, -, -, hturns⟩ := step_turnsLeft hs hr hin hphase
        omega
    have hbusy : s.status.busy = false := by
      rw [Bool.eq_false_iff]
      exact fun hb => by cases hidle.symm.trans (hs.seq.busy_iff_run.mp hb)
    exact ⟨s, rfl, hbusy, step_idle hr hin hidle⟩
  | succ n ih =>
    have hrun : s.seq.phase = .run := by
      cases hphase : s.seq.phase with
      | run => rfl
      | idle => simp [turnsLeft, hphase] at hn
    obtain ⟨t, hstep, hr', hin', hturns⟩ := step_turnsLeft hs hr hin hrun
    obtain ⟨u, hu, hrest⟩ := ih (stepKeepsInvariant s t hs hstep) hr' hin' (by omega)
    exact ⟨u, by simp only [steps, hstep, hu], hrest⟩

/-- Settles O59: the turns a running engine still needs are at most 66, and one outside a compression. -/
theorem idleWithinBoundedTurns : Obligations.IdleWithinBoundedTurns := by
  intro s hs hr hin
  obtain ⟨t, hsteps, ht⟩ := steps_turnsLeft hs hr hin rfl
  exact ⟨turnsLeft s.seq, t, turnsLeft_le _, turnsLeft_le_one, hsteps, ht⟩

end Sys2Proof.Proofs
end

section
/-!
SUPPORT. The model's host at work (49_host_side.md R266 to R268): however its polls and the engine's turns interleave, its
commands and pushes leave MDE as the sequence of the session does, up to the last value read.
-/

namespace Sys2Proof.Proofs

open Sys2Proof.Machine Sys2Proof.Claims

/-! ## MDE between the accesses of a host -/

/-- `t` is `s` but for the last read and the model's own turn (log entry 1). -/
def SameButRead (s t : State) : Prop := ∃ (x : Word) (tn : Turn), t = { s with rdata := x, turn := tn }

theorem SameButRead.refl (s : State) : SameButRead s s := ⟨s.rdata, s.turn, rfl⟩

theorem SameButRead.trans {s t u : State} (hst : SameButRead s t) (htu : SameButRead t u) : SameButRead s u := by
  obtain ⟨x, tn, rfl⟩ := hst
  obtain ⟨y, tm, rfl⟩ := htu
  exact ⟨y, tm, rfl⟩

/-- MDE takes commands, and no compression is in progress step by step (log entry 3): each turn of the engine ends what
is running. -/
structure Awaited (s : State) : Prop where
  inv : Inv s
  rst : s.rst = .released
  block : s.seq.block = .idle

/-- MDE is idle. -/
structure AtRest (s : State) : Prop where
  inv : Inv s
  ready : Ready s

theorem AtRest.awaited {s : State} (hs : AtRest s) : Awaited s := ⟨hs.inv, hs.ready.rst, hs.ready.block⟩

theorem Awaited.atRest {s : State} (hs : Awaited s) (hb : s.status.busy = false) : AtRest s :=
  ⟨hs.inv, hs.rst, hb, hs.block⟩

theorem Awaited.same {s t : State} (hs : Awaited s) (h : SameButRead s t) : Awaited t := by
  obtain ⟨x, tn, rfl⟩ := h
  obtain ⟨hinv, hr, hblock⟩ := hs
  exact ⟨inv_of_released hr (seqInv_congr hinv.seq rfl rfl rfl) (registerInv_frame (registerInv_of_inv hinv) _ tn x),
    hr, hblock⟩

theorem AtRest.same {s t : State} (hs : AtRest s) (h : SameButRead s t) : AtRest t := by
  have hbusy : t.status.busy = false := by
    obtain ⟨x, tn, rfl⟩ := h
    exact hs.ready.busy
  exact (hs.awaited.same h).atRest hbusy

/-- An event keeps the invariant (O57). -/
theorem inv_stepOn {s t : State} (hs : Inv s) (hr : s.rst = .released) {e : Event} (h : stepOn e s = .next t) : Inv t :=
  stepKeepsInvariant { s with inbox := e :: s.inbox } t
    (inv_of_released hr (seqInv_setInbox hs.seq _) (registerInv_frame (registerInv_of_inv hs) _ s.turn s.rdata)) h

/-! ## The engine's turn -/

/-- A command neither reads nor writes the last read. -/
theorem complete_commandEffect_rdata (i : Instr) (u : State) (x : Word) :
    complete (commandEffect i { u with rdata := x }) = { complete (commandEffect i u) with rdata := x } := by
  have heffect := commandEffect_withErrors (t := { u with rdata := x }) (s := u) i
  obtain ⟨herr, hovf, hcode⟩ := commandEffect_sameErrors i u
  change commandEffect i { u with rdata := x } = _ at heffect
  rw [heffect, withErrors, ← herr, ← hovf, ← hcode]
  rfl

/-- The engine's turn finds MDE idle or completes the running command (R125, R126, R323), whatever was read before. -/
theorem stepOn_engine_awaited {s : State} (hs : Awaited s) :
    (s.status.busy = false ∧
      ∀ (x : Word) (tn : Turn),
        stepOn .engine { s with rdata := x, turn := tn } = .next { s with rdata := x, turn := tn }) ∨
    ∃ i : Instr, ∀ (x : Word) (tn : Turn), stepOn .engine { s with rdata := x, turn := tn } =
      .next (complete (commandEffect i { s with rdata := x, turn := .engine })) := by
  obtain ⟨hinv, hr, hblock⟩ := hs
  cases hphase : s.seq.phase with
  | idle =>
    have hbusy : s.status.busy = false := by
      rw [Bool.eq_false_iff]
      exact fun hb => by cases hphase.symm.trans (hinv.seq.busy_iff_run.mp hb)
    refine .inl ⟨hbusy, fun x tn => ?_⟩
    rw [stepOn_live (by exact hr)]
    simp only [eventLive, engineTurn, hphase]
  | run =>
    obtain ⟨i, hdec, hi, -⟩ := hinv.seq.run_accepted hphase
    refine .inr ⟨i, fun x tn => ?_⟩
    rw [stepOn_engine (s := { s with rdata := x, turn := tn }) hr hphase hblock hdec hi]
    exact exec_engine hi rfl

/-- After the engine's turn MDE is idle, with the errors and CONFIG as before (R125, R126). -/
theorem stepOn_engine_rest {s : State} (hs : Awaited s) :
    ∃ t, stepOn .engine s = .next t ∧ AtRest t ∧ sameErrors s t ∧ t.cfg = s.cfg := by
  obtain ⟨hbusy, hstep⟩ | ⟨i, hstep⟩ := stepOn_engine_awaited hs
  · exact ⟨s, hstep s.rdata s.turn, hs.atRest hbusy, sameErrors_refl s, rfl⟩
  · have hstep : stepOn .engine s = .next (complete (commandEffect i { s with turn := .engine })) :=
      hstep s.rdata s.turn
    obtain ⟨hcfg, -, -, -, -, -, hseq, hrst, -⟩ := commandEffect_frame i { s with turn := .engine }
    have hseq : (commandEffect i { s with turn := .engine }).seq = s.seq := hseq
    have hblock : (complete (commandEffect i { s with turn := .engine })).seq.block = .idle := by
      rw [complete_seq, hseq]
      exact hs.block
    exact ⟨_, hstep, ⟨inv_stepOn hs.inv hs.rst hstep, hrst.trans hs.rst, rfl, hblock⟩,
      commandEffect_sameErrors i { s with turn := .engine }, hcfg⟩

/-- What was read before does not matter to the engine's turn. -/
theorem stepOn_engine_same {s t u : State} (hs : Awaited s) (h : SameButRead s u) (hstep : stepOn .engine s = .next t) :
    ∃ v, stepOn .engine u = .next v ∧ SameButRead t v := by
  obtain ⟨x, tn, rfl⟩ := h
  obtain ⟨-, hall⟩ | ⟨i, hall⟩ := stepOn_engine_awaited hs
  · cases (hall s.rdata s.turn).symm.trans hstep
    exact ⟨_, hall x tn, x, tn, rfl⟩
  · cases (hall s.rdata s.turn).symm.trans hstep
    refine ⟨_, hall x tn, x, (complete (commandEffect i { s with turn := .engine })).turn, ?_⟩
    exact complete_commandEffect_rdata i { s with turn := .engine } x

/-! ## Accesses of the host -/

theorem access_of_stepOn {e : Event} {h : HostEnv} {t : State} (hstep : stepOn e h.mde = .next t) :
    h.access e = .ok { h with mde := t } := by
  rw [HostEnv.access, hstep]

/-- A host read gives the register's value (R63). -/
theorem read_eq {h : HostEnv} (hr : h.mde.rst = .released) (r : Reg) :
    h.read r = .ok (readReg r h.mde, { h with mde := { h.mde with rdata := readReg r h.mde } }) := by
  rw [HostEnv.read, access_of_stepOn (stepOn_readFrom hr r)]
  rfl

/-- Polls of STATUS end when one reads BUSY = 0 and change nothing of MDE but the last read (R100). -/
theorem poll_spec (n : Nat) {h : HostEnv} (hr : h.mde.rst = .released) :
    ∃ (b : Bool) (g : HostEnv), h.poll n = .ok (b, g) ∧ SameButRead h.mde g.mde ∧
      (b = true → h.mde.status.busy = false) := by
  induction n generalizing h with
  | zero => exact ⟨false, h, rfl, .refl _, nofun⟩
  | succ n ih =>
    have hpoll : h.poll (n + 1) =
        if h.mde.status.busy then { h with mde := { h.mde with rdata := readReg .status h.mde } }.poll n
        else .ok (true, { h with mde := { h.mde with rdata := readReg .status h.mde } }) := by
      rw [HostEnv.poll, read_eq hr, ← statusWord_getLsbD_busy]
      rfl
    rw [hpoll]
    cases hb : h.mde.status.busy with
    | false => exact ⟨true, _, rfl, ⟨_, h.mde.turn, rfl⟩, fun _ => rfl⟩
    | true =>
      obtain ⟨b, g, hrest, hsame, hidle⟩ :=
        ih (h := { h with mde := { h.mde with rdata := readReg .status h.mde } }) hr
      refine ⟨b, g, hrest, .trans ⟨_, h.mde.turn, rfl⟩ hsame, fun htrue => ?_⟩
      exact hb.symm.trans (hidle htrue)

/-- An engine with nothing to do leaves MDE as it is (R323). -/
theorem stepOn_engine_idle {s : State} (hs : AtRest s) : stepOn .engine s = .next s := by
  rw [stepOn_live hs.ready.rst]
  simp only [eventLive, engineTurn, phase_of_busy_false hs.inv.seq hs.ready.busy]

/-- A turn of the engine and a poll are enough outside a compression (R126). -/
theorem waitTurns_spec (n : Nat) {h : HostEnv} {s t : State} (hs : Awaited s) (hsame : SameButRead s h.mde)
    (hstep : stepOn .engine s = .next t) : ∃ g, h.waitTurns (n + 1) = .ok g ∧ SameButRead t g.mde := by
  obtain ⟨u, hu, hsame'⟩ := stepOn_engine_same hs hsame hstep
  obtain ⟨t', hstep', hrest, -⟩ := stepOn_engine_rest hs
  cases hstep'.symm.trans hstep
  obtain ⟨hinv, hr, hb, hblock⟩ := hrest.same hsame'
  have hread : (statusWord u.status).getLsbD 0 = false := (statusWord_getLsbD_busy _).trans hb
  refine ⟨{ h with mde := { u with rdata := readReg .status u } }, ?_, hsame'.trans ⟨_, u.turn, rfl⟩⟩
  rw [HostEnv.waitTurns, access_of_stepOn hu]
  change (HostEnv.read .status { h with mde := u } >>= _) = _
  rw [read_eq (by exact hr)]
  change (if (statusWord u.status).getLsbD 0 then _ else pure _) = _
  rw [hread]
  rfl

/-- WAIT leaves MDE as the engine's turn does (R100, R126). -/
theorem wait_spec {h : HostEnv} {s t : State} (hs : Awaited s) (hsame : SameButRead s h.mde)
    (hstep : stepOn .engine s = .next t) : ∃ g, h.wait = .ok g ∧ SameButRead t g.mde := by
  have hlive := hs.same hsame
  obtain ⟨b, k, hpoll, hk, hidle⟩ := poll_spec (h.polls.headD 0) (h := { h with polls := h.polls.tail }) hlive.rst
  have hwait : h.wait = if b then .ok k else k.waitTurns turnsToRest := by
    rw [HostEnv.wait, hpoll]
    rfl
  rw [hwait]
  cases b with
  | true =>
    obtain ⟨x, tn, hmde⟩ := hsame
    have hbusy : s.status.busy = false := by
      have hbusy := hidle rfl
      rwa [hmde] at hbusy
    cases (stepOn_engine_idle (hs.atRest hbusy)).symm.trans hstep
    exact ⟨k, rfl, .trans ⟨x, tn, hmde⟩ hk⟩
  | false => exact waitTurns_spec 65 hs (hsame.trans hk) hstep

/-! ## Sequences of accesses -/

/-- A host procedure leaves MDE as these events do, up to the last read, with CONFIG as before. -/
def Performs (es : List Event) (f : HostEnv → HostResult HostEnv) : Prop :=
  ∀ (h : HostEnv) (s : State), AtRest s → SameButRead s h.mde →
    ∃ (g : HostEnv) (t : State), f h = .ok g ∧ run es s = some t ∧ AtRest t ∧ SameButRead t g.mde ∧ t.cfg = s.cfg

theorem performs_bind {es fs : List Event} {f k : HostEnv → HostResult HostEnv} (hf : Performs es f)
    (hk : Performs fs k) : Performs (es ++ fs) fun h => f h >>= k := by
  intro h s hs hsame
  obtain ⟨g, t, hfh, hrun, ht, hsame', hcfg⟩ := hf h s hs hsame
  obtain ⟨p, u, hkg, hrun', hu, hsame'', hcfg'⟩ := hk g t ht hsame'
  refine ⟨p, u, ?_, ?_, hu, hsame'', hcfg'.trans hcfg⟩
  · change f h >>= k = _
    rw [hfh]
    exact hkg
  · rw [run_append, hrun]
    exact hrun'

/-- WAIT on an idle MDE changes nothing. -/
theorem performs_wait : Performs [] HostEnv.wait := by
  intro h s hs hsame
  obtain ⟨g, hwait, hg⟩ := wait_spec hs.awaited hsame (stepOn_engine_idle hs)
  exact ⟨g, s, hwait, rfl, hs, hg, rfl⟩

/-- A write to a register leaves the rest of MDE (R64). -/
theorem storeReg_same (r : Reg) (v : Word) {s t : State} (h : SameButRead s t) :
    SameButRead (storeReg r v s) (storeReg r v t) := by
  obtain ⟨x, tn, rfl⟩ := h
  cases r <;> exact ⟨x, tn, rfl⟩

/-- A store to an idle MDE leaves it idle. -/
theorem atRest_storeReg {s : State} (hs : AtRest s) {r : Reg} (hr : r.access = .rw) (v : Word) :
    AtRest (storeReg r v s) := by
  have hinv := inv_stepOn hs.inv hs.ready.rst (stepOn_store hs.ready.rst hs.ready.busy hr v)
  obtain ⟨hrst, hbusy, hblock⟩ := hs.ready
  refine ⟨hinv, (storeReg_rst r v s).trans hrst, ?_, ?_⟩
  · rw [storeReg_status]
    exact hbusy
  · rw [storeReg_frame]
    exact hblock

theorem write_eq {h : HostEnv} (hs : AtRest h.mde) {r : Reg} (hr : r.access = .rw) (v : Word) :
    h.write r v = .ok { h with mde := storeReg r v h.mde } :=
  access_of_stepOn (stepOn_store hs.ready.rst hs.ready.busy hr v)

theorem performs_writeDataIn (v : Word) : Performs [writeTo .dataIn v] (HostEnv.write .dataIn v) := by
  intro h s hs hsame
  refine ⟨_, storeReg .dataIn v s, write_eq (hs.same hsame) rfl v, ?_, atRest_storeReg hs rfl v,
    storeReg_same _ v hsame, rfl⟩
  exact run_cons_next (stepOn_store hs.ready.rst hs.ready.busy rfl v) []

/-- What a CMD write does depends on neither the last read nor the turn (R122). -/
theorem cmdOutcome_same (v : Word) {s t : State} (h : SameButRead s t) :
    SameButRead (cmdOutcome v s) (cmdOutcome v t) := by
  obtain ⟨x, tn, rfl⟩ := h
  have hverdict : verdict v { s with rdata := x, turn := tn } = verdict v s := rfl
  refine ⟨x, tn, ?_⟩
  unfold cmdOutcome
  rw [hverdict]
  cases verdict v s with
  | reject e => cases e <;> rfl
  | _ => rfl

/-- The write of a command leaves an MDE that the next turn of the engine brings to rest (R122, R123). -/
theorem awaited_cmdOutcome {i : Instr} (hi : i.isEngine = true) {s : State} (hs : AtRest s) (tn : Turn)
    (hstep : stepOn (writeTo .cmd (cmdWord i)) s = .next (cmdOutcome (cmdWord i) { s with turn := tn })) :
    Awaited (cmdOutcome (cmdWord i) { s with turn := tn }) ∧
      (cmdOutcome (cmdWord i) { s with turn := tn }).cfg = s.cfg := by
  have hinv := inv_stepOn hs.inv hs.ready.rst hstep
  obtain ⟨hrst, hbusy, hblock⟩ := hs.ready
  suffices h : (cmdOutcome (cmdWord i) { s with turn := tn }).rst = s.rst ∧
      (cmdOutcome (cmdWord i) { s with turn := tn }).seq.block = s.seq.block ∧
      (cmdOutcome (cmdWord i) { s with turn := tn }).cfg = s.cfg by
    obtain ⟨hrst', hblock', hcfg⟩ := h
    exact ⟨⟨hinv, hrst'.trans hrst, hblock'.trans hblock⟩, hcfg⟩
  have hverdict := verdict_cmdWord hi { s with turn := tn }
  cases hrej : rejection i { s with turn := tn } with
  | none =>
    rw [cmdOutcome_accepted (by simp [hverdict, hbusy, hrej])]
    exact ⟨rfl, rfl, rfl⟩
  | some e =>
    rw [cmdOutcome_rejected (e := e) (by simp [hverdict, hbusy, hrej]), reject_frame]
    exact ⟨rfl, rfl, rfl⟩

/-- A write to CMD follows R122. -/
theorem stepOn_writeCmd {s : State} (hr : s.rst = .released) (v : Word) :
    ∃ tn : Turn, stepOn (writeTo .cmd v) s = .next (cmdOutcome v { s with turn := tn }) := by
  obtain ⟨tn, hwrite⟩ := writeCmd_eq_cmdOutcome v s
  exact ⟨tn, (stepOn_live hr _).trans hwrite⟩

/-- A command and the WAIT after it leave MDE as the write and the engine's turn do (R266). -/
theorem performs_command {i : Instr} (hi : i.isEngine = true) : Performs (command i) (HostEnv.command i) := by
  intro h s hs hsame
  obtain ⟨tn, hwrite⟩ := stepOn_writeCmd hs.ready.rst (cmdWord i)
  obtain ⟨tm, hwrite'⟩ := stepOn_writeCmd (hs.same hsame).ready.rst (cmdWord i)
  obtain ⟨hawaited, hcfg⟩ := awaited_cmdOutcome hi hs tn hwrite
  obtain ⟨t, hengine, ht, -, hcfg'⟩ := stepOn_engine_rest hawaited
  have hsame' : SameButRead (cmdOutcome (cmdWord i) { s with turn := tn })
      (cmdOutcome (cmdWord i) { h.mde with turn := tm }) := by
    refine cmdOutcome_same _ ?_
    obtain ⟨x, tk, hmde⟩ := hsame
    rw [hmde]
    exact ⟨x, tm, rfl⟩
  obtain ⟨g, hwait, hg⟩ :=
    wait_spec (h := { h with mde := cmdOutcome (cmdWord i) { h.mde with turn := tm } }) hawaited hsame' hengine
  refine ⟨g, t, ?_, ?_, ht, hg, hcfg'.trans hcfg⟩
  · rw [HostEnv.command, HostEnv.write, access_of_stepOn hwrite']
    exact hwait
  · rw [command, run_cons_next hwrite, run_cons_next hengine]
    rfl

/-- Pushing a group (R266). -/
theorem performs_pushGroup (g : List Byte) : Performs (pushGroup g) (HostEnv.pushGroup g) :=
  performs_bind (performs_writeDataIn (dataWord g)) (performs_command rfl)

/-- Pushing groups in order (R266). -/
theorem performs_pushGroups (gs : List (List Byte)) :
    Performs (pushGroups gs) fun h => gs.foldlM (fun k g => k.pushGroup g) h := by
  induction gs with
  | nil => exact fun h s hs hsame => ⟨h, s, rfl, rfl, hs, hsame, rfl⟩
  | cons g gs ih => exact performs_bind (performs_pushGroup g) ih

theorem performs_pushBytes (m : List Byte) : Performs (pushGroups (groupsOf4 m)) (HostEnv.pushBytes m) :=
  performs_pushGroups (groupsOf4 m)

/-- The digest part of R266. -/
theorem performs_md5Digest (text : List (BitVec 16)) :
    Performs (md5Session (groupsOf4 (normalize text))) (HostEnv.md5Digest text) := by
  rw [md5Session, List.append_assoc]
  exact performs_bind (es := []) performs_wait <| performs_bind (performs_command rfl) <|
    performs_bind (performs_pushBytes _) (performs_command rfl)

/-- The digest part of R267. -/
theorem performs_hmacDigest (key data : List (BitVec 16)) :
    Performs (hmacSession (groupsOf4 (normalize key)) (groupsOf4 (normalize data))) (HostEnv.hmacDigest key data) := by
  simp only [hmacSession, List.append_assoc]
  exact performs_bind (performs_command rfl) <| performs_bind (performs_pushBytes _) <|
    performs_bind (performs_command rfl) <| performs_bind (performs_pushBytes _) (performs_command rfl)

/-! ## The digest -/

theorem groupsOf4_length {m g : List Byte} (hg : g ∈ groupsOf4 m) : 1 ≤ g.length ∧ g.length ≤ 4 := by
  obtain ⟨i, hi, rfl⟩ := List.mem_map.mp hg
  have hi := List.mem_range.mp hi
  rw [List.length_take, List.length_drop]
  omega

/-- The first `4 * n` bytes are the first `n` groups. -/
theorem flatten_groups (m : List Byte) (n : Nat) :
    ((List.range n).map fun i => (m.drop (4 * i)).take 4).flatten = m.take (4 * n) := by
  induction n with
  | zero => rfl
  | succ n ih =>
    rw [List.range_succ, List.map_append, List.flatten_append, ih, Nat.mul_succ, List.take_add]
    simp

/-- The groups are the bytes (R266). -/
theorem flatten_groupsOf4 (m : List Byte) : (groupsOf4 m).flatten = m := by
  rw [groupsOf4, flatten_groups, List.take_of_length_le (by omega)]

/-- MDE holds the digest `d` and the configuration `c`, idle, with the errors of `s`. -/
structure Digested (d : List Byte) (c : Cfg) (s t : State) : Prop where
  rest : AtRest t
  digest : t.digest.toList = d
  dvalid : t.status.dvalid = true
  errors : sameErrors s t
  cfg : t.cfg = c

theorem Digested.same {d : List Byte} {c : Cfg} {s t u : State} (h : Digested d c s t) (hsame : SameButRead t u) :
    Digested d c s u := by
  have hrest := h.rest.same hsame
  obtain ⟨x, tn, rfl⟩ := hsame
  exact { h with rest := hrest }

/-- The digest part of R266 leaves the MD5 of the normalised text (R180). -/
theorem md5Digest_digested {h : HostEnv} (hs : AtRest h.mde) {text : List (BitVec 16)}
    (hlen : (normalize text).length ≤ 2 ^ 61 - 65) :
    ∃ g, h.md5Digest text = .ok g ∧ Digested (md5 (normalize text)) h.mde.cfg h.mde g.mde := by
  obtain ⟨g, t, hperf, hrun, ht, hsame, hcfg⟩ := performs_md5Digest text h h.mde hs (.refl _)
  obtain ⟨t', hrun', hdigest, hdvalid, -, -, -, herr⟩ :=
    md5SessionComputesMd5 h.mde (groupsOf4 (normalize text)) hs.ready (fun _ => groupsOf4_length)
      (by rw [flatten_groupsOf4]; omega)
  cases hrun.symm.trans hrun'
  rw [flatten_groupsOf4] at hdigest
  exact ⟨g, hperf, Digested.same ⟨ht, hdigest, hdvalid, herr, hcfg⟩ hsame⟩

/-- The digest part of R267 leaves the HMAC of the normalised key and data (R209). -/
theorem hmacDigest_digested {h : HostEnv} (hs : AtRest h.mde) {key data : List (BitVec 16)}
    (hkey : (normalize key).length ≤ 2 ^ 61 - 65) (hdata : (normalize data).length ≤ 2 ^ 61 - 65) :
    ∃ g, h.hmacDigest key data = .ok g ∧
      Digested (hmac (normalize key) (normalize data)) h.mde.cfg h.mde g.mde := by
  obtain ⟨g, t, hperf, hrun, ht, hsame, hcfg⟩ := performs_hmacDigest key data h h.mde hs (.refl _)
  obtain ⟨t', hrun', hdigest, hdvalid, -, -, herr⟩ :=
    hmacSessionComputesHmac h.mde (groupsOf4 (normalize key)) (groupsOf4 (normalize data)) hs.ready
      (fun _ => groupsOf4_length) (fun _ => groupsOf4_length) (by rwa [flatten_groupsOf4]) (by rwa [flatten_groupsOf4])
  cases hrun.symm.trans hrun'
  rw [flatten_groupsOf4, flatten_groupsOf4] at hdigest
  exact ⟨g, hperf, Digested.same ⟨ht, hdigest, hdvalid, herr, hcfg⟩ hsame⟩

end Sys2Proof.Proofs
end

section
/-!
SUPPORT. Proof of what the entry points return (49_host_side.md R266 to R269).
-/

namespace Sys2Proof.Proofs

open Sys2Proof.Machine Sys2Proof.Claims

/-! ## CHECK and the failure label -/

/-- With ERR = 1 the host acknowledges and the error is gone (R269). -/
theorem failIfErr_fails {h : HostEnv} (hs : AtRest h.mde) (herr : h.mde.status.err = true) :
    FailsWithAck (h.failIfErr (statusWord h.mde.status)) := by
  obtain ⟨tn, hwrite⟩ := stepOn_writeCmd hs.ready.rst (cmdWord .ack)
  have hack : cmdOutcome (cmdWord .ack) { h.mde with turn := tn } = clearStatus { h.mde with turn := tn } :=
    cmdOutcome_ack (verdict_ack (s := { h.mde with turn := tn }) hs.ready.busy)
  obtain ⟨hr, hb, hblock⟩ := hs.ready
  refine ⟨clearStatus { h.mde with turn := tn }, ?_, ⟨hr, hb, hblock⟩, rfl⟩
  rw [HostEnv.failIfErr, statusWord_getLsbD_err, herr, if_pos rfl, HostEnv.write, access_of_stepOn hwrite, hack]
  rfl

/-- With ERR = 0 the host goes on (R100). -/
theorem failIfErr_passes {h : HostEnv} {t : Status} (herr : t.err = false) : h.failIfErr (statusWord t) = .ok h := by
  rw [HostEnv.failIfErr, statusWord_getLsbD_err, herr]
  rfl

theorem check_fails {h : HostEnv} (hs : AtRest h.mde) (herr : h.mde.status.err = true) : FailsWithAck h.check := by
  have hsame : SameButRead h.mde { h.mde with rdata := readReg .status h.mde } := ⟨_, h.mde.turn, rfl⟩
  have hfail := failIfErr_fails (h := { h with mde := { h.mde with rdata := readReg .status h.mde } }) (hs.same hsame)
    herr
  rw [HostEnv.check, read_eq hs.ready.rst]
  exact hfail

theorem check_passes {h : HostEnv} (hs : AtRest h.mde) (herr : h.mde.status.err = false) :
    ∃ k, h.check = .ok k ∧ SameButRead h.mde k.mde := by
  refine ⟨{ h with mde := { h.mde with rdata := readReg .status h.mde } }, ?_, _, h.mde.turn, rfl⟩
  rw [HostEnv.check, read_eq hs.ready.rst]
  exact failIfErr_passes herr

/-- A sequence fails where its first procedure does. -/
theorem failsWithAck_bind {α β : Type} {r : HostResult α} (hr : FailsWithAck r) (k : α → HostResult β) :
    FailsWithAck (r >>= k) := by
  obtain ⟨t, rfl, ht⟩ := hr
  exact ⟨t, rfl, ht⟩

/-! ## A command that fails -/

/-- ERR stays through a command, and a rejected command sets it (R282). -/
theorem run_command_err {i : Instr} (hi : i.isEngine = true) {s t : State} (hs : AtRest s)
    (hrun : run (command i) s = some t) (herr : s.status.err = true ∨ rejection i s ≠ none) : t.status.err = true := by
  obtain ⟨tn, hwrite⟩ := stepOn_writeCmd hs.ready.rst (cmdWord i)
  obtain ⟨hawaited, -⟩ := awaited_cmdOutcome hi hs tn hwrite
  obtain ⟨u, hengine, -, ⟨hsame, -⟩, -⟩ := stepOn_engine_rest hawaited
  rw [command, run_cons_next hwrite, run_cons_next hengine] at hrun
  cases hrun
  have hverdict := verdict_cmdWord hi { s with turn := tn }
  have hbusy := hs.ready.busy
  rw [hsame]
  cases hrej : rejection i s with
  | none =>
    have hrej' : rejection i { s with turn := tn } = none := (rejection_congr (by rfl) i).trans hrej
    rw [cmdOutcome_accepted (by simp [hverdict, hbusy, hrej'])]
    exact herr.resolve_right (absurd hrej)
  | some e =>
    have hrej' : rejection i { s with turn := tn } = some e := (rejection_congr (by rfl) i).trans hrej
    rw [cmdOutcome_rejected (e := e) (by simp [hverdict, hbusy, hrej'])]
    exact (reject_sameErrors e { s with turn := tn }).1

theorem command_err {i : Instr} (hi : i.isEngine = true) {h : HostEnv} (hs : AtRest h.mde)
    (herr : h.mde.status.err = true ∨ rejection i h.mde ≠ none) :
    ∃ g, h.command i = .ok g ∧ AtRest g.mde ∧ g.mde.status.err = true := by
  obtain ⟨g, t, hcommand, hrun, ht, hsame, -⟩ := performs_command hi h h.mde hs (.refl _)
  refine ⟨g, hcommand, ht.same hsame, ?_⟩
  have herr' := run_command_err hi hs hrun herr
  obtain ⟨x, tn, hmde⟩ := hsame
  rw [hmde]
  exact herr'

/-! ## An encoder and the reads of OUT -/

/-- In state `s` the encoder `i` is accepted and writes the symbols `o`. -/
structure Encodes (i : Instr) (o : List Byte) (s : State) : Prop where
  engine : i.isEngine = true
  passes : rejection i s = none
  effect : ∃ u, commandEffect i { accepted (cmdWord i) s with turn := .engine } = setOut o u
  length : o.length ≤ 128

/-- MDE shows the symbols `o`, idle, with the errors of `s`. -/
structure Shows (o : List Byte) (s t : State) : Prop where
  rest : AtRest t
  errors : sameErrors s t
  out : t.out = toBytes 128 o
  outLen : t.outLen = BitVec.ofNat 8 o.length

theorem Shows.same {o : List Byte} {s t u : State} (h : Shows o s t) (hsame : SameButRead t u) : Shows o s u := by
  have hrest := h.rest.same hsame
  obtain ⟨x, tn, rfl⟩ := hsame
  exact { h with rest := hrest }

theorem command_encodes {i : Instr} {o : List Byte} {h : HostEnv} (hs : AtRest h.mde) (hi : Encodes i o h.mde) :
    ∃ g, h.command i = .ok g ∧ Shows o h.mde g.mde := by
  obtain ⟨g, t, hcommand, hrun, ht, hsame, -⟩ := performs_command hi.engine h h.mde hs (.refl _)
  obtain ⟨u, heffect⟩ := hi.effect
  cases (run_command hi.engine hs.ready hi.passes).symm.trans hrun
  refine ⟨g, hcommand, Shows.same ⟨ht, complete_sameErrors i _ h.mde, ?_, ?_⟩ hsame⟩
  · rw [heffect]
    rfl
  · rw [heffect]
    rfl

/-- One read of `readOut`. -/
def readOutWord (x : List Byte × HostEnv) (j : Nat) : HostResult (List Byte × HostEnv) := do
  let (w, k) ← x.2.read (.out (Fin.ofNat 32 j))
  pure (x.1 ++ bytesLe w, k)

theorem readOut_eq (n : Nat) (h : HostEnv) :
    h.readOut n = ((List.range ((n + 3) / 4)).foldlM readOutWord ([], h)).map fun x => (x.1.take n, x.2) := by
  rw [HostEnv.readOut]
  change ((List.range ((n + 3) / 4)).foldlM readOutWord ([], h) >>= _) = _
  cases (List.range ((n + 3) / 4)).foldlM readOutWord ([], h) <;> rfl

/-- The reads of OUT give its words in order (R70). -/
theorem foldlM_readOutWord {js : List Nat} (hjs : ∀ j ∈ js, j < 32) {h : HostEnv} (hr : h.mde.rst = .released)
    (bs : List Byte) :
    ∃ k, js.foldlM readOutWord (bs, h) = .ok (bs ++ js.flatMap (fun j => bytesLe (wordView h.mde.out j)), k) ∧
      SameButRead h.mde k.mde := by
  induction js generalizing h bs with
  | nil => exact ⟨h, by rw [List.flatMap_nil, List.append_nil]; rfl, .refl _⟩
  | cons j js ih =>
    rw [List.forall_mem_cons] at hjs
    obtain ⟨hj, hjs⟩ := hjs
    have hword : readReg (.out (Fin.ofNat 32 j)) h.mde = wordView h.mde.out j := by
      rw [readReg, Fin.val_ofNat, Nat.mod_eq_of_lt hj]
    obtain ⟨k, hfold, hsame⟩ := ih hjs (h := { h with mde := { h.mde with rdata := wordView h.mde.out j } }) hr
      (bs ++ bytesLe (wordView h.mde.out j))
    refine ⟨k, ?_, .trans ⟨_, h.mde.turn, rfl⟩ hsame⟩
    have hstep : readOutWord (bs, h) j =
        .ok (bs ++ bytesLe (wordView h.mde.out j), { h with mde := { h.mde with rdata := wordView h.mde.out j } }) := by
      rw [readOutWord, read_eq hr, hword]
      rfl
    rw [List.foldlM_cons, hstep, List.flatMap_cons, ← List.append_assoc]
    exact hfold

/-- The words of OUT are the packed symbols (R70, R140). -/
theorem pack_eq_wordView {o : List Byte} (ho : o.length ≤ 128) :
    (List.range ((o.length + 3) / 4)).map (wordView (toBytes 128 o)) = pack o := by
  refine List.map_congr_left fun j hj => ?_
  have hj := List.mem_range.mp hj
  rw [wordView_toBytes (by omega)]
  simp [dataWord]

/-- Reading as many symbols as were written gives them back (R231, R266). -/
theorem readOut_shows {o : List Byte} (ho : o.length ≤ 128) {s : State} {h : HostEnv} (hs : Shows o s h.mde) :
    ∃ k, h.readOut o.length = .ok (o, k) ∧ Shows o s k.mde := by
  obtain ⟨k, hfold, hsame⟩ := foldlM_readOutWord (js := List.range ((o.length + 3) / 4))
    (fun j hj => by have := List.mem_range.mp hj; omega) hs.rest.ready.rst []
  have hbytes : (List.range ((o.length + 3) / 4)).flatMap (fun j => bytesLe (wordView h.mde.out j)) =
      o ++ List.replicate ((4 - o.length % 4) % 4) 0 := by
    rw [hs.out, ← unpack_pack, ← pack_eq_wordView ho, unpack, List.flatMap_map]
  refine ⟨k, ?_, hs.same hsame⟩
  rw [readOut_eq, hfold, hbytes]
  simp [Except.map]

/-- OUT_LEN counts the symbols (R35). -/
theorem readSymbols_shows {o : List Byte} (ho : o.length ≤ 128) {s : State} {h : HostEnv} (hs : Shows o s h.mde) :
    ∃ k, h.readSymbols = .ok (o, k) ∧ Shows o s k.mde := by
  have hlen : (readReg .outLen h.mde).toNat = o.length := by
    rw [readReg, hs.outLen, BitVec.toNat_setWidth_of_le (by decide), BitVec.toNat_ofNat]
    omega
  obtain ⟨k, hread, hk⟩ := readOut_shows (h := { h with mde := { h.mde with rdata := readReg .outLen h.mde } }) ho
    (hs.same ⟨_, h.mde.turn, rfl⟩)
  refine ⟨k, ?_, hk⟩
  rw [HostEnv.readSymbols, read_eq hs.rest.ready.rst]
  change HostEnv.readOut (readReg .outLen h.mde).toNat _ = _
  rw [hlen]
  exact hread

/-! ## The three encoders -/

/-- ENC_HEX after a digest (R233). -/
theorem encodes_hex {s : State} (hd : s.status.dvalid = true) :
    Encodes .encHex (hexOf s.cfg.hexUpper s.digest.toList) s where
  engine := rfl
  passes := by simp [rejection, validInMode, operandRejection, hd]
  effect := ⟨_, rfl⟩
  length := by simp

/-- ENC_B64 after a digest (R236). -/
theorem encodes_b64 {s : State} (hd : s.status.dvalid = true) :
    Encodes .encB64 (b64 s.digest.toList s.cfg.padEn s.cfg.padChar) s where
  engine := rfl
  passes := by simp [rejection, validInMode, operandRejection, hd]
  effect := ⟨_, rfl⟩
  length := by
    rw [b64_of_length Vector.length_toList]
    split_ifs <;> simp

/-- The symbols ENC_RADIX writes in state `s` (R243). -/
def radixOut (s : State) : List Byte :=
  (List.range (iterations s.alphaLen.toNat)).map fun p =>
    s.symbol (radixDigit s.alphaLen.toNat (iterations s.alphaLen.toNat) (digestValue s) p)

/-- ENC_RADIX after a digest, with a legal radix (R242, R245). -/
theorem encodes_radix {s : State} (hd : s.status.dvalid = true) (hr0 : 2 ≤ s.alphaLen.toNat)
    (hr : s.alphaLen.toNat ≤ 256) : Encodes .encRadix (radixOut s) s where
  engine := rfl
  passes := by simp [rejection, validInMode, operandRejection, radixRejection, hd, hr0, hr]
  effect := by
    refine ⟨convert { accepted (cmdWord .encRadix) s with turn := .engine }, ?_⟩
    have hsymbols := radixSymbols_convert (s := { accepted (cmdWord .encRadix) s with turn := .engine }) hr0 hr rfl
    exact congrArg (fun o => setOut o _) hsymbols
  length := by
    obtain ⟨-, -, hl⟩ := radixIterationCountIsLeast _ hr0 hr
    rwa [radixOut, List.length_map, List.length_range]

/-! ## From the digest to the symbols -/

/-- An encoder, WAIT, CHECK and the reads `read`. -/
def encodeAndRead (i : Instr) (read : HostEnv → HostResult (List Byte × HostEnv)) (h : HostEnv) :
    HostResult (List Byte × HostEnv) :=
  h.command i >>= fun a => a.check >>= read

/-- With no error recorded before, the encoder's symbols are what is read. -/
theorem encodeAndRead_answers {i : Instr} {o : List Byte} {read : HostEnv → HostResult (List Byte × HostEnv)}
    {h₀ h : HostEnv} (hs : AtRest h.mde) (hsame : sameErrors h₀.mde h.mde) (herr : h₀.mde.status.err = false)
    (hi : Encodes i o h.mde)
    (hread : ∀ k : HostEnv, Shows o h.mde k.mde → ∃ l : HostEnv, read k = .ok (o, l) ∧ Shows o h.mde l.mde) :
    Answers (encodeAndRead i read h) h₀ o := by
  obtain ⟨g, hcommand, hg⟩ := command_encodes hs hi
  have herr' : g.mde.status.err = false := hg.errors.1.trans (hsame.1.trans herr)
  obtain ⟨k, hcheck, hk⟩ := check_passes hg.rest herr'
  obtain ⟨l, hl, hshows⟩ := hread k (hg.same hk)
  refine ⟨l, ?_, hshows.rest.ready, sameErrors_trans hsame hshows.errors⟩
  rw [encodeAndRead, hcommand]
  change g.check >>= read = _
  rw [hcheck]
  exact hl

/-- With one recorded, CHECK finds it, whether the encoder is accepted or not. -/
theorem encodeAndRead_fails {i : Instr} (hi : i.isEngine = true) {read : HostEnv → HostResult (List Byte × HostEnv)}
    {h : HostEnv} (hs : AtRest h.mde) (herr : h.mde.status.err = true) : FailsWithAck (encodeAndRead i read h) := by
  obtain ⟨g, hcommand, hg, herr'⟩ := command_err hi hs (.inl herr)
  rw [encodeAndRead, hcommand]
  exact failsWithAck_bind (check_fails hg herr') read

/-- The hex symbols of the digest (R266). -/
theorem hexSymbols_answers {d : List Byte} {c : Cfg} {h₀ h : HostEnv} (hd : Digested d c h₀.mde h.mde)
    (herr : h₀.mde.status.err = false) : Answers h.hexSymbols h₀ (hexOf c.hexUpper d) := by
  obtain ⟨hs, hdigest, hdvalid, hsame, hcfg⟩ := hd
  have hi := encodes_hex hdvalid
  have hlen : (hexOf h.mde.cfg.hexUpper h.mde.digest.toList).length = 32 := by simp
  rw [← hcfg, ← hdigest]
  refine encodeAndRead_answers (read := HostEnv.readOut 32) hs hsame herr hi fun k hk => ?_
  rw [← hlen]
  exact readOut_shows hi.length hk

/-- The symbols an encoder with OUT_LEN writes of the digest (R266). -/
theorem encodedSymbols_answers {i : Instr} {o : List Byte} {h₀ h : HostEnv} (hs : AtRest h.mde)
    (hsame : sameErrors h₀.mde h.mde) (herr : h₀.mde.status.err = false) (hi : Encodes i o h.mde) :
    Answers (h.encodedSymbols i) h₀ o :=
  encodeAndRead_answers (read := HostEnv.readSymbols) hs hsame herr hi fun _ => readSymbols_shows hi.length

/-- The base-64 symbols of the digest (R266). -/
theorem encodedSymbols_b64 {d : List Byte} {c : Cfg} {h₀ h : HostEnv} (hd : Digested d c h₀.mde h.mde)
    (herr : h₀.mde.status.err = false) : Answers (h.encodedSymbols .encB64) h₀ (b64 d c.padEn c.padChar) := by
  obtain ⟨hs, hdigest, hdvalid, hsame, hcfg⟩ := hd
  rw [← hcfg, ← hdigest]
  exact encodedSymbols_answers hs hsame herr (encodes_b64 hdvalid)

theorem Digested.err {d : List Byte} {c : Cfg} {s t : State} (hd : Digested d c s t) (herr : s.status.err = true) :
    t.status.err = true := hd.errors.1.trans herr

theorem hexSymbols_fails {d : List Byte} {c : Cfg} {s : State} {h : HostEnv} (hd : Digested d c s h.mde)
    (herr : s.status.err = true) : FailsWithAck h.hexSymbols :=
  encodeAndRead_fails (read := HostEnv.readOut 32) rfl hd.rest (hd.err herr)

theorem encodedSymbols_fails {i : Instr} (hi : i.isEngine = true) {d : List Byte} {c : Cfg} {s : State} {h : HostEnv}
    (hd : Digested d c s h.mde) (herr : s.status.err = true) : FailsWithAck (h.encodedSymbols i) :=
  encodeAndRead_fails (read := HostEnv.readSymbols) hi hd.rest (hd.err herr)

/-! ## CONFIG and the alphabet -/

/-- A store to another register than CONFIG leaves the digest and CONFIG. -/
theorem digested_storeReg {d : List Byte} {c : Cfg} {s t : State} (hd : Digested d c s t) {r : Reg}
    (hr : r.access = .rw) (hne : r ≠ .config) (v : Word) : Digested d c s (storeReg r v t) := by
  have hrest := atRest_storeReg hd.rest hr v
  cases r with
  | config => exact absurd rfl hne
  | _ => exact { hd with rest := hrest }

/-- A store to CONFIG leaves the digest. -/
theorem digested_storeConfig {d : List Byte} {c : Cfg} {s t : State} (hd : Digested d c s t) (v : Word) :
    Digested d (cfgOfWord v) s (storeReg .config v t) where
  rest := atRest_storeReg hd.rest rfl v
  digest := hd.digest
  dvalid := hd.dvalid
  errors := hd.errors
  cfg := rfl

/-- CONFIG takes the merged word (R266). -/
theorem mergeConfig_digested {d : List Byte} {c : Cfg} {s : State} {h : HostEnv} (hd : Digested d c s h.mde)
    (mask v : Word) :
    ∃ g, h.mergeConfig mask v = .ok g ∧ Digested d (cfgOfWord ((cfgWord c &&& ~~~mask) ||| v)) s g.mde := by
  have hread := hd.same ⟨readReg .config h.mde, h.mde.turn, rfl⟩
  have hwrite := write_eq (h := { h with mde := { h.mde with rdata := readReg .config h.mde } }) hread.rest
    (r := .config) rfl ((readReg .config h.mde &&& ~~~mask) ||| v)
  have hcfg : readReg .config h.mde = cfgWord c := congrArg cfgWord hd.cfg
  rw [← hcfg]
  refine ⟨⟨_, h.polls⟩, ?_, digested_storeConfig hread _⟩
  rw [HostEnv.mergeConfig, read_eq hd.rest.ready.rst]
  exact hwrite

/-- The hex case is under the mask of md5Hex (R30). -/
theorem hexUpper_merged (c : Cfg) (upper : Bool) :
    (cfgOfWord ((cfgWord c &&& ~~~(0x00000001 : Word)) ||| flagAt upper 0)).hexUpper = upper := by
  simp [cfgOfWord, getElem_flagAt]

/-- The pad is under the mask of md5Base64 (R30). -/
theorem pad_merged (c : Cfg) (padEn : Bool) (padChar : Byte) {v : Word}
    (hv : v = (cfgWord c &&& ~~~(0x0000FF02 : Word)) ||| (flagAt padEn 1 ||| (padChar.setWidth 32 <<< 8))) :
    (cfgOfWord v).padEn = padEn ∧ (cfgOfWord v).padChar = padChar := by
  subst hv
  constructor
  · simp [cfgOfWord, getElem_flagAt]
  · apply BitVec.eq_of_getElem_eq
    intro i hi
    interval_cases i <;> simp [cfgOfWord, getElem_flagAt]

/-- A word of ALPHA holds four symbols (R70). -/
theorem symbol_storeAlpha {s : State} (hwf : Memory.wf s.alpha = true) {n : Nat} (hn : n < 64) (w : Word) (v : Nat) :
    (storeReg (.alpha (Fin.ofNat 64 n)) w s).symbol v =
      if v / 4 = n then lane w (v % 4) else s.symbol v := by
  have hsymbol : (storeReg (.alpha (Fin.ofNat 64 n)) w s).symbol v =
      Memory.read (Memory.writeWord s.alpha (alphaBase + 4 * n) w) (alphaBase + v) := by
    rw [State.symbol, storeReg, Fin.val_ofNat, Nat.mod_eq_of_lt hn]
  rw [hsymbol]
  split_ifs with hv
  · rw [show alphaBase + v = alphaBase + 4 * n + v % 4 by omega]
    exact Memory.read_writeWord_same _ w _ hwf (by omega)
  · exact Memory.read_writeWord_other w hwf (by omega)

/-- One write of `writeAlphabet`. -/
def writeSymbols (k : HostEnv) (w : Word × Nat) : HostResult HostEnv := k.write (.alpha (Fin.ofNat 64 w.2)) w.1

/-- The words written from word `n` of ALPHA on are the symbols there, and the others stay (R70). -/
theorem foldlM_writeSymbols {ws : List Word} {n : Nat} (hn : n + ws.length ≤ 64) {d : List Byte} {c : Cfg} {s : State}
    {h : HostEnv} (hd : Digested d c s h.mde) :
    ∃ g, (ws.zipIdx n).foldlM writeSymbols h = .ok g ∧ Digested d c s g.mde ∧ g.mde.alphaLen = h.mde.alphaLen ∧
      ∀ v, g.mde.symbol v =
        if n ≤ v / 4 ∧ v / 4 < n + ws.length then lane (ws.getD (v / 4 - n) 0) (v % 4) else h.mde.symbol v := by
  induction ws generalizing n h with
  | nil => exact ⟨h, rfl, hd, rfl, fun v => by rw [if_neg (by simp)]⟩
  | cons w ws ih =>
    rw [List.length_cons] at hn
    have hwf := hd.rest.inv.data.alpha_wf
    obtain ⟨g, hfold, hg, hlen, hsymbols⟩ := ih (n := n + 1) (by omega)
      (h := { h with mde := storeReg (.alpha (Fin.ofNat 64 n)) w h.mde }) (digested_storeReg (r := .alpha _) hd rfl nofun w)
    refine ⟨g, ?_, hg, hlen, fun v => ?_⟩
    · rw [List.zipIdx_cons, List.foldlM_cons, writeSymbols, write_eq hd.rest rfl]
      exact hfold
    · rw [hsymbols, symbol_storeAlpha hwf (by omega), List.length_cons]
      obtain hlt | heq | hgt := lt_trichotomy (v / 4) n
      · rw [if_neg (by omega), if_neg (by omega), if_neg (by omega)]
      · rw [if_neg (by omega), if_pos heq, if_pos (by omega), heq, Nat.sub_self, List.getD_cons_zero]
      · rw [if_neg (show ¬ v / 4 = n by omega), show v / 4 - n = v / 4 - (n + 1) + 1 by omega, List.getD_cons_succ]
        exact if_congr (by omega) rfl rfl

/-- Writing an alphabet leaves its length and its symbols, if it fits (R266). -/
theorem writeAlphabet_digested {d : List Byte} {c : Cfg} {s : State} {h : HostEnv} (hd : Digested d c s h.mde)
    (alphabet : List Byte) :
    ∃ g, h.writeAlphabet alphabet = .ok g ∧ Digested d c s g.mde ∧
      (alphabet.length ≤ 256 → g.mde.alphaLen.toNat = alphabet.length ∧
        ∀ v, v < alphabet.length → g.mde.symbol v = alphabet.getD v 0) := by
  have hwords : (alphabetWords alphabet).length ≤ 64 := by simp [alphabetWords]
  obtain ⟨g, hfold, hg, hlen, hsymbols⟩ := foldlM_writeSymbols (n := 0) (by rwa [Nat.zero_add])
    (h := { h with mde := storeReg .alphaLen (BitVec.ofNat 32 alphabet.length) h.mde })
    (digested_storeReg (r := .alphaLen) hd rfl nofun (BitVec.ofNat 32 alphabet.length))
  refine ⟨g, ?_, hg, fun hfits => ⟨?_, fun v hv => ?_⟩⟩
  · rw [HostEnv.writeAlphabet, write_eq hd.rest rfl]
    exact hfold
  · rw [hlen]
    change ((BitVec.ofNat 32 alphabet.length).setWidth 9).toNat = alphabet.length
    rw [BitVec.toNat_setWidth, BitVec.toNat_ofNat]
    omega
  · have hget : (alphabetWords alphabet).getD (v / 4) 0 = dataWord ((alphabet.drop (4 * (v / 4))).take 4) := by
      have hgroup : v / 4 < (alphabet.length + 3) / 4 := by omega
      simp [alphabetWords, groupsOf4, show v / 4 < 64 by omega, hgroup]
    have hin : 0 ≤ v / 4 ∧ v / 4 < 0 + (alphabetWords alphabet).length := by
      simp [alphabetWords, groupsOf4]
      omega
    rw [hsymbols, if_pos hin, Nat.sub_zero, hget, lane_dataWord _ (Nat.mod_lt _ (by decide))]
    simp only [List.getD_eq_getElem?_getD]
    rw [List.getElem?_take_of_lt (Nat.mod_lt _ (by decide)), List.getElem?_drop, Nat.div_add_mod]

/-- With a legal alphabet written, ENC_RADIX returns the digits of the digest in its base (R241, R266). -/
theorem writeAlphabet_radix {d : List Byte} {c : Cfg} {h₀ h : HostEnv} (hd : Digested d c h₀.mde h.mde)
    (herr : h₀.mde.status.err = false) {alphabet : List Byte} (hr0 : 2 ≤ alphabet.length) (hr : alphabet.length ≤ 256) :
    ∃ o, radixDigits alphabet d o ∧ Answers (h.writeAlphabet alphabet >>= HostEnv.encodedSymbols .encRadix) h₀ o := by
  obtain ⟨g, hwrite, ⟨hs, hdigest, hdvalid, hsame, -⟩, hfits⟩ := writeAlphabet_digested hd alphabet
  obtain ⟨hlen, hsymbols⟩ := hfits hr
  obtain ⟨hleast, -, -⟩ := radixIterationCountIsLeast _ hr0 hr
  refine ⟨radixOut g.mde, ⟨iterations alphabet.length, hleast, ?_⟩, ?_⟩
  · rw [radixOut, hlen]
    refine List.map_congr_left fun p _ => ?_
    rw [radixDigit, digestValue, hdigest, hsymbols _ (Nat.mod_lt _ (by omega))]
  · rw [hwrite]
    exact encodedSymbols_answers hs hsame herr (encodes_radix hdvalid (by omega) (by omega))

/-- With an error recorded before, the sequence fails at CHECK whatever the alphabet. -/
theorem writeAlphabet_fails {d : List Byte} {c : Cfg} {s : State} {h : HostEnv} (hd : Digested d c s h.mde)
    (herr : s.status.err = true) (alphabet : List Byte) :
    FailsWithAck (h.writeAlphabet alphabet >>= HostEnv.encodedSymbols .encRadix) := by
  obtain ⟨g, hwrite, hg, -⟩ := writeAlphabet_digested hd alphabet
  rw [hwrite]
  exact encodedSymbols_fails rfl hg herr

/-- CONFIG takes the hex case, and the hex symbols are read (R266). -/
theorem mergeConfig_hex {d : List Byte} {c : Cfg} {h₀ h : HostEnv} (hd : Digested d c h₀.mde h.mde) (upper : Bool) :
    (h₀.mde.status.err = false →
      Answers (h.mergeConfig 0x00000001 (flagAt upper 0) >>= HostEnv.hexSymbols) h₀ (hexOf upper d)) ∧
    (h₀.mde.status.err = true →
      FailsWithAck (h.mergeConfig 0x00000001 (flagAt upper 0) >>= HostEnv.hexSymbols)) := by
  obtain ⟨g, hmerge, hg⟩ := mergeConfig_digested hd 0x00000001 (flagAt upper 0)
  rw [hmerge]
  refine ⟨fun herr => ?_, hexSymbols_fails hg⟩
  have hanswer := hexSymbols_answers hg herr
  rwa [hexUpper_merged] at hanswer

/-- CONFIG takes the pad, and the base-64 symbols are read (R266). -/
theorem mergeConfig_b64 {d : List Byte} {c : Cfg} {h₀ h : HostEnv} (hd : Digested d c h₀.mde h.mde) (padEn : Bool)
    (padChar : Byte) :
    (h₀.mde.status.err = false →
      Answers (h.mergeConfig 0x0000FF02 (flagAt padEn 1 ||| (padChar.setWidth 32 <<< 8)) >>=
        HostEnv.encodedSymbols .encB64) h₀ (b64 d padEn padChar)) ∧
    (h₀.mde.status.err = true →
      FailsWithAck (h.mergeConfig 0x0000FF02 (flagAt padEn 1 ||| (padChar.setWidth 32 <<< 8)) >>=
        HostEnv.encodedSymbols .encB64)) := by
  obtain ⟨g, hmerge, hg⟩ := mergeConfig_digested hd 0x0000FF02 (flagAt padEn 1 ||| (padChar.setWidth 32 <<< 8))
  rw [hmerge]
  refine ⟨fun herr => ?_, encodedSymbols_fails rfl hg⟩
  have hanswer := encodedSymbols_b64 hg herr
  obtain ⟨hpadEn, hpadChar⟩ := pad_merged c padEn padChar rfl
  rwa [hpadEn, hpadChar] at hanswer

/-! ## The self-test -/

/-- The completion of SELFTEST sets ST_PASS (R179). -/
theorem stPass_selftest {u : State} (ht : u.turn = .engine) :
    (complete (commandEffect .selftest u)).status.stPass = true := by
  obtain ⟨aa, hexec⟩ := selftestPasses.2 u ht
  rw [complete_commandEffect_eq rfl ht hexec]
  rfl

/-- ST_PASS is bit 15 of STATUS (R23). -/
theorem statusWord_getLsbD_stPass (t : Status) : (statusWord t).getLsbD 15 = t.stPass :=
  statusAndConfigBitLayout.1 t 15

/-- SELFTEST passes where its mode allows it and no error was recorded (R179, R268). -/
theorem selftestPasses_answers {h : HostEnv} (hs : AtRest h.mde) (herr : h.mde.status.err = false)
    (hmode : h.mde.status.mode = .none) : Answers h.selftestPasses h true := by
  have hrej : rejection .selftest h.mde = none := by simp [rejection, validInMode, operandRejection, hmode]
  obtain ⟨g, t, hcommand, hrun, ht, hsame, -⟩ := performs_command (i := .selftest) rfl h h.mde hs (.refl _)
  rw [run_command rfl hs.ready hrej, Option.some_inj] at hrun
  have hpass : t.status.stPass = true := by
    rw [← hrun]
    exact stPass_selftest rfl
  have herrors : sameErrors h.mde t := by
    rw [← hrun]
    exact complete_sameErrors .selftest _ h.mde
  have hg := ht.same hsame
  obtain ⟨x, tn, hmde⟩ := hsame
  have hstatus : g.mde.status = t.status := by rw [hmde]
  have herr' : g.mde.status.err = false := by rw [hstatus, herrors.1, herr]
  have hpass' : (readReg .status g.mde).getLsbD 15 = true := by
    rw [readReg, statusWord_getLsbD_stPass, hstatus, hpass]
  have hread := hg.same ⟨readReg .status g.mde, g.mde.turn, rfl⟩
  refine ⟨{ g with mde := { g.mde with rdata := readReg .status g.mde } }, ?_, hread.ready, ?_⟩
  · rw [HostEnv.selftestPasses, hcommand]
    change (g.read .status >>= _) = _
    rw [read_eq hg.ready.rst]
    change (HostEnv.failIfErr (statusWord g.mde.status) _ >>= _) = _
    rw [failIfErr_passes herr', ← hpass']
    rfl
  · rwa [sameErrors, ← hstatus] at herrors

/-- It fails with an error recorded or where SELFTEST is rejected (R130, R269). -/
theorem selftestPasses_fails {h : HostEnv} (hs : AtRest h.mde)
    (hfail : h.mde.status.err = true ∨ h.mde.status.mode ≠ .none) : FailsWithAck h.selftestPasses := by
  have hrej : h.mde.status.err = true ∨ rejection .selftest h.mde ≠ none :=
    hfail.imp_right fun hmode => by simp [rejection, validInMode, hmode]
  obtain ⟨g, hcommand, hg, herr⟩ := command_err (i := .selftest) rfl hs hrej
  have hread := failIfErr_fails (h := { g with mde := { g.mde with rdata := readReg .status g.mde } })
    (hg.same ⟨_, g.mde.turn, rfl⟩) herr
  rw [HostEnv.selftestPasses, hcommand]
  change FailsWithAck (g.read .status >>= _)
  rw [read_eq hg.ready.rst]
  exact failsWithAck_bind hread _

theorem normalize_abc : normalize [0x0061, 0x0062, 0x0063] = selftestMessage := by decide

/-- The digest of "abc" is the one SELFTEST knows (R179). -/
theorem md5_abc : md5 (normalize [0x0061, 0x0062, 0x0063]) = selftestDigest := by
  have hlength : bitLength selftestMessage = 24 := rfl
  have hiv : Hash.iv = iv := rfl
  rw [normalize_abc, md5, hlength, hiv, chain_selftestMessage, bytes_selftestRegisters]

/-! ## The entry points -/

/-- A sequence goes on from where its first procedure leaves the host. -/
theorem bind_of_ok {α β : Type} {r : HostResult α} {a : α} (hr : r = .ok a) (k : α → HostResult β) :
    (r >>= k) = k a := by
  rw [hr]
  rfl

theorem md5Hex_entry {h : HostEnv} (hs : AtRest h.mde) {text : List (BitVec 16)}
    (hlen : (normalize text).length ≤ 2 ^ 61 - 65) (upper : Bool) :
    (h.mde.status.err = false → Answers (h.md5Hex upper text) h (hexOf upper (md5 (normalize text)))) ∧
    (h.mde.status.err = true → FailsWithAck (h.md5Hex upper text)) := by
  obtain ⟨g, hmd5, hg⟩ := md5Digest_digested hs hlen
  rw [HostEnv.md5Hex, bind_of_ok hmd5]
  exact mergeConfig_hex hg upper

theorem md5Base64_entry {h : HostEnv} (hs : AtRest h.mde) {text : List (BitVec 16)}
    (hlen : (normalize text).length ≤ 2 ^ 61 - 65) (padEn : Bool) (padChar : Byte) :
    (h.mde.status.err = false →
      Answers (h.md5Base64 padEn padChar text) h (b64 (md5 (normalize text)) padEn padChar)) ∧
    (h.mde.status.err = true → FailsWithAck (h.md5Base64 padEn padChar text)) := by
  obtain ⟨g, hmd5, hg⟩ := md5Digest_digested hs hlen
  rw [HostEnv.md5Base64, bind_of_ok hmd5]
  exact mergeConfig_b64 hg padEn padChar

theorem md5ArbitraryBase_entry {h : HostEnv} (hs : AtRest h.mde) {text : List (BitVec 16)}
    (hlen : (normalize text).length ≤ 2 ^ 61 - 65) (alphabet : List Byte) :
    (h.mde.status.err = false → 2 ≤ alphabet.length → alphabet.length ≤ 256 →
      ∃ o, radixDigits alphabet (md5 (normalize text)) o ∧ Answers (h.md5ArbitraryBase alphabet text) h o) ∧
    (h.mde.status.err = true → FailsWithAck (h.md5ArbitraryBase alphabet text)) := by
  obtain ⟨g, hmd5, hg⟩ := md5Digest_digested hs hlen
  rw [HostEnv.md5ArbitraryBase, bind_of_ok hmd5]
  exact ⟨fun herr => writeAlphabet_radix hg herr, fun herr => writeAlphabet_fails hg herr alphabet⟩

section
variable {h : HostEnv} (hs : AtRest h.mde) {key data : List (BitVec 16)}
  (hkey : (normalize key).length ≤ 2 ^ 61 - 65) (hdata : (normalize data).length ≤ 2 ^ 61 - 65)
include hs hkey hdata

theorem hmacMd5Hex_entry :
    (h.mde.status.err = false →
      Answers (h.hmacMd5Hex key data) h (hexOf h.mde.cfg.hexUpper (hmac (normalize key) (normalize data)))) ∧
    (h.mde.status.err = true → FailsWithAck (h.hmacMd5Hex key data)) := by
  obtain ⟨g, hhmac, hg⟩ := hmacDigest_digested hs hkey hdata
  rw [HostEnv.hmacMd5Hex, bind_of_ok hhmac]
  exact ⟨hexSymbols_answers hg, hexSymbols_fails hg⟩

theorem hmacMd5Base64_entry :
    (h.mde.status.err = false →
      Answers (h.hmacMd5Base64 key data) h
        (b64 (hmac (normalize key) (normalize data)) h.mde.cfg.padEn h.mde.cfg.padChar)) ∧
    (h.mde.status.err = true → FailsWithAck (h.hmacMd5Base64 key data)) := by
  obtain ⟨g, hhmac, hg⟩ := hmacDigest_digested hs hkey hdata
  rw [HostEnv.hmacMd5Base64, bind_of_ok hhmac]
  exact ⟨encodedSymbols_b64 hg, encodedSymbols_fails rfl hg⟩

theorem hmacMd5ArbitraryBase_entry (alphabet : List Byte) :
    (h.mde.status.err = false → 2 ≤ alphabet.length → alphabet.length ≤ 256 →
      ∃ o, radixDigits alphabet (hmac (normalize key) (normalize data)) o ∧
        Answers (h.hmacMd5ArbitraryBase alphabet key data) h o) ∧
    (h.mde.status.err = true → FailsWithAck (h.hmacMd5ArbitraryBase alphabet key data)) := by
  obtain ⟨g, hhmac, hg⟩ := hmacDigest_digested hs hkey hdata
  rw [HostEnv.hmacMd5ArbitraryBase, bind_of_ok hhmac]
  exact ⟨fun herr => writeAlphabet_radix hg herr, fun herr => writeAlphabet_fails hg herr alphabet⟩

end

/-- The other self-test compares the hex symbols of "abc" (R268). -/
theorem selftestByHex_entry {h : HostEnv} (hs : AtRest h.mde) (upper : Bool) :
    (h.mde.status.err = false → Answers (h.selftestByHex upper) h true) ∧
    (h.mde.status.err = true → FailsWithAck (h.selftestByHex upper)) := by
  have habc : (normalize [0x0061, 0x0062, 0x0063]).length ≤ 2 ^ 61 - 65 := by
    rw [normalize_abc]
    decide
  obtain ⟨hanswers, hfails⟩ := md5Hex_entry hs habc upper
  refine ⟨fun herr => ?_, fun herr => failsWithAck_bind (hfails herr) _⟩
  obtain ⟨g, hhex, hg⟩ := hanswers herr
  refine ⟨g, ?_, hg⟩
  rw [HostEnv.selftestByHex, bind_of_ok hhex]
  change Except.ok (decide (hexDecode (hexOf upper (md5 (normalize [0x0061, 0x0062, 0x0063]))) =
    some selftestDigest), g) = _
  rw [hexDecode_hexOf, md5_abc, decide_eq_true rfl]

/-- Settles O47: the digest part leaves the digest, and what follows it returns its symbols or finds the error. -/
theorem entryPointsAnswer : Obligations.EntryPointsAnswer := by
  intro h text key alphabet upper padEn padChar hinv hready htext hkey d a
  have hs : AtRest h.mde := ⟨hinv, hready⟩
  obtain ⟨hhex, hhexFails⟩ := md5Hex_entry hs htext upper
  obtain ⟨hb64, hb64Fails⟩ := md5Base64_entry hs htext padEn padChar
  obtain ⟨hradix, hradixFails⟩ := md5ArbitraryBase_entry hs htext alphabet
  obtain ⟨hhmacHex, hhmacHexFails⟩ := hmacMd5Hex_entry hs hkey htext
  obtain ⟨hhmacB64, hhmacB64Fails⟩ := hmacMd5Base64_entry hs hkey htext
  obtain ⟨hhmacRadix, hhmacRadixFails⟩ := hmacMd5ArbitraryBase_entry hs hkey htext alphabet
  obtain ⟨habc, habcFails⟩ := selftestByHex_entry hs upper
  exact ⟨fun herr => ⟨hhex herr, hb64 herr, hhmacHex herr, hhmacB64 herr,
      fun hr0 hr => ⟨hradix herr hr0 hr, hhmacRadix herr hr0 hr⟩, habc herr, selftestPasses_answers hs herr⟩,
    fun herr => ⟨hhexFails herr, hb64Fails herr, hhmacHexFails herr, hhmacB64Fails herr, hradixFails herr,
      hhmacRadixFails herr, habcFails herr⟩,
    selftestPasses_fails hs⟩

end Sys2Proof.Proofs
end
